-- ==== Sys2Proof/Word.lean ====
section
/-! DEFINITION. The fixed-width words the spec names (`00_scope.md` section 5.1): every quantity is
unsigned. Quantities the spec calls `Nat` (the scan index, the counters, a logical address) are Lean's
`Nat`; nothing in the block is signed (R58). -/

namespace Sys2Proof

/-- `u8`: a data byte, an I2C bus address, a register number. -/
abbrev Byte := BitVec 8

/-- `u16`: the operand of SETADDR (R72). -/
abbrev Half := BitVec 16

/-- The 13 address lines `A` (R28). -/
abbrev Lines := BitVec 13

/-- `CW`: the 32-bit command word (R71). -/
abbrev CommandWord := BitVec 32

end Sys2Proof
end

