-- ==== Sys2Proof/Config.lean ====
section
/-! DEFINITION. What is fixed for a run: the configuration record `CFG` (R10), its enumerations (R77),
the raw record a configuration collaborator presents (R81), and the free values of the model: the
answers of the bus collaborator (R47) and the cartridge's reaction to a hotspot (R29). The constants of
R5 that the source fixes (`RomOffset`, the hotspot lists, `StableCount`, ...) are plain definitions in
Machine/Operands.lean. -/

namespace Sys2Proof

/-- BankSwitchMethod, "one of {None, F8, F6}" (R77, R110). R4: no other scheme has a meaning. -/
inductive BankSwitchMethod where
  | none
  | f8
  | f6
deriving DecidableEq, Repr, Inhabited

/-- `CFG.MethodOverride` (R10): there is no way to force `None` (conflict C8). -/
inductive MethodOverride where
  | auto
  | f8
  | f6
deriving DecidableEq, Repr, Inhabited

/-- The bank-select index of a port (R44, R81): exactly three values exist. -/
inductive BankIndex where
  | mcp23017A
  | mcp23017B
  | mcp23008
deriving DecidableEq, Repr, Inhabited

/-- IoExpanderPort: a (bus address, bank index) pair (R5). -/
structure Port where
  chip : Byte
  bank : BankIndex
deriving DecidableEq, Repr, Inhabited

/-- A non-negative duration, counted in nanoseconds (DESIGN CHOICE, assumption 4). No value the block
computes depends on one (R214). -/
abbrev Duration := Nat

/-- The configuration record `CFG` (R10). No operation writes any field of it. -/
structure Cfg where
  romSize : Nat
  methodOverride : MethodOverride
  addrDelay : Duration
  retryDelay : Duration
  romDelay : Duration
  maxRetries : Nat
  portWL : Port
  portWH : Port
  portRD : Port
  /-- opaque I2C bus selector: passed to the bus collaborator, read by no rule (R5). The spec gives it no
  type and no values (N4); a natural number is the model's (DESIGN CHOICE, assumption 28) -/
  busSel : Nat
  stabilize : Bool
  checkAllOnes : Bool
  /-- `none`, or a number at least 1 (R10, R134) -/
  stabilizeCeiling : Option Nat
deriving DecidableEq, Repr, Inhabited

/-- A configuration as numbers, before the configuration collaborator has checked it (R77, R81). -/
structure RawCfg where
  romSize : Nat
  methodOverride : Nat
  addrDelay : Duration
  retryDelay : Duration
  romDelay : Duration
  maxRetries : Nat
  portWL : Byte × Nat
  portWH : Byte × Nat
  portRD : Byte × Nat
  busSel : Nat
  stabilize : Bool
  checkAllOnes : Bool
  stabilizeCeiling : Option Nat
deriving DecidableEq, Repr

/-- What the bus collaborator answers to one transaction (R47). For a read, `ok v` is `Ok(v)`; for a
write, `ok` is `Ok` and its byte means nothing. `ioFault landed` is `IoFault`; for a write, `landed`
says whether the register took the value all the same (R47, U6: a model must not assume either). -/
inductive Reply where
  | ok (v : Byte)
  | ioFault (landed : Bool)
deriving DecidableEq, Repr, Inhabited

namespace Config

/-- FREE VALUE: the answer of the bus collaborator to the n-th transaction for which no answer was
placed in the state (R47, U16, U17: the success of a transaction and the byte read are drawn). -/
opaque busReply : Nat → Reply

/-- FREE VALUE: the scheme of the cartridge in the slot. The block knows only `CFG` (R29, N8). -/
opaque cartridgeScheme : BankSwitchMethod

/-- FREE VALUE: whether the n-th appearance of a hotspot on the address lines flips the cartridge's
latch. The spec does not say whether the address alone is enough (N8, G4). -/
opaque latches : Nat → Bool

/-- What the configuration collaborator presents at `State.reset`. The fields with a default in R10
hold it. The fields the spec leaves open hold the example configuration K of `95_test_vectors.md`, a
ROM size of one 4096-byte window, and zeros (DESIGN CHOICE, assumption 3). -/
def presented : Cfg where
  romSize := 4096
  methodOverride := .auto
  addrDelay := 200000000
  retryDelay := 5000000000
  romDelay := 0
  maxRetries := 2
  portWL := ⟨0x20#8, .mcp23017A⟩
  portWH := ⟨0x20#8, .mcp23017B⟩
  portRD := ⟨0x21#8, .mcp23008⟩
  busSel := 0
  stabilize := true
  checkAllOnes := true
  stabilizeCeiling := Option.none

end Config

end Sys2Proof
end

