-- ==== Sys2Proof/Syntax.lean ====
section
/-! DEFINITION. The operations the block accepts. `Instr` has one constructor per row of the opcode
table; BANKSW has a row per method and so a constructor per method. `CallForm` is the normative form
of R70 and R82, one constructor per operation of R78, and `Instr.callForm` relates the two. -/

namespace Sys2Proof

/-- The commands (R72, R78). The operand of SETADDR is a `u16`. The operand of BANKSW is a logical
address with offset, a natural number: the 24-bit limit is one of the command word only (R73) and is
a check of WellFormed.lean. -/
inductive Instr where
  /-- CONFIG (R160) -/
  | config
  /-- SETADDR `p` (R100) -/
  | setaddr (p : Half)
  /-- BANKSW None, `a` (R114) -/
  | bankswNone (a : Nat)
  /-- BANKSW F8, `a` (R114) -/
  | bankswF8 (a : Nat)
  /-- BANKSW F6, `a` (R114) -/
  | bankswF6 (a : Nat)
  /-- RDBYTE (R130) -/
  | rdbyte
  /-- RDFAST (R132) -/
  | rdfast
  /-- CHKROM (R150) -/
  | chkrom
  /-- SCAN (R162) -/
  | scan
  /-- SETTLE (R101) -/
  | settle
deriving DecidableEq, Repr

/-- The call form of an operation (R70, R82): eight operations with their operands as values. -/
inductive CallForm where
  | config
  | setAddress (physicalAddress : Half)
  | bankSwitch (logicalAddressWithOffset : Nat) (method : BankSwitchMethod)
  | readByte
  | readByteFast
  | checkRom
  | scan
  | settle
deriving DecidableEq, Repr

/-- The call form a command spells (R82). -/
def Instr.callForm : Instr → CallForm
  | .config => .config
  | .setaddr p => .setAddress p
  | .bankswNone a => .bankSwitch a .none
  | .bankswF8 a => .bankSwitch a .f8
  | .bankswF6 a => .bankSwitch a .f6
  | .rdbyte => .readByte
  | .rdfast => .readByteFast
  | .chkrom => .checkRom
  | .scan => .scan
  | .settle => .settle

/-- The command that spells a call form (R70: the command word adds no operation and no operand). -/
def CallForm.instr : CallForm → Instr
  | .config => .config
  | .setAddress p => .setaddr p
  | .bankSwitch a .none => .bankswNone a
  | .bankSwitch a .f8 => .bankswF8 a
  | .bankSwitch a .f6 => .bankswF6 a
  | .readByte => .rdbyte
  | .readByteFast => .rdfast
  | .checkRom => .chkrom
  | .scan => .scan
  | .settle => .settle

end Sys2Proof
end

