-- ==== Sys2Proof/WellFormed.lean ====
section
/-! DEFINITION. When a command has a command word, and when a configuration is legal. A BANKSW whose
operand does not fit the 24-bit `IMM` field is a legal call form without a word (R73). -/

namespace Sys2Proof

/-- The operand of a BANKSW command word is a natural number below `2^24` (R73). -/
def fitsImm24 (a : Nat) : Bool := decide (a < 2 ^ 24)

/-- The command has a command word (R72, R73). -/
def Instr.wellFormed : Instr → Bool
  | .config => true
  | .setaddr _ => true
  | .bankswNone a => fitsImm24 a
  | .bankswF8 a => fitsImm24 a
  | .bankswF6 a => fitsImm24 a
  | .rdbyte => true
  | .rdfast => true
  | .chkrom => true
  | .scan => true
  | .settle => true

/-- The legal values of `CFG` that its types leave open: a ceiling is at least 1 (R10). -/
def Cfg.legal (c : Cfg) : Bool :=
  match c.stabilizeCeiling with
  | none => true
  | some n => decide (1 ≤ n)

end Sys2Proof
end

