-- ==== Sys2Proof/Decode.lean ====
section
/-! DEFINITION. The command word (R71 to R73), the decoder (R79, R80) and the encoder (R82), and the
numbers of the enumerations (R77). A command is one 32-bit word; there is no instruction fetch and so
no byte order of commands (R48), and the decoder takes the word itself. -/

namespace Sys2Proof

/-- The number of a BankSwitchMethod in field `M` (R77). -/
def methodCode : BankSwitchMethod → BitVec 2
  | .none => 0#2
  | .f8 => 1#2
  | .f6 => 2#2

/-- Fields of the command word (R71). -/
def opField (cw : CommandWord) : BitVec 4 := cw.extractLsb' 28 4
def methodField (cw : CommandWord) : BitVec 2 := cw.extractLsb' 26 2
def zeroField (cw : CommandWord) : BitVec 2 := cw.extractLsb' 24 2
def immField (cw : CommandWord) : BitVec 24 := cw.extractLsb' 0 24

/-- The operand `p` of format A: `CW[15:0]` (R73). -/
def physicalOperand (cw : CommandWord) : Half := cw.extractLsb' 0 16

/-- The operand `a` of format B: `CW[23:0]` as a natural number (R73). -/
def logicalOperand (cw : CommandWord) : Nat := (immField cw).toNat

/-- A row of the match and mask table of R78: `cw` is the row's operation when `cw & mask = pattern`. -/
structure OpcodeRow where
  mnemonic : String
  pattern : CommandWord
  mask : CommandWord
  build : CommandWord → Instr

def OpcodeRow.accepts (row : OpcodeRow) (cw : CommandWord) : Bool := cw &&& row.mask == row.pattern

/-- The match and mask table (R78). -/
def opcodeRows : List OpcodeRow :=
  [ ⟨"CONFIG", 0x10000000#32, 0xFFFFFFFF#32, fun _ => .config⟩,
    ⟨"SETADDR", 0x20000000#32, 0xFFFF0000#32, fun cw => .setaddr (physicalOperand cw)⟩,
    ⟨"BANKSW", 0x30000000#32, 0xFF000000#32, fun cw => .bankswNone (logicalOperand cw)⟩,
    ⟨"BANKSW", 0x34000000#32, 0xFF000000#32, fun cw => .bankswF8 (logicalOperand cw)⟩,
    ⟨"BANKSW", 0x38000000#32, 0xFF000000#32, fun cw => .bankswF6 (logicalOperand cw)⟩,
    ⟨"RDBYTE", 0x40000000#32, 0xFFFFFFFF#32, fun _ => .rdbyte⟩,
    ⟨"RDFAST", 0x50000000#32, 0xFFFFFFFF#32, fun _ => .rdfast⟩,
    ⟨"CHKROM", 0x60000000#32, 0xFFFFFFFF#32, fun _ => .chkrom⟩,
    ⟨"SCAN", 0x70000000#32, 0xFFFFFFFF#32, fun _ => .scan⟩,
    ⟨"SETTLE", 0x80000000#32, 0xFFFFFFFF#32, fun _ => .settle⟩ ]

/-- Why a word is reserved (R80); where several reasons hold, the first in the order of R80's list. -/
inductive ReservedReason where
  /-- `OP` is `0x0` or `0x9` to `0xF` -/
  | operation
  /-- `Z` is not 0 -/
  | zeroBits
  /-- a word of format N or A with `M` not 0 -/
  | methodNotZero
  /-- a BANKSW word with `M = 3` -/
  | methodReserved
  /-- a format N word with `IMM` not 0, or a SETADDR word with `IMM[23:16]` not 0 -/
  | immediate
deriving DecidableEq, Repr

/-- The reason a word that matches no row is reserved (R80). -/
def reservedReason (cw : CommandWord) : ReservedReason :=
  if opField cw = 0#4 ∨ 9#4 ≤ opField cw then .operation
  else if zeroField cw ≠ 0#2 then .zeroBits
  else if opField cw = 3#4 then .methodReserved
  else if methodField cw ≠ 0#2 then .methodNotZero
  else .immediate

/-- What a word decodes to (R79): a command, or a reserved word with its reason. -/
inductive Decoded where
  | command (i : Instr)
  | reserved (why : ReservedReason)
deriving DecidableEq, Repr

/-- The decoder, total on 32-bit words: the row that matches, or a reserved encoding (R79). -/
def decode (cw : CommandWord) : Decoded :=
  match opcodeRows.find? (fun row => row.accepts cw) with
  | some row => .command (row.build cw)
  | none => .reserved (reservedReason cw)

/-- The command word made of its four fields, `Z` being 0 (R71). -/
def commandWord (op : BitVec 4) (m : BitVec 2) (imm : BitVec 24) : CommandWord :=
  op ++ m ++ 0#2 ++ imm

/-- The command word of a well-formed command (R72, R82). -/
def encode : Instr → CommandWord
  | .config => commandWord 0x1#4 0#2 0#24
  | .setaddr p => commandWord 0x2#4 0#2 (p.setWidth 24)
  | .bankswNone a => commandWord 0x3#4 (methodCode .none) (BitVec.ofNat 24 a)
  | .bankswF8 a => commandWord 0x3#4 (methodCode .f8) (BitVec.ofNat 24 a)
  | .bankswF6 a => commandWord 0x3#4 (methodCode .f6) (BitVec.ofNat 24 a)
  | .rdbyte => commandWord 0x4#4 0#2 0#24
  | .rdfast => commandWord 0x5#4 0#2 0#24
  | .chkrom => commandWord 0x6#4 0#2 0#24
  | .scan => commandWord 0x7#4 0#2 0#24
  | .settle => commandWord 0x8#4 0#2 0#24

/-- The instruction the decoder reads from an instruction whose bits are `w` (bit 0 the least
significant). Every row of the table is one 32-bit word (R71), so a number with a higher bit set is no
command. -/
def decodeTableWord (_nbits w : Nat) : Option Instr :=
  if w < 2 ^ 32 then
    match decode (BitVec.ofNat 32 w) with
    | .command i => some i
    | .reserved _ => none
  else none

end Sys2Proof
end

