-- ==== Sys2Proof/Machine/State.lean ====
section
/-! DEFINITION. The state of the machine as plain data: the block's own state (R10 to R26), the part of
the environment that the block changes through the bus (R27 to R29), and the model's own fields (the
operation in progress, and the host's inputs and the bus answers still to come). `State.reset` is the state
right after reset (R31, R230). -/

namespace Sys2Proof.Machine

open Sys2Proof

/-- `ST`, the sequencer state (R12). -/
inductive SeqState where
  | idle
  | configuring
  | validating
  | scanning
  | finalized
  | aborted
deriving DecidableEq, Repr

/-- The sub-cause of a ConfigurationFault (R200). -/
inductive ConfigurationCause where
  | size
  | bank
  | operand
deriving DecidableEq, Repr

/-- The sub-cause of a FatalTransportFault (R200). -/
inductive TransportCause where
  | read
  | write
deriving DecidableEq, Repr

/-- The cause of a failed validation, "cartridge not inserted" or "wiring issue" (R23). -/
inductive ValidationCause where
  | absent
  | miswired
deriving DecidableEq, Repr

/-- A fault with its sub-cause: what a `REPORT` event carries and what `raise` is given (R206, R207). -/
inductive Report where
  | configuration (cause : ConfigurationCause)
  | validation (cause : ValidationCause)
  | fatalTransport (cause : TransportCause)
  | stabilizationTimeout
deriving DecidableEq, Repr

/-- `FC`, the fault cause register (R24, R200). -/
inductive FaultCause where
  | none
  | configurationFault
  | validationAbsent
  | validationMiswired
  | fatalTransportFault
  | stabilizationTimeout
deriving DecidableEq, Repr

/-- The three delays (R213). -/
inductive DelayKind where
  | addr
  | retry
  | rom
deriving DecidableEq, Repr

/-- The three logical ports (R5): write-low, write-high, read. -/
inductive PortName where
  | writeLow
  | writeHigh
  | read
deriving DecidableEq, Repr

/-- The result of a register write (R47). -/
inductive WriteResult where
  | ok
  | ioFault
deriving DecidableEq, Repr

/-- The result of a register read (R47). -/
inductive ReadResult where
  | ok (v : Byte)
  | ioFault
deriving DecidableEq, Repr

/-- The events of the trace (R26). -/
inductive Event where
  | wr (chip reg val : Byte) (res : WriteResult)
  | rd (chip reg : Byte) (res : ReadResult)
  | delay (k : DelayKind)
  | progress (x : Nat)
  | report (r : Report)
  | out (bytes : List Byte)
  | rel
deriving DecidableEq, Repr

/-- A bus transaction the block can ask for: the rows of R76's list. -/
inductive Transaction where
  /-- the direction write of one port (CONFIG) -/
  | direction (P : PortName)
  /-- the low byte of an address to write-port 1 (SETADDR) -/
  | addrLow (p : Half)
  /-- the high bits of an address to write-port 2 (SETADDR) -/
  | addrHigh (p : Half)
  /-- a read of the read port's data register (RDBYTE) -/
  | read
deriving DecidableEq, Repr

/-- What the block does by itself between two transactions. -/
inductive Action where
  /-- `Delay(k)` (R214) -/
  | delay (k : DelayKind)
  /-- the pulse of BANKSW, if any (R114) -/
  | bankSwitch (m : BankSwitchMethod) (a : Nat)
  /-- `RC <- 0` (R130) -/
  | beginRead
  /-- `LB <- undefined ; MC <- 0 ; AC <- 0` (R132) -/
  | beginFast
  /-- the loop test of RDFAST, with the ceiling (R132, R134) -/
  | fastLoop
  /-- RDFAST's comparison of the sample just read (R132) -/
  | fastJudge
  /-- `S[i] <- D` (R150) -/
  | storeSample (i : Fin 16)
  /-- `(V, VC) <- Checks(S)` and its report (R150) -/
  | runChecks
  /-- SCAN enters `Configuring` and checks the configuration (R163) -/
  | beginScan
  /-- SCAN enters `Validating` (R164) -/
  | beginValidating
  /-- SCAN raises ValidationFault if CHKROM failed (R164) -/
  | verdict
  /-- SCAN enters `Scanning` (R165) -/
  | beginScanning
  /-- the loop test of SCAN, one iteration's plan or the end of the run (R166, R170) -/
  | scanLoop
  /-- `BUF <- BUF ++ [D]`, `PROGRESS`, `X <- X + 1` (R166, R168) -/
  | storeByte
deriving DecidableEq, Repr

/-- One piece of the operation in progress. -/
inductive Task where
  | bus (t : Transaction)
  | act (a : Action)
deriving DecidableEq, Repr

/-- The I2C register space (R43) as far as its contents are known: (location, byte) with the location
`chip * 256 + reg`, locations strictly rising. An unlisted location holds no specified value (R32). -/
abbrev Memory := List Host.Cell

/-- What the host can do to the block: issue a command word (R161), or reset it with a configuration
(R230: `CFG` changes only under reset). -/
inductive HostInput where
  | command (cw : CommandWord)
  | reset (cfg : Cfg)
deriving DecidableEq, Repr

/-- The environment's state the block changes and observes only through the bus (R27 to R32). -/
structure Env where
  /-- the direction and data registers of the expander chips (R27) -/
  regs : Memory
  /-- the bank the cartridge's latch selects; `none` while unspecified (R29, R32) -/
  latch : Option Nat
  /-- how many free values have been drawn; the model's own counter -/
  draws : Nat
deriving DecidableEq, Repr

/-- The state of the machine. -/
structure State where
  /-- the configuration record (R10) -/
  cfg : Cfg
  /-- `ST`, the sequencer state (R12) -/
  st : SeqState
  /-- `X`, the scan index (R13) -/
  x : Nat
  /-- `BUF`, the RomBuffer (R14) -/
  buf : List Byte
  /-- `OWN`, the block holds the bus handle (R15) -/
  own : Bool
  /-- `D`, the data register; `none` is R17's "no value" -/
  d : Option Byte
  /-- `RC`, the retry counter (R18) -/
  rc : Nat
  /-- `LB`, lastByte; `none` is R19's `undefined` -/
  lb : Option Byte
  /-- `MC`, matchCount (R20) -/
  mc : Nat
  /-- `AC`, the attempt counter (R21) -/
  ac : Nat
  /-- `S[0..15]`, the validator's sample; `none` is R22's "no value" -/
  sample : Vector (Option Byte) 16
  /-- `V`; the outer `none` is R23's "no value" -/
  v : Option Bool
  /-- `VC`; the outer `none` is R23's "no value", the inner one the cause `None` -/
  vc : Option (Option ValidationCause)
  /-- `FC`, the fault cause register (R24) -/
  fc : FaultCause
  /-- `TR`, the trace, oldest event first (R26) -/
  tr : List Event
  /-- the environment (R27 to R32) -/
  env : Env
  /-- the model's own: what remains of the operation in progress (R161); empty between commands -/
  work : List Task
  /-- the model's own: what the host will do, next first (R161, R230); no queue of the block -/
  inputs : List HostInput
  /-- the model's own: the bus collaborator's coming answers, next one first (R47) -/
  replies : List Reply
deriving DecidableEq, Repr

/-- A register that holds no value until an operation has written it (R31). -/
inductive ValuelessRegister where
  | d
  | s
  | v
  | vc
deriving DecidableEq, Repr

/-- Why the machine stops with a fault. The block's own faults (R200) are no such stop: they are next
states with `ST = Aborted`. -/
inductive Fault where
  /-- an operation used a register that holds no value. Raised by the operations that consume `D`, `S`,
  `V` or `VC`, as R17 and R31 demand ("a fault of the model, never a zero"). Safe: the machine stops
  and no value is invented; no operation started in a reset machine reaches it. -/
  | noValue (r : ValuelessRegister)
deriving DecidableEq, Repr

/-- Why a command has no meaning. -/
inductive Refusal where
  /-- an instruction whose arm is not written; raised by exec's arms only. Safe. -/
  | notModelled (mnemonic : String)
  /-- a reserved command word, raised by the step (R80: the word "is refused"). Safe: the spec gives it
  no meaning. -/
  | reservedWord (why : ReservedReason)
  /-- a command issued in a state other than `Idle`, raised by every command (R161: "every command is
  refused as a reserved word is"). Safe. -/
  | notIdle (st : SeqState)
  /-- a command issued while another is in progress, raised by every command (R161: no overlap of
  commands). Safe: the step never issues one then. -/
  | busy
deriving DecidableEq, Repr

/-- The environment before any transaction: every register and the latch unspecified (R32). -/
def Env.unspecified : Env where
  regs := []
  latch := none
  draws := 0

/-- The block's state after reset (R31), with the configuration the collaborator presents, an
environment that reset does not touch, and what the host and the bus will still supply (R230). -/
def State.resetWith (cfg : Cfg) (env : Env) (inputs : List HostInput) (replies : List Reply) :
    State where
  cfg := cfg
  st := .idle
  x := 0
  buf := []
  own := true
  d := none
  rc := 0
  lb := none
  mc := 0
  ac := 0
  sample := Vector.replicate 16 none
  v := none
  vc := none
  fc := .none
  tr := []
  env := env
  work := []
  inputs := inputs
  replies := replies

/-- The machine right after reset (R31, R230): the host has done nothing and the bus has answered
nothing yet. -/
def State.reset : State := State.resetWith Config.presented Env.unspecified [] []

end Sys2Proof.Machine
end

