-- ==== Sys2Proof/Machine/Operands.lean ====
section
/-! DEFINITION. The constants of R5, the pure functions of the operands (address split, translation,
method resolution, hotspots, trigger: R44, R46, R58, R73 to R75, R110 to R113), and the building of a
configuration (R81). None of them reads or writes state (R79). -/

namespace Sys2Proof.Machine

open Sys2Proof

/-- `RomOffset`, the first physical address of the ROM window (R5, R42). -/
def romOffset : Nat := 0x1000

/-- `BankWindow`, the size of the window (R5, R42). -/
def bankWindow : Nat := 4096

/-- `SampleLen`, the bytes the validator samples (R5, R150). -/
def sampleLen : Nat := 16

/-- `StableCount`, the matches the stabilizing reader needs (R5, conflict C2). -/
def stableCount : Nat := 10

/-- `lo(p) = p[7:0]`, the byte for write-port 1 (R74). -/
def lowByte (p : Half) : Byte := p.extractLsb' 0 8

/-- `hi(p) = p[15:8]`, the byte for write-port 2 (R74). -/
def highByte (p : Half) : Byte := p.extractLsb' 8 8

/-- The translation to a physical address (R46). Its domain is `a >= RomOffset`; below it neither this
function nor `bankNumber` has a value (R116). -/
def realAddress (a : Nat) (_h : romOffset ≤ a) : Nat := (a - romOffset) % bankWindow + romOffset

/-- The 4 KB bank a logical address with offset lies in (R46). -/
def bankNumber (a : Nat) (_h : romOffset ≤ a) : Nat := (a - romOffset) / bankWindow

/-- `Hotspots(m)`: position `i` holds the hotspot that selects bank `i` (R111, R29). -/
def hotspots : BankSwitchMethod → List Nat
  | .none => []
  | .f8 => [0x1FF8, 0x1FF9]
  | .f6 => [0x1FF6, 0x1FF7, 0x1FF8, 0x1FF9]

/-- `ResolveMethod(override, romSize)` (R110): sizes are tested for equality (D18). -/
def resolveMethod (override : MethodOverride) (romSize : Nat) : BankSwitchMethod :=
  match override with
  | .f8 => .f8
  | .f6 => .f6
  | .auto => if romSize = 8192 then .f8 else if romSize = 16384 then .f6 else .none

/-- `M`, the effective method; a function of `CFG` and not stored (R11). -/
def effectiveMethod (cfg : Cfg) : BankSwitchMethod := resolveMethod cfg.methodOverride cfg.romSize

/-- `BanksImplied(romSize) = ceil(romSize / 4096)` (R112). -/
def banksImplied (romSize : Nat) : Nat := (romSize + bankWindow - 1) / bankWindow

/-- The pair (size, method) is consistent (R112, R204). -/
def consistent (romSize : Nat) (m : BankSwitchMethod) : Bool :=
  m == .none || decide (banksImplied romSize ≤ (hotspots m).length)

/-- `Trigger(a, m)` (R113). `r - 1` never underflows, because `r >= 0x1000` (R58 (e)). -/
def trigger (a : Nat) (m : BankSwitchMethod) (h : romOffset ≤ a) : Bool :=
  match m with
  | .none => false
  | m => realAddress a h == romOffset || (hotspots m).contains (realAddress a h - 1)

/-- `IodirOf(bank)`, the number of a port's direction register (R44). -/
def iodirOf : BankIndex → Byte
  | .mcp23017A => 0x00#8
  | .mcp23017B => 0x01#8
  | .mcp23008 => 0x00#8

/-- `GpioOf(bank)`, the number of a port's data register (R44). -/
def gpioOf : BankIndex → Byte
  | .mcp23017A => 0x12#8
  | .mcp23017B => 0x13#8
  | .mcp23008 => 0x09#8

/-- The location of `chip:reg` in the I2C register space (R43). -/
def location (chip reg : Byte) : Nat := chip.toNat * 256 + reg.toNat

/-- `IODIRREG(P)` (R44). -/
def iodirReg (P : Port) : Nat := location P.chip (iodirOf P.bank)

/-- `GPIOREG(P)` (R44). -/
def gpioReg (P : Port) : Nat := location P.chip (gpioOf P.bank)

/-- The port a name stands for in a configuration (R5). -/
def portOf (cfg : Cfg) : PortName → Port
  | .writeLow => cfg.portWL
  | .writeHigh => cfg.portWH
  | .read => cfg.portRD

/-- The direction value of a port: `0x00` all-output, `0xFF` all-input (R75). -/
def directionOf : PortName → Byte
  | .writeLow => 0x00#8
  | .writeHigh => 0x00#8
  | .read => 0xFF#8

/-- The configured duration of a delay (R213). -/
def durationOf (cfg : Cfg) : DelayKind → Duration
  | .addr => cfg.addrDelay
  | .retry => cfg.retryDelay
  | .rom => cfg.romDelay

/-- A port bank index as a number: a fourth value does not exist (R77, R81). -/
def bankIndexOfNat : Nat → Option BankIndex
  | 0 => some .mcp23017A
  | 1 => some .mcp23017B
  | 2 => some .mcp23008
  | _ => none

/-- `CFG.MethodOverride` as a number: 3 is reserved (R77, R81). -/
def overrideOfNat : Nat → Option MethodOverride
  | 0 => some .auto
  | 1 => some .f8
  | 2 => some .f6
  | _ => none

/-- A port of a raw configuration. -/
def portOfRaw (raw : Byte × Nat) : Option Port := (bankIndexOfNat raw.2).map fun bank => ⟨raw.1, bank⟩

/-- The configuration collaborator builds `CFG`; `none` is its ConfigurationFault, raised before reset
is left and not by the block (R81). -/
def buildCfg (raw : RawCfg) : Option Cfg :=
  match overrideOfNat raw.methodOverride, portOfRaw raw.portWL, portOfRaw raw.portWH,
      portOfRaw raw.portRD with
  | some override, some wl, some wh, some rd =>
    let cfg : Cfg :=
      { romSize := raw.romSize, methodOverride := override, addrDelay := raw.addrDelay,
        retryDelay := raw.retryDelay, romDelay := raw.romDelay, maxRetries := raw.maxRetries,
        portWL := wl, portWH := wh, portRD := rd, busSel := raw.busSel,
        stabilize := raw.stabilize, checkAllOnes := raw.checkAllOnes,
        stabilizeCeiling := raw.stabilizeCeiling }
    if cfg.legal then some cfg else none
  | _, _, _, _ => none

end Sys2Proof.Machine
end

