-- ==== Sys2Proof/Machine/Flags.lean ====
section
/-! DEFINITION. The status values the block computes: the validator's verdict `(V, VC)` (R151), the
fault cause a fault leaves in `FC` (R200), and the numeric codes of `ST` and `FC` (R12, R200). The block
has no condition codes (R25). -/

namespace Sys2Proof.Machine

open Sys2Proof

/-- Adjacent, non-overlapping pairs are equal in every pair (R151). -/
def allPairsEqual : List Byte → Bool
  | a :: b :: rest => a == b && allPairsEqual rest
  | _ => true

/-- `Checks(S)` on a sample that is complete (R151): the first check that fails decides the cause. The
result is the cause; `none` is a pass. -/
def checks (checkAllOnes : Bool) (sample : List Byte) : Option ValidationCause :=
  if sample.all (· == 0x00#8) then some .absent
  else if checkAllOnes && sample.all (· == 0xFF#8) then some .miswired
  else if allPairsEqual sample then some .miswired
  else none

/-- The bytes of `S`, if all sixteen hold a value (R22). -/
def sampleBytes (sample : Vector (Option Byte) 16) : Option (List Byte) := sample.toList.mapM id

/-- The value of `FC` for a fault (R200). -/
def Report.faultCause : Report → FaultCause
  | .configuration _ => .configurationFault
  | .validation .absent => .validationAbsent
  | .validation .miswired => .validationMiswired
  | .fatalTransport _ => .fatalTransportFault
  | .stabilizationTimeout => .stabilizationTimeout

/-- The code of a sequencer state (R12). -/
def SeqState.code : SeqState → Nat
  | .idle => 0
  | .configuring => 1
  | .validating => 2
  | .scanning => 3
  | .finalized => 4
  | .aborted => 5

/-- The code of a fault cause (R200). -/
def FaultCause.code : FaultCause → Nat
  | .none => 0
  | .configurationFault => 1
  | .validationAbsent => 2
  | .validationMiswired => 3
  | .fatalTransportFault => 4
  | .stabilizationTimeout => 5

end Sys2Proof.Machine
end

