-- ==== Sys2Proof/Machine/Ops.lean ====
section
/-! DEFINITION. The named operations over the machine: the I2C register space and the environment
behind it (R27 to R29, R43), the trace (R26), the two bus primitives (R47), delays (R214), fault entry
(R207), which is the block's taking of an exception, and reset (R230). There is no return from a fault
(R210). -/

namespace Sys2Proof.Machine

open Sys2Proof

/-! ### The I2C register space -/

/-- The specified contents of a location; `none` where nothing specifies it (R32). -/
def Memory.read : Memory → Nat → Option Byte
  | [], _ => none
  | (a, b) :: rest, loc => if a = loc then some b else Memory.read rest loc

/-- A write of one byte (R43, R50), keeping the locations strictly rising. -/
def Memory.write : Memory → Nat → Byte → Memory
  | [], loc, v => [(loc, v)]
  | (a, b) :: rest, loc, v =>
    if loc < a then (loc, v) :: (a, b) :: rest
    else if loc = a then (loc, v) :: rest
    else (a, b) :: Memory.write rest loc v

/-- The canonical form: locations strictly rising, inside the space of `chip:reg` pairs (R43). An
unlisted location reads as no byte, so no entry can repeat what an unlisted one reads as. -/
def Memory.wf : Memory → Bool
  | [] => true
  | [(a, _)] => decide (a < 65536)
  | (a, _) :: (a', b') :: rest => decide (a < a') && Memory.wf ((a', b') :: rest)

/-! ### The environment -/

/-- The address lines `A` the two write ports drive (R28, R103): `{high port [4:0], low port [7:0]}` once
both ports are outputs; unspecified before that (R32, R232). -/
def addressLines (cfg : Cfg) (regs : Memory) : Option Lines :=
  if Memory.read regs (iodirReg cfg.portWL) = some (directionOf .writeLow) ∧
      Memory.read regs (iodirReg cfg.portWH) = some (directionOf .writeHigh) then
    match Memory.read regs (gpioReg cfg.portWH), Memory.read regs (gpioReg cfg.portWL) with
    | some high, some low => some (high.extractLsb' 0 5 ++ low)
    | _, _ => none
  else none

/-- The bank a hotspot address selects on a cartridge of scheme `m`: the hotspot at position `i` selects
bank `i` (R29). -/
def bankSelectedBy (m : BankSwitchMethod) (address : Nat) : Option Nat := (hotspots m).idxOf? address

/-- The cartridge's latch when the lines go from `before` to `after` (R29, R30): a hotspot of the
cartridge's scheme that appears selects its bank if the cartridge latches (a free value, N8); any other
address, and one that stood on the lines already (R160 (d)), leaves the latch; unspecified lines leave it
unspecified. -/
def latchAfter (before after : Option Lines) (latch : Option Nat) (draw : Nat) : Option Nat :=
  match after with
  | none => none
  | some address =>
    if before = some address then latch
    else
      match bankSelectedBy Config.cartridgeScheme address.toNat with
      | some bank => if Config.latches draw then some bank else latch
      | none => latch

/-- A register of an expander chip takes a value, and the cartridge sees the lines it then drives
(R28 to R30, R236). -/
def Env.write (cfg : Cfg) (e : Env) (loc : Nat) (v : Byte) : Env :=
  let regs := Memory.write e.regs loc v
  let before := addressLines cfg e.regs
  let after := addressLines cfg regs
  { regs := regs
    latch := latchAfter before after e.latch e.draws
    draws := if after = before then e.draws else e.draws + 1 }

/-- The environment after a write was answered (R47): an `Ok` write changes the register; a faulted one
changes it or not, as the answer says (U6). -/
def Env.answered (cfg : Cfg) (e : Env) (loc : Nat) (v : Byte) : Reply → Env
  | .ok _ => e.write cfg loc v
  | .ioFault landed => if landed then e.write cfg loc v else e

/-! ### Named updates of the state -/

/-- `Emit(e)` (R26). -/
def State.emit (s : State) (e : Event) : State := { s with tr := s.tr ++ [e] }

/-- `Delay(k)`: an event and nothing else (R214). -/
def State.delay (s : State) (k : DelayKind) : State := s.emit (.delay k)

/-- Fault entry, `raise F(info)` (R207). The operation in progress does nothing more. CHKROM has already
reported a ValidationFault (R206). -/
def State.raise (s : State) (r : Report) : State :=
  let entered : State := { s with fc := r.faultCause, st := .aborted, work := [] }
  let reported : State :=
    match r with
    | .validation _ => entered
    | r => entered.emit (.report r)
  { reported with own := false }.emit .rel

/-- Reset (R230): the block takes its reset state and the configuration now presented; the environment
keeps the state it had, and no transaction happens. -/
def State.applyReset (s : State) (cfg : Cfg) : State :=
  State.resetWith cfg s.env s.inputs s.replies

/-! ### Bus transactions -/

/-- The port a transaction goes to (R76). -/
def Transaction.port : Transaction → PortName
  | .direction P => P
  | .addrLow _ => .writeLow
  | .addrHigh _ => .writeHigh
  | .read => .read

/-- The register number of a transaction (R76). -/
def Transaction.reg (cfg : Cfg) (t : Transaction) : Byte :=
  let bank := (portOf cfg t.port).bank
  match t with
  | .direction _ => iodirOf bank
  | .addrLow _ => gpioOf bank
  | .addrHigh _ => gpioOf bank
  | .read => gpioOf bank

/-- The bus address of a transaction (R76). -/
def Transaction.chip (cfg : Cfg) (t : Transaction) : Byte := (portOf cfg t.port).chip

/-- The value byte of a write transaction; a read carries none (R76). -/
def Transaction.value? : Transaction → Option Byte
  | .direction P => some (directionOf P)
  | .addrLow p => some (lowByte p)
  | .addrHigh p => some (highByte p)
  | .read => none

/-- The result the trace records of an answered write (R47). -/
def writeResult : Reply → WriteResult
  | .ok _ => .ok
  | .ioFault _ => .ioFault

/-- The effect of one answered `MemWrite` on the trace and the environment (R47). -/
def State.writeRegister (s : State) (chip reg val : Byte) (reply : Reply) : State :=
  { s with env := s.env.answered s.cfg (location chip reg) val reply }.emit
    (.wr chip reg val (writeResult reply))

/-- A `MemWrite` of CONFIG or SETADDR once it is answered: a write that returns `IoFault` is fatal at
once (R202, R100, R160); `rest` is what the operation does next. -/
def State.finishWrite (s : State) (chip reg val : Byte) (rest : List Task) (reply : Reply) : State :=
  let written := s.writeRegister chip reg val reply
  match reply with
  | .ok _ => { written with work := rest }
  | .ioFault _ => written.raise (.fatalTransport .write)

/-- The read attempt of RDBYTE's loop once it is answered (R130): the byte goes to `D`; on `IoFault` the
block waits and tries again while `RC < CFG.MaxRetries`, and the fault is fatal after that. -/
def State.finishRead (s : State) (chip reg : Byte) (rest : List Task) (reply : Reply) : State :=
  match reply with
  | .ok v => { s.emit (.rd chip reg (.ok v)) with d := some v, work := rest }
  | .ioFault _ =>
    let failed := s.emit (.rd chip reg .ioFault)
    if s.rc < s.cfg.maxRetries then
      { failed.delay .retry with rc := s.rc + 1, work := .bus .read :: rest }
    else failed.raise (.fatalTransport .read)

/-- The state once the transaction `t`, with `rest` to follow, is answered (R47). -/
def State.answer (s : State) (t : Transaction) (rest : List Task) (reply : Reply) : State :=
  let chip := t.chip s.cfg
  let reg := t.reg s.cfg
  match t.value? with
  | some val => s.finishWrite chip reg val rest reply
  | none => s.finishRead chip reg rest reply

end Sys2Proof.Machine
end

