-- ==== Sys2Proof/Machine/Run.lean ====
section
/-! DEFINITION. How an operation is performed: its plan is a list of tasks, the plans of the operations
it contains standing in it as they are (R78, R83); the block performs its own actions until the plan asks
for a bus transaction, and then does nothing until the bus collaborator answers (R47, R52). -/

namespace Sys2Proof.Machine

open Sys2Proof

/-! ### The plans of the operations -/

/-- CONFIG's three direction writes, in the order write-low, write-high, read (R160). -/
def configPlan : List Task :=
  [.bus (.direction .writeLow), .bus (.direction .writeHigh), .bus (.direction .read)]

/-- SETADDR's two writes, low byte first (R100). -/
def setAddressPlan (p : Half) : List Task := [.bus (.addrLow p), .bus (.addrHigh p)]

/-- SETTLE (R101). -/
def settlePlan : List Task := [.act (.delay .addr)]

/-- RDBYTE (R130). -/
def readBytePlan : List Task := [.act .beginRead, .bus .read]

/-- RDFAST (R132). -/
def readByteFastPlan : List Task := [.act .beginFast, .act .fastLoop]

/-- The probe of one sample byte (R150). -/
def probePlan (i : Fin 16) : List Task :=
  setAddressPlan (BitVec.ofNat 16 (romOffset + i.val)) ++ settlePlan ++ readBytePlan ++
    [.act (.storeSample i)]

/-- CHKROM (R150): sixteen probes in ascending order, then the checks. -/
def checkRomPlan : List Task := (List.finRange 16).flatMap probePlan ++ [.act .runChecks]

/-- BANKSW (R114, R116): the hotspot's SETADDR and SETTLE, nothing, or the fault to raise. -/
def bankSwitch (m : BankSwitchMethod) (a : Nat) : Except Report (List Task) :=
  if m = .none then .ok []
  else if h : romOffset ≤ a then
    if trigger a m h then
      match (hotspots m)[bankNumber a h]? with
      | some hotspot => .ok (setAddressPlan (BitVec.ofNat 16 hotspot) ++ settlePlan)
      | none => .error (.configuration .bank)
    else .ok []
  else .error (.configuration .operand)

/-- BANKSW as a plan (R114). -/
def bankSwitchPlan (m : BankSwitchMethod) (a : Nat) : List Task := [.act (.bankSwitch m a)]

/-- The read of the scan: RDFAST or RDBYTE, as `CFG.Stabilize` says (R166). -/
def fetchPlan (cfg : Cfg) : List Task := if cfg.stabilize then readByteFastPlan else readBytePlan

/-- What the scan does for offset `x` after its BANKSW (R166): SETADDR of the target, SETTLE, the read,
and the storing of the byte. -/
def targetPlan (cfg : Cfg) (x : Nat) : List Task :=
  setAddressPlan (BitVec.ofNat 16 (realAddress (x + romOffset) (Nat.le_add_left romOffset x))) ++
    settlePlan ++ fetchPlan cfg ++ [.act .storeByte]

/-- SCAN (R162). -/
def scanPlan : List Task :=
  [.act .beginScan] ++ configPlan ++ [.act .beginValidating] ++ checkRomPlan ++
    [.act .verdict, .act .beginScanning, .act .scanLoop]

/-! ### The block's own actions -/

/-- What one action leads to. -/
inductive Progress where
  /-- it is done, and the plan goes on -/
  | go (s : State)
  /-- these tasks come before the rest of the plan; the first of them waits for the bus -/
  | wait (tasks : List Task) (s : State)
  /-- the operation is over, by a fault or by the end of the run -/
  | stop (s : State)
  /-- a register without a value was used (R31) -/
  | noValue (r : ValuelessRegister)
deriving DecidableEq, Repr

/-- RDFAST's loop test (R132): with `MC = StableCount` the read is over; with the ceiling reached it
times out (R134); otherwise one RDBYTE follows and its sample is judged. -/
def performFastLoop (s : State) : Progress :=
  if s.mc < stableCount then
    if s.cfg.stabilizeCeiling = some s.ac then .stop (s.raise .stabilizationTimeout)
    else .wait [.bus .read, .act .fastJudge, .act .fastLoop] { s with rc := 0 }
  else .go s

/-- RDFAST's comparison of a sample with `lastByte` (R132): a match counts; a difference starts the count
anew and, unless the sample is the first, is followed by `Delay(Rom)`. -/
def performFastJudge (s : State) : Progress :=
  match s.d with
  | none => .noValue .d
  | some v =>
    let counted : State := { s with ac := s.ac + 1 }
    if s.lb = some v then .go { counted with mc := s.mc + 1 }
    else
      let restarted : State := { counted with mc := 0, lb := some v }
      .go (if s.lb.isSome then restarted.delay .rom else restarted)

/-- `S[i] <- RDBYTE()` (R150). -/
def performStoreSample (i : Fin 16) (s : State) : Progress :=
  match s.d with
  | none => .noValue .d
  | some v => .go { s with sample := s.sample.set i.val (some v) }

/-- The checks of CHKROM and the report of a failure (R150, R151). -/
def performChecks (s : State) : Progress :=
  match sampleBytes s.sample with
  | none => .noValue .s
  | some bytes =>
    match checks s.cfg.checkAllOnes bytes with
    | none => .go { s with v := some true, vc := some none }
    | some cause =>
      .go ({ s with v := some false, vc := some (some cause) }.emit (.report (.validation cause)))

/-- SCAN enters `Configuring` and checks the ROM size against the method, before any bus activity (R163,
R204). -/
def performBeginScan (s : State) : Progress :=
  let entered : State := { s with st := .configuring }
  if consistent s.cfg.romSize (effectiveMethod s.cfg) then .go entered
  else .stop (entered.raise (.configuration .size))

/-- SCAN raises ValidationFault, with the cause in `VC`, when CHKROM returned false (R164, R205). -/
def performVerdict (s : State) : Progress :=
  match s.v with
  | none => .noValue .v
  | some true => .go s
  | some false =>
    match s.vc with
    | some (some cause) => .stop (s.raise (.validation cause))
    | _ => .noValue .vc

/-- The end of the run (R170). -/
def State.finalize (s : State) : State :=
  { { s with st := .finalized }.emit (.out s.buf) with own := false, work := [] }.emit .rel

/-- SCAN's loop test (R166): one iteration's plan, or the end of the run (R170). -/
def performScanLoop (s : State) : Progress :=
  if s.x < s.cfg.romSize then
    match bankSwitch (effectiveMethod s.cfg) (s.x + romOffset) with
    | .ok pulse => .wait (pulse ++ targetPlan s.cfg s.x ++ [.act .scanLoop]) s
    | .error r => .stop (s.raise r)
  else .stop s.finalize

/-- The byte read is appended to `BUF`, progress is reported, and `X` advances (R166, R168). -/
def performStoreByte (s : State) : Progress :=
  match s.d with
  | none => .noValue .d
  | some v => .go { { s with buf := s.buf ++ [v] }.emit (.progress s.x) with x := s.x + 1 }

/-- One action of the block. -/
def perform (a : Action) (s : State) : Progress :=
  match a with
  | .delay k => .go (s.delay k)
  | .bankSwitch m a =>
    match bankSwitch m a with
    | .ok [] => .go s
    | .ok pulse => .wait pulse s
    | .error r => .stop (s.raise r)
  | .beginRead => .go { s with rc := 0 }
  | .beginFast => .go { s with lb := none, mc := 0, ac := 0 }
  | .fastLoop => performFastLoop s
  | .fastJudge => performFastJudge s
  | .storeSample i => performStoreSample i s
  | .runChecks => performChecks s
  | .beginScan => performBeginScan s
  | .beginValidating => .go { s with st := .validating }
  | .verdict => performVerdict s
  | .beginScanning => .go { s with st := .scanning, x := 0, buf := [] }
  | .scanLoop => performScanLoop s
  | .storeByte => performStoreByte s

/-! ### Running -/

/-- One outcome, and after it what is done with the next state it answers. -/
def andThen (o : Host.Outcome State Fault Refusal) (f : State → Host.Outcome State Fault Refusal) :
    Host.Outcome State Fault Refusal :=
  match o with
  | .next s => f s
  | .fault r => .fault r
  | .refused r => .refused r

/-- The block performs the actions of a plan until the plan is done or asks for a transaction. -/
def advance : List Task → State → Host.Outcome State Fault Refusal
  | [], s => .next { s with work := [] }
  | .bus t :: rest, s => .next { s with work := .bus t :: rest }
  | .act a :: rest, s =>
    match perform a s with
    | .go s' => advance rest s'
    | .wait tasks s' => .next { s' with work := tasks ++ rest }
    | .stop s' => .next { s' with work := [] }
    | .noValue r => .fault (.noValue r)

/-- The bus answers the transactions of the plan one after another, and the block goes on after each
(R52). The run ends when the plan is done, or when there is no answer yet: the block then waits (R47).
Answers that are not used stay for later transactions. -/
def run : List Reply → State → Host.Outcome State Fault Refusal
  | [], s => .next { s with replies := [] }
  | reply :: replies, s =>
    match s.work with
    | .bus t :: rest =>
      let answered := s.answer t rest reply
      andThen (advance answered.work answered) (run replies)
    | _ => .next { s with replies := reply :: replies }

/-- The operation in progress goes on as far as the bus has answered. -/
def drive (s : State) : Host.Outcome State Fault Refusal :=
  andThen (advance s.work s) fun s' => run s'.replies s'

/-- Command acceptance (R161): a command is accepted only in `Idle` and only when no other is in
progress; it is performed to its end, as far as the bus has answered. -/
def issue (plan : List Task) (s : State) : Host.Outcome State Fault Refusal :=
  if s.work ≠ [] then .refused .busy
  else if s.st ≠ .idle then .refused (.notIdle s.st)
  else drive { s with work := plan }

/-- The bus collaborator answers the transaction the block waits for: with the next answer placed in the
state, or, where none is placed, with a free value (R47, U16, U17). -/
def State.withBusAnswer (s : State) : State :=
  match s.replies with
  | [] =>
    { s with replies := [Config.busReply s.env.draws], env := { s.env with draws := s.env.draws + 1 } }
  | _ :: _ => s

end Sys2Proof.Machine
end

