-- ==== Sys2Proof/Machine/BankSwitch.lean ====
section
/-! DEFINITION. The BankSwitchDetector (`41_bank_switch.md`): BANKSW, one meaning per method. -/

namespace Sys2Proof.Machine

open Sys2Proof

/-- BANKSW None, `a` (R114): nothing, for any `a`. -/
def execBankswNone (a : Nat) (s : State) : Host.Outcome State Fault Refusal :=
  issue (bankSwitchPlan .none a) s

/-- BANKSW F8, `a` (R114, R116). -/
def execBankswF8 (a : Nat) (s : State) : Host.Outcome State Fault Refusal :=
  issue (bankSwitchPlan .f8 a) s

/-- BANKSW F6, `a` (R114, R116). -/
def execBankswF6 (a : Nat) (s : State) : Host.Outcome State Fault Refusal :=
  issue (bankSwitchPlan .f6 a) s

end Sys2Proof.Machine
end

