-- ==== Sys2Proof/Machine/Encoder.lean ====
section
/-! DEFINITION. The AddressEncoder (`40_address_encoder.md`): SETADDR and SETTLE. -/

namespace Sys2Proof.Machine

open Sys2Proof

/-- SETADDR `p` (R100): the low byte to write-port 1, then the high bits, unmasked, to write-port 2. -/
def execSetaddr (p : Half) (s : State) : Host.Outcome State Fault Refusal := issue (setAddressPlan p) s

/-- SETTLE (R101): one `DELAY(Addr)`. -/
def execSettle (s : State) : Host.Outcome State Fault Refusal := issue settlePlan s

end Sys2Proof.Machine
end

