-- ==== Sys2Proof/Machine/Readers.lean ====
section
/-! DEFINITION. The readers (`42_readers.md`): RDBYTE and RDFAST. The value returned stands in `D` (R17),
and for RDFAST in `LB` as well (R132). -/

namespace Sys2Proof.Machine

open Sys2Proof

/-- RDBYTE (R130). -/
def execRdbyte (s : State) : Host.Outcome State Fault Refusal := issue readBytePlan s

/-- RDFAST (R132): without a ceiling it may stay in progress for ever (R135). -/
def execRdfast (s : State) : Host.Outcome State Fault Refusal := issue readByteFastPlan s

end Sys2Proof.Machine
end

