-- ==== Sys2Proof/Machine/Scanner.lean ====
section
/-! DEFINITION. The RomScanner (`44_scanner.md`): CONFIG and SCAN. -/

namespace Sys2Proof.Machine

open Sys2Proof

/-- CONFIG (R160). -/
def execConfig (s : State) : Host.Outcome State Fault Refusal := issue configPlan s

/-- SCAN (R162). -/
def execScan (s : State) : Host.Outcome State Fault Refusal := issue scanPlan s

end Sys2Proof.Machine
end

