-- ==== Sys2Proof/Machine/Validator.lean ====
section
/-! DEFINITION. The RomValidator (`43_validator.md`): CHKROM. Its result stands in `V` and `VC`. -/

namespace Sys2Proof.Machine

open Sys2Proof

/-- CHKROM (R150): issued on its own it reports a failure and raises no fault. -/
def execChkrom (s : State) : Host.Outcome State Fault Refusal := issue checkRomPlan s

end Sys2Proof.Machine
end

