-- ==== Sys2Proof/Machine/Dispatch.lean ====
section
/-! DEFINITION. One arm per command. -/

namespace Sys2Proof.Machine

open Sys2Proof

def exec (i : Instr) (s : State) : Host.Outcome State Fault Refusal :=
  match i with
  | .config => Sys2Proof.Machine.execConfig s
  | .setaddr p => Sys2Proof.Machine.execSetaddr p s
  | .bankswNone a => Sys2Proof.Machine.execBankswNone a s
  | .bankswF8 a => Sys2Proof.Machine.execBankswF8 a s
  | .bankswF6 a => Sys2Proof.Machine.execBankswF6 a s
  | .rdbyte => Sys2Proof.Machine.execRdbyte s
  | .rdfast => Sys2Proof.Machine.execRdfast s
  | .chkrom => Sys2Proof.Machine.execChkrom s
  | .scan => Sys2Proof.Machine.execScan s
  | .settle => Sys2Proof.Machine.execSettle s

end Sys2Proof.Machine
end

