-- ==== Sys2Proof/Machine/Fetch.lean ====
section
/-! DEFINITION. How the block takes its next command. The block fetches no instruction from any memory
(R57): command words come from the host. -/

namespace Sys2Proof.Machine

open Sys2Proof

/-- The host issues a command word as its next input. -/
def State.putCommand (s : State) (cw : CommandWord) : State :=
  { s with inputs := .command cw :: s.inputs }

/-- One step when the host does not reset the block. While a command is in progress the bus collaborator
answers and the command goes on (R52, R161). Otherwise the next command word is decoded and performed
(R79); a reserved word is refused (R80); with no command to come the block rests. -/
def commandStep (s : State) : Host.Outcome State Fault Refusal :=
  match s.work with
  | _ :: _ => drive s.withBusAnswer
  | [] =>
    match s.inputs with
    | .command cw :: rest =>
      match decode cw with
      | .command i => exec i { s with inputs := rest }
      | .reserved why => .refused (.reservedWord why)
    | _ => .next s

end Sys2Proof.Machine
end

