-- ==== Sys2Proof/Machine/Step.lean ====
section
/-! DEFINITION. One step of the machine. -/

namespace Sys2Proof.Machine

open Sys2Proof

/-- One step. A reset is taken in every state, also while a command is in progress: it is the only exit
from the terminal states and from a RDFAST that never returns (R135, R230). -/
def step (s : State) : Host.Outcome State Fault Refusal :=
  match s.inputs with
  | .reset cfg :: rest => .next (State.applyReset { s with inputs := rest } cfg)
  | _ => commandStep s

/-- The state with a command word put first among the host's inputs. A command is always one 32-bit word
(R71), whatever `_nbits`. -/
def State.withFetchWord (s : State) (_nbits w : Nat) : State := s.putCommand (BitVec.ofNat 32 w)

end Sys2Proof.Machine
end

