-- ==== Sys2Proof/Safety.lean ====
section
/-! DEFINITION. What counts as a safe run, in the terms claims use: the ends of a run (R241), the
invariant of the machine (`MachineInv`), the settling obligation on the trace and on the work that remains
(R234), the transactions the block may emit (R76), the transitions of `ST` (R169), the samples a read takes,
the traces the rules give the operations (R100 to R172), the states they lead to, and the mock bus of
R171. -/

namespace Sys2Proof.Machine

open Sys2Proof

/-! ### States -/

/-- The block accepts a command (R161). -/
abbrev Accepting (s : State) : Prop := s.work = [] ∧ s.st = .idle

/-- The block waits for the bus collaborator and has no answer (R47). -/
abbrev Waiting (s : State) : Prop := (∃ t rest, s.work = .bus t :: rest) ∧ s.replies = []

/-- The host resets the block in the next step (R230). -/
abbrev ResetComes (s : State) : Prop := ∃ cfg rest, s.inputs = .reset cfg :: rest

/-- `Finalized` and `Aborted` are terminal (R12). -/
def SeqState.terminal : SeqState → Bool
  | .finalized => true
  | .aborted => true
  | _ => false

/-- The good end of a run (R241), as far as the block's registers tell it. -/
def goodEnd (s : State) : Bool :=
  s.st == .finalized && !s.own && s.fc == .none && s.buf.length == s.cfg.romSize

/-- The bad end of a run (R241). -/
def badEnd (s : State) : Bool := s.st == .aborted && !s.own && s.fc != .none

/-- One transition of `ST` (R169): the complete relation. -/
def transition : SeqState → SeqState → Bool
  | .idle, .idle => true
  | .idle, .aborted => true
  | .idle, .configuring => true
  | .configuring, .aborted => true
  | .configuring, .validating => true
  | .validating, .aborted => true
  | .validating, .scanning => true
  | .scanning, .scanning => true
  | .scanning, .aborted => true
  | .scanning, .finalized => true
  | .finalized, .finalized => true
  | .aborted, .aborted => true
  | _, _ => false

/-! ### The invariant -/

/-- Which registers hold a value: `D`; the first `samples` elements of `S`; `V` with its cause. -/
structure Held where
  d : Bool
  samples : Nat
  v : Bool
deriving DecidableEq, Repr

/-- How many leading elements of a sample hold a value. -/
def leadingValues : List (Option Byte) → Nat
  | some _ :: rest => leadingValues rest + 1
  | _ => 0

/-- `V` holds a value, and if it is 0 `VC` holds a cause (R23). -/
def verdictHeld (v : Option Bool) (vc : Option (Option ValidationCause)) : Bool :=
  match v, vc with
  | some true, _ => true
  | some false, some (some _) => true
  | _, _ => false

def held (s : State) : Held :=
  { d := s.d.isSome, samples := leadingValues s.sample.toList, v := verdictHeld s.v s.vc }

/-- No sample of a stabilizing read is still to be judged in these tasks. -/
def noJudge (tasks : List Task) : Bool := !tasks.contains (.act .fastJudge)

/-- The tasks are what may remain of an operation in sequencer state `st` (R78, R162, R169), and each
register they consume holds a value by then (R31). -/
def fits : SeqState → Held → List Task → Bool
  | st, _, [] => st == .idle || st.terminal
  | st, k, .bus (.direction _) :: rest =>
    (st == .idle || st == .configuring) && fits st k rest
  | st, k, .bus (.addrLow _) :: rest =>
    (st == .idle || st == .validating || st == .scanning) && fits st k rest
  | st, k, .bus (.addrHigh _) :: rest =>
    (st == .idle || st == .validating || st == .scanning) && fits st k rest
  | st, k, .bus .read :: rest =>
    (st == .idle || st == .validating || st == .scanning) && fits st { k with d := true } rest
  | st, k, .act (.delay _) :: rest => !st.terminal && fits st k rest
  | st, k, .act (.bankSwitch _ _) :: rest => st == .idle && fits st k rest
  | st, k, .act .beginRead :: rest => !st.terminal && fits st k rest
  | st, k, .act .beginFast :: rest =>
    (st == .idle || st == .scanning) && noJudge rest && fits st k rest
  | st, k, .act .fastLoop :: rest =>
    (st == .idle || st == .scanning) && noJudge rest && fits st { k with d := true } rest
  | st, k, .act .fastJudge :: rest =>
    (st == .idle || st == .scanning) && k.d && noJudge rest && fits st k rest
  | st, k, .act (.storeSample i) :: rest =>
    k.d && decide (i.val ≤ k.samples) && !st.terminal &&
      fits st { k with samples := max k.samples (i.val + 1) } rest
  | st, k, .act .runChecks :: rest =>
    decide (k.samples = 16) && !st.terminal && fits st { k with v := true } rest
  | st, k, .act .beginScan :: rest => st == .idle && fits .configuring k rest
  | st, k, .act .beginValidating :: rest => st == .configuring && fits .validating k rest
  | st, k, .act .verdict :: rest => st == .validating && k.v && fits st k rest
  | st, _, .act .beginScanning :: rest => st == .validating && rest == [.act .scanLoop]
  | st, _, .act .scanLoop :: rest => st == .scanning && rest.isEmpty
  | st, k, .act .storeByte :: rest => k.d && st == .scanning && rest == [.act .scanLoop]

/-- The invariant of the machine, decidable part by part:
the register space is canonical; the remaining tasks fit the sequencer state; `FC` holds a cause exactly in
`Aborted` (R24); the bus handle is held exactly outside the terminal states (R15); in `Scanning` `BUF`
has `X` bytes and `X` is at most `RomSize` (R13, R14), and less while a byte is being fetched; in
`Finalized` `X` and `len(BUF)` are `RomSize` (R170); `RC` and `MC` keep their bounds (R18, R20), and a
stabilizing read that has its matches has read a byte. -/
abbrev MachineInv (s : State) : Prop :=
  Memory.wf s.env.regs = true ∧
  fits s.st (held s) s.work = true ∧
  (s.fc ≠ .none ↔ s.st = .aborted) ∧
  (s.own = !s.st.terminal) ∧
  (s.st = .scanning → s.buf.length = s.x ∧ s.x ≤ s.cfg.romSize ∧
    (.act .storeByte ∈ s.work → s.x < s.cfg.romSize)) ∧
  (s.st = .finalized → s.buf.length = s.x ∧ s.x = s.cfg.romSize) ∧
  s.rc ≤ s.cfg.maxRetries ∧
  s.mc ≤ stableCount ∧ (.act .fastJudge ∈ s.work → s.mc < stableCount) ∧
  (s.mc = stableCount → s.d ≠ none)

/-! ### The trace -/

/-- An address write: a write to the data register of a write port (R234). -/
def isAddressWrite (cfg : Cfg) (chip reg : Byte) : Bool :=
  location chip reg == gpioReg cfg.portWL || location chip reg == gpioReg cfg.portWH

/-- The settling obligation (R234): a `DELAY(Addr)` stands between an address write and the next read.
`unsettled` says whether an address write stands before the list with no delay after it. -/
def settles (cfg : Cfg) : Bool → List Event → Bool
  | _, [] => true
  | u, .wr chip reg _ _ :: rest => settles cfg (u || isAddressWrite cfg chip reg) rest
  | _, .delay .addr :: rest => settles cfg false rest
  | u, .rd _ _ _ :: rest => !u && settles cfg u rest
  | u, _ :: rest => settles cfg u rest

/-- Whether an address write stands after the last `DELAY(Addr)` of the list, `unsettled` saying so of what
stands before the list (R234). -/
def unsettledAfter (cfg : Cfg) : Bool → List Event → Bool
  | u, [] => u
  | u, .wr chip reg _ _ :: rest => unsettledAfter cfg (u || isAddressWrite cfg chip reg) rest
  | _, .delay .addr :: rest => unsettledAfter cfg false rest
  | u, _ :: rest => unsettledAfter cfg u rest

/-- The tasks settle before every read they perform, `unsettled` saying whether an address write stands
before them with no delay after it (R234). -/
def tasksSettle : Bool → List Task → Bool
  | _, [] => true
  | _, .bus (.addrLow _) :: rest => tasksSettle true rest
  | _, .bus (.addrHigh _) :: rest => tasksSettle true rest
  | u, .bus (.direction _) :: rest => tasksSettle u rest
  | u, .bus .read :: rest => !u && tasksSettle u rest
  | _, .act (.delay .addr) :: rest => tasksSettle false rest
  | u, .act .fastLoop :: rest => !u && tasksSettle u rest
  | u, .act _ :: rest => tasksSettle u rest

/-- Since the trace was `before`, with the lines possibly unsettled then, the block has settled before every
read, and what remains of the operation will do so too (R234). -/
def SettlesSince (before : List Event) (s : State) : Prop :=
  ∃ events, s.tr = before ++ events ∧ settles s.cfg true events = true ∧
    tasksSettle (unsettledAfter s.cfg true events) s.work = true

/-- The transactions the block can emit (R76). An event that is no transaction is not restricted. -/
def emittable (cfg : Cfg) : Event → Bool
  | .wr chip reg val _ =>
    (chip == cfg.portWL.chip && reg == iodirOf cfg.portWL.bank && val == 0x00#8) ||
    (chip == cfg.portWH.chip && reg == iodirOf cfg.portWH.bank && val == 0x00#8) ||
    (chip == cfg.portRD.chip && reg == iodirOf cfg.portRD.bank && val == 0xFF#8) ||
    (chip == cfg.portWL.chip && reg == gpioOf cfg.portWL.bank) ||
    (chip == cfg.portWH.chip && reg == gpioOf cfg.portWH.bank)
  | .rd chip reg _ => chip == cfg.portRD.chip && reg == gpioOf cfg.portRD.bank
  | _ => true

/-- The bytes of the successful reads, in order. -/
def okReads : List Event → List Byte
  | [] => []
  | .rd _ _ (.ok v) :: rest => v :: okReads rest
  | _ :: rest => okReads rest

/-- How many samples differ from the one before them (R133). -/
def changes : List Byte → Nat
  | a :: b :: rest => (if a = b then 0 else 1) + changes (b :: rest)
  | _ => 0

/-- Eleven equal samples stand somewhere in the list (R132, conflict C2). -/
def HasStableRun (samples : List Byte) : Prop :=
  ∃ before v after, samples = before ++ List.replicate (stableCount + 1) v ++ after

/-- The images flushed to the output collaborator (R45, R170). -/
def outputs : List Event → List (List Byte)
  | [] => []
  | .out bytes :: rest => bytes :: outputs rest
  | _ :: rest => outputs rest

/-- The number of register writes, register reads and delays of one kind in a trace (R172). -/
def writeCount (events : List Event) : Nat :=
  events.countP fun e => match e with | .wr _ _ _ _ => true | _ => false
def readCount (events : List Event) : Nat :=
  events.countP fun e => match e with | .rd _ _ _ => true | _ => false
def delayCount (k : DelayKind) (events : List Event) : Nat := events.count (.delay k)

/-- The number of delays of every kind (R131). -/
def allDelays (events : List Event) : Nat :=
  delayCount .addr events + delayCount .retry events + delayCount .rom events

/-- The time a trace spends in delays (R213, R242). -/
def waitedTime (cfg : Cfg) : List Event → Duration
  | [] => 0
  | .delay k :: rest => durationOf cfg k + waitedTime cfg rest
  | _ :: rest => waitedTime cfg rest

/-! ### Samples

A sample is one RDBYTE that returns: how many of its attempts fault, and the byte (R130). -/

structure Sample where
  faults : Nat
  byte : Byte
deriving DecidableEq, Repr

def bytesOf (samples : List Sample) : List Byte := samples.map Sample.byte

/-- No sample has more faulted attempts than `MaxRetries` (R130). -/
def recovers (cfg : Cfg) (samples : List Sample) : Bool :=
  samples.all fun r => decide (r.faults ≤ cfg.maxRetries)

/-- `MC` after these samples (R20): how many of the samples just before the last one equal it, without a
gap. -/
def matchesOf (bytes : List Byte) : Nat :=
  match bytes.reverse with
  | [] => 0
  | v :: earlier => (earlier.takeWhile (· == v)).length

/-- Eleven equal samples in a row stand at the end of the list and nowhere before (R132, R133). -/
def Stabilizes (bytes : List Byte) : Prop := HasStableRun bytes ∧ ¬ HasStableRun bytes.dropLast

/-- The samples of one read of the scan that returns (R166): one with the plain reader; with the stabilizing
one as many as it takes to be stable, and no more than the ceiling allows (R134). -/
def Fetches (cfg : Cfg) (samples : List Sample) : Prop :=
  recovers cfg samples = true ∧
    if cfg.stabilize then
      Stabilizes (bytesOf samples) ∧ ∀ c, cfg.stabilizeCeiling = some c → samples.length ≤ c
    else samples.length = 1

/-- The samples of one read that meets no transport fault and no noise (R172). -/
def quietSamples (cfg : Cfg) (v : Byte) : List Sample :=
  if cfg.stabilize then List.replicate (stableCount + 1) ⟨0, v⟩ else [⟨0, v⟩]

/-- The bytes the reads return, in order: the last sample of each (R132). -/
def imageOf (reads : List (List Sample)) : List Byte :=
  reads.filterMap fun samples => samples.getLast?.map Sample.byte

/-! ### The traces of operations -/

/-- CONFIG (R160). -/
def configTrace (cfg : Cfg) : List Event :=
  [.wr cfg.portWL.chip (iodirOf cfg.portWL.bank) 0x00#8 .ok,
   .wr cfg.portWH.chip (iodirOf cfg.portWH.bank) 0x00#8 .ok,
   .wr cfg.portRD.chip (iodirOf cfg.portRD.bank) 0xFF#8 .ok]

/-- SETADDR `p` (R100). -/
def setAddressTrace (cfg : Cfg) (p : Half) : List Event :=
  [.wr cfg.portWL.chip (gpioOf cfg.portWL.bank) (lowByte p) .ok,
   .wr cfg.portWH.chip (gpioOf cfg.portWH.bank) (highByte p) .ok]

/-- A successful read attempt (R130). -/
def readTrace (cfg : Cfg) (v : Byte) : List Event :=
  [.rd cfg.portRD.chip (gpioOf cfg.portRD.bank) (.ok v)]

/-- A failed read attempt that is retried (R130). -/
def retryTrace (cfg : Cfg) : List Event :=
  [.rd cfg.portRD.chip (gpioOf cfg.portRD.bank) .ioFault, .delay .retry]

/-- A RDBYTE that returns (R130). -/
def sampleTrace (cfg : Cfg) (r : Sample) : List Event :=
  (List.replicate r.faults (retryTrace cfg)).flatten ++ readTrace cfg r.byte

/-- A RDBYTE whose attempts all fault, as far as the bus is concerned (R130). -/
def failedTrace (cfg : Cfg) : List Event :=
  (List.replicate cfg.maxRetries (retryTrace cfg)).flatten ++
    [.rd cfg.portRD.chip (gpioOf cfg.portRD.bank) .ioFault]

/-- The samples of RDFAST, `last` being the sample before them: a sample that differs from the one before it
is followed by a `DELAY(Rom)` (R132). -/
def fastTrace (cfg : Cfg) : Option Byte → List Sample → List Event
  | _, [] => []
  | last, r :: rest =>
    sampleTrace cfg r ++ (if last.isSome && last != some r.byte then [.delay .rom] else []) ++
      fastTrace cfg (some r.byte) rest

/-- The probes of CHKROM, from sample number `i` on (R150). -/
def probesTrace (cfg : Cfg) : Nat → List Sample → List Event
  | _, [] => []
  | i, r :: rest =>
    setAddressTrace cfg (BitVec.ofNat 16 (romOffset + i)) ++ [.delay .addr] ++ sampleTrace cfg r ++
      probesTrace cfg (i + 1) rest

/-- The hotspot whose pulse BANKSW performs for a logical address with offset, if any (R113, R114). -/
def pulsed (m : BankSwitchMethod) (a : Nat) : Option Nat :=
  if h : romOffset ≤ a then if trigger a m h then (hotspots m)[bankNumber a h]? else none else none

/-- The pulse of BANKSW (R114). -/
def pulseTrace (cfg : Cfg) (m : BankSwitchMethod) (a : Nat) : List Event :=
  match pulsed m a with
  | some hotspot => setAddressTrace cfg (BitVec.ofNat 16 hotspot) ++ [.delay .addr]
  | none => []

/-- What the scan does for offset `x` before its read (R166). -/
def targetTrace (cfg : Cfg) (x : Nat) : List Event :=
  pulseTrace cfg (effectiveMethod cfg) (x + romOffset) ++
    setAddressTrace cfg
      (BitVec.ofNat 16 (realAddress (x + romOffset) (Nat.le_add_left romOffset x))) ++
    [.delay .addr]

/-- The samples of one read of the scan (R166). -/
def fetchTrace (cfg : Cfg) (samples : List Sample) : List Event :=
  if cfg.stabilize then fastTrace cfg none samples else samples.flatMap (sampleTrace cfg)

/-- The iterations of the scan loop from offset `x` on (R166). -/
def bytesTrace (cfg : Cfg) : Nat → List (List Sample) → List Event
  | _, [] => []
  | x, samples :: rest =>
    targetTrace cfg x ++ fetchTrace cfg samples ++ [.progress x] ++ bytesTrace cfg (x + 1) rest

/-- A scan up to the loop test that finds all of `reads` stored (R162). -/
def loopTrace (cfg : Cfg) (probes : List Sample) (reads : List (List Sample)) : List Event :=
  configTrace cfg ++ probesTrace cfg 0 probes ++ bytesTrace cfg 0 reads

/-- A whole scan that ends in `Finalized` (R162, R170). -/
def scanTrace (cfg : Cfg) (probes : List Sample) (reads : List (List Sample)) : List Event :=
  loopTrace cfg probes reads ++ [.out (imageOf reads), .rel]

/-- The answers are those the events record, one for each transaction and none left. For a write the byte
of an `ok` answer means nothing. -/
def answers : List Event → List Reply → Bool
  | [], replies => replies.isEmpty
  | .wr _ _ _ .ok :: rest, .ok _ :: replies => answers rest replies
  | .wr _ _ _ .ioFault :: rest, .ioFault _ :: replies => answers rest replies
  | .wr _ _ _ _ :: _, _ => false
  | .rd _ _ (.ok v) :: rest, .ok w :: replies => v == w && answers rest replies
  | .rd _ _ .ioFault :: rest, .ioFault _ :: replies => answers rest replies
  | .rd _ _ _ :: _, _ => false
  | _ :: rest, replies => answers rest replies

/-- The environment after the successful writes of a trace (R27 to R29). -/
def Env.afterWrites (cfg : Cfg) : Env → List Event → Env
  | e, [] => e
  | e, .wr chip reg val .ok :: rest => Env.afterWrites cfg (e.write cfg (location chip reg) val) rest
  | e, _ :: rest => Env.afterWrites cfg e rest

/-! ### States in the middle of an operation -/

/-- The sample registers with the first ones filled (R150). -/
def storeAll (sample : Vector (Option Byte) 16) (bytes : List Byte) : Vector (Option Byte) 16 :=
  Vector.ofFn fun i => if i.val < bytes.length then bytes[i.val]? else sample[i]

/-- The state after the first write of SETADDR `p` (R100). -/
def State.lowWritten (s : State) (p : Half) : State :=
  { s with
    tr := s.tr ++ [.wr s.cfg.portWL.chip (gpioOf s.cfg.portWL.bank) (lowByte p) .ok]
    env := s.env.write s.cfg (gpioReg s.cfg.portWL) (lowByte p) }

/-- The state after SETADDR `p` (R100). -/
def State.addressed (s : State) (p : Half) : State :=
  { s with
    tr := s.tr ++ setAddressTrace s.cfg p
    env := (s.env.write s.cfg (gpioReg s.cfg.portWL) (lowByte p)).write s.cfg
      (gpioReg s.cfg.portWH) (highByte p) }

/-- The state after CHKROM's first probes (R150). -/
def State.probed (s : State) (probes : List Sample) : State :=
  { s with
    d := (probes.getLast?.map Sample.byte).or s.d
    rc := (probes.getLast?.map Sample.faults).getD s.rc
    sample := storeAll s.sample (bytesOf probes)
    tr := s.tr ++ probesTrace s.cfg 0 probes
    env := s.env.afterWrites s.cfg (probesTrace s.cfg 0 probes) }

/-- The state after these samples of a RDFAST, but for `RC` (R132). -/
def State.sampled (s : State) (samples : List Sample) : State :=
  { s with
    d := (samples.getLast?.map Sample.byte).or s.d
    lb := samples.getLast?.map Sample.byte
    mc := matchesOf (bytesOf samples)
    ac := samples.length
    tr := s.tr ++ fastTrace s.cfg none samples }

/-- The state after a fault that is no ValidationFault, the faulted operation having left `events` in the
trace since `s` (R207). -/
def State.abortedBy (s : State) (r : Report) (events : List Event) : State :=
  { s with
    st := .aborted, fc := r.faultCause, own := false, work := []
    tr := s.tr ++ events ++ [.report r, .rel] }

/-- The state after a fatal write of a byte to a port's data register (R202); whether the register took the
byte is in the answer (U6). -/
def State.writeFailed (s : State) (P : Port) (v : Byte) (landed : Bool) : State :=
  { s.abortedBy (.fatalTransport .write) [.wr P.chip (gpioOf P.bank) v .ioFault] with
    env := s.env.answered s.cfg (gpioReg P) v (.ioFault landed) }

/-- The state after a RDBYTE whose attempts all fault (R130, R201). -/
def State.readFailed (s : State) : State :=
  { s.abortedBy (.fatalTransport .read) (failedTrace s.cfg) with rc := s.cfg.maxRetries }

/-- The run that led from `s` to `t` was aborted by a fault, having left `events` in the trace, with `X` and
`BUF` as said (R207, R208). The report of a ValidationFault is CHKROM's (R206). -/
def EndsAborted (s t : State) (r : Report) (events : List Event) (x : Nat) (buf : List Byte) : Prop :=
  t.st = .aborted ∧ t.fc = r.faultCause ∧ t.own = false ∧ t.x = x ∧ t.buf = buf ∧ t.work = [] ∧
    t.tr = s.tr ++ events ++ [.report r, .rel]

/-! ### The mock bus of R171 -/

/-- The mock bus answers every read with the low byte of the address on the lines (R171). -/
def mockByte (s : State) : Byte :=
  match addressLines s.cfg s.env.regs with
  | some address => address.extractLsb' 0 8
  | none => 0x00#8

/-- The steps in which the mock bus answers the next `n` transactions, each from the state it finds. The
byte of the answer to a write means nothing. -/
def mockRun : Nat → State → Host.Outcome State Fault Refusal
  | 0, s => .next s
  | n + 1, s => andThen (step { s with replies := [.ok (mockByte s)] }) (mockRun n)

/-- The number of offsets below `n` at which a scan with method `m` pulses a hotspot (R172). -/
def triggerCount (m : BankSwitchMethod) (n : Nat) : Nat :=
  (List.range n).countP fun x => trigger (x + romOffset) m (Nat.le_add_left romOffset x)

end Sys2Proof.Machine
end

