-- ==== Sys2Proof/Certificates/Slice0/Obligations.lean ====
section
/-! DEFINITION. The statements for the provers. Every statement about a command quantifies over the
state, its configuration, what the bus answers and what stands in the answers after them; the equations
`exec i s = .next t` say every field of `t`, and so what the command leaves unchanged. -/

open Sys2Proof Sys2Proof.Machine

/-! ### Encoding -/

/-- Decoding an encoded well-formed command gives it back, whatever its operand (R72, R73, R78). -/
def Obligations.DecodeOfEncode : Prop :=
  ∀ i : Instr, i.wellFormed = true → decode (encode i) = .command i

/-- A word that decodes to a command is the word the command encodes to, and the command is well formed:
no two words spell one command, and no bit of a word is ignored (R71, R80). -/
def Obligations.EncodeOfDecode : Prop :=
  ∀ (cw : CommandWord) (i : Instr), decode cw = .command i → i.wellFormed = true ∧ encode i = cw

/-- R79: the rows of the match and mask table are disjoint, so at most one matches a word, and a word is
reserved exactly if none matches. -/
def Obligations.AtMostOneRowMatches : Prop :=
  ∀ cw : CommandWord,
    (opcodeRows.filter fun row => row.accepts cw).length ≤ 1 ∧
    ((∃ why, decode cw = .reserved why) ↔ ∀ row ∈ opcodeRows, row.accepts cw = false)

/-- R80: the reserved words, case by case, are reserved. -/
def Obligations.ReservedWordsAreReserved : Prop :=
  ∀ cw : CommandWord,
    (opField cw = 0#4 ∨ 9#4 ≤ opField cw) ∨ zeroField cw ≠ 0#2 ∨
      (opField cw ≠ 3#4 ∧ methodField cw ≠ 0#2) ∨
      (opField cw ≠ 2#4 ∧ opField cw ≠ 3#4 ∧ immField cw ≠ 0#24) ∨
      (opField cw = 2#4 ∧ (immField cw).extractLsb' 16 8 ≠ 0#8) ∨
      (opField cw = 3#4 ∧ methodField cw = 3#2) ↔
    ∃ why, decode cw = .reserved why

/-- Words written out from the spec's table decode to the commands they stand for. -/
def Obligations.TableWordsDecode : Prop :=
  decode 0x10000000#32 = .command .config ∧
  decode 0x200012AB#32 = .command (.setaddr 0x12AB#16) ∧
  decode 0x30001000#32 = .command (.bankswNone 0x1000) ∧
  decode 0x34002000#32 = .command (.bankswF8 0x2000) ∧
  decode 0x38004FFA#32 = .command (.bankswF6 0x4FFA) ∧
  decode 0x80000000#32 = .command .settle

/-! ### Steps and command acceptance -/

/-- When no command is in progress and the next command word decodes to a command, the step is that
command's meaning on the state without the word. -/
def Obligations.StepRunsDecodedCommand : Prop :=
  ∀ (s : State) (cw : CommandWord) (rest : List HostInput) (i : Instr),
    s.work = [] → s.inputs = .command cw :: rest → decode cw = .command i →
    step s = exec i { s with inputs := rest }

/-- While a command is in progress the step takes no command word: the bus answers and the command goes
on, whatever words the host will issue. -/
def Obligations.CommandsWaitForTheOneInProgress : Prop :=
  ∀ (s t : State) (words : List CommandWord), s.work ≠ [] → ¬ ResetComes s → step s = .next t →
    t.inputs = s.inputs ∧
    step { s with inputs := words.map .command } = .next { t with inputs := words.map .command }

/-- R80: a reserved word is refused, in every state in which the block would take a command word. -/
def Obligations.ReservedWordIsRefused : Prop :=
  ∀ (s : State) (cw : CommandWord) (rest : List HostInput) (why : ReservedReason),
    s.work = [] → s.inputs = .command cw :: rest → decode cw = .reserved why →
    step s = .refused (.reservedWord why)

/-- R161: outside `Idle` every command is refused. While another command is in progress it is refused as
busy; R161 says only that commands do not overlap, and the refusal is the model's choice (assumption 13). -/
def Obligations.CommandsAreAcceptedOnlyInIdle : Prop :=
  ∀ (i : Instr) (s : State),
    (s.work = [] → s.st ≠ .idle → exec i s = .refused (.notIdle s.st)) ∧
    (s.work ≠ [] → exec i s = .refused .busy)

/-- R161: in `Idle`, with no command in progress, every command is accepted: it answers a next state,
whatever the registers hold and whatever the bus answers. -/
def Obligations.EveryAcceptedCommandAnswersNext : Prop :=
  ∀ (i : Instr) (s : State), Accepting s → ∃ t, exec i s = .next t

/-- R161: a command is performed to its end, unless the bus has not answered one of its transactions;
then it waits for that answer and has used all the others. -/
def Obligations.CommandRunsToItsEndOrWaits : Prop :=
  ∀ (i : Instr) (s t : State), exec i s = .next t → t.work = [] ∨ Waiting t

/-- R12, R161: `Finalized` and `Aborted` are terminal. -/
def Obligations.TerminalStatesStay : Prop :=
  ∀ s t : State, MachineInv s → s.st.terminal = true → ¬ ResetComes s → step s = .next t → t = s

/-! ### Reset -/

/-- R31: the reset values, for every configuration presented and every environment. -/
def Obligations.ResetValues : Prop :=
  ∀ (cfg : Cfg) (env : Env) (inputs : List HostInput) (replies : List Reply),
    let s := State.resetWith cfg env inputs replies
    s.cfg = cfg ∧ s.st = .idle ∧ s.x = 0 ∧ s.buf = [] ∧ s.own = true ∧ s.rc = 0 ∧ s.mc = 0 ∧
    s.ac = 0 ∧ s.lb = none ∧ s.fc = .none ∧ s.tr = [] ∧ s.d = none ∧
    (∀ i : Fin 16, s.sample[i] = none) ∧ s.v = none ∧ s.vc = none

/-- R230: when the host resets the block, in whatever state it is, the step takes the reset: the block has
its reset values and the configuration now presented, and the environment is as it was. -/
def Obligations.ResetIsTakenInEveryState : Prop :=
  ∀ (s : State) (cfg : Cfg) (rest : List HostInput), s.inputs = .reset cfg :: rest →
    step s = .next (State.resetWith cfg s.env rest s.replies)

/-- The reset state has the invariant. -/
def Obligations.ResetHasInvariant : Prop := MachineInv State.reset

/-! ### The invariant and what it gives -/

/-- Every step keeps the invariant. -/
def Obligations.StepKeepsInvariant : Prop :=
  ∀ s t : State, MachineInv s → step s = .next t → MachineInv t

/-- R31: no step from a state with the invariant uses a register that holds no value. -/
def Obligations.NoStepUsesAnUnwrittenRegister : Prop :=
  ∀ s : State, MachineInv s → ∀ f : Fault, step s ≠ .fault f

/-- R10: no step but a reset changes any field of the configuration record. -/
def Obligations.NoStepWritesTheConfiguration : Prop :=
  ∀ s t : State, ¬ ResetComes s → step s = .next t → t.cfg = s.cfg

/-- R26, R76: a step that is no reset appends to the trace and removes nothing, and every transaction it
appends is one of the list of R76. -/
def Obligations.StepAppendsEmittableEvents : Prop :=
  ∀ s t : State, ¬ ResetComes s → step s = .next t →
    ∃ events, t.tr = s.tr ++ events ∧ events.all (emittable s.cfg) = true

/-- R169: a step that is no reset moves `ST` only along the transitions of the table. -/
def Obligations.StepFollowsTheTransitionTable : Prop :=
  ∀ s t : State, MachineInv s → ¬ ResetComes s → step s = .next t →
    Relation.ReflTransGen (fun a b => transition a b = true) s.st t.st

/-- R170, R208: an image has been flushed exactly once in `Finalized` and never otherwise, and it is
`BUF`. -/
def Obligations.ImageIsFlushedOnlyInFinalized : Prop :=
  let flushed := fun s : State => outputs s.tr = if s.st = .finalized then [s.buf] else []
  ∀ s t : State, MachineInv s → flushed s → step s = .next t → flushed t

/-- R241: a step that ends a run ends it in a good end or a bad one, and `OWN` is false. -/
def Obligations.RunsEndGoodOrBad : Prop :=
  ∀ s t : State, MachineInv s → step s = .next t → t.st.terminal = true →
    (t.st = .finalized ∧ goodEnd t = true) ∨ (t.st = .aborted ∧ badEnd t = true)

/-- Every step keeps the register space of the expander chips in canonical form. -/
def Obligations.StepKeepsRegistersCanonical : Prop :=
  ∀ s t : State, Memory.wf s.env.regs = true → step s = .next t → Memory.wf t.env.regs = true

/-! ### CONFIG -/

/-- R160: CONFIG writes the three direction registers, in the order write-low, write-high, read, and
nothing else; a CONFIG repeated at once leaves the registers and the cartridge's latch as they are. The form
of the environment is the model's (assumptions 7, 8, 9). -/
def Obligations.ConfigProgramsThreeDirections : Prop :=
  ∀ (s : State) (a b c : Byte) (more : List Reply), Accepting s →
    s.replies = .ok a :: .ok b :: .ok c :: more →
    exec .config s = .next { s with
      tr := s.tr ++ configTrace s.cfg
      env := ((s.env.write s.cfg (iodirReg s.cfg.portWL) 0x00#8).write s.cfg
        (iodirReg s.cfg.portWH) 0x00#8).write s.cfg (iodirReg s.cfg.portRD) 0xFF#8
      replies := more } ∧
    ∀ (d e f : Byte) (rest : List Reply), more = .ok d :: .ok e :: .ok f :: rest →
      Memory.wf s.env.regs = true →
      ∃ t u, exec .config s = .next t ∧ exec .config t = .next u ∧ u.work = [] ∧ u.st = .idle ∧
        u.env.regs = t.env.regs ∧ u.env.latch = t.env.latch

/-- R160, R202: a direction write that faults aborts CONFIG at once; the remaining writes are not
performed. The clauses are a fault of the first, the second and the third write. -/
def Obligations.FaultedDirectionWriteAborts : Prop :=
  ∀ (s : State) (landed : Bool) (a b : Byte) (more : List Reply), Accepting s →
    let wl := s.cfg.portWL
    let wh := s.cfg.portWH
    let rd := s.cfg.portRD
    let failed := [Event.report (.fatalTransport .write), .rel]
    (s.replies = .ioFault landed :: more →
      exec .config s = .next { s with
        st := .aborted, fc := .fatalTransportFault, own := false, replies := more
        tr := s.tr ++ .wr wl.chip (iodirOf wl.bank) 0x00#8 .ioFault :: failed
        env := s.env.answered s.cfg (iodirReg wl) 0x00#8 (.ioFault landed) }) ∧
    (s.replies = .ok a :: .ioFault landed :: more →
      exec .config s = .next { s with
        st := .aborted, fc := .fatalTransportFault, own := false, replies := more
        tr := s.tr ++ .wr wl.chip (iodirOf wl.bank) 0x00#8 .ok ::
          .wr wh.chip (iodirOf wh.bank) 0x00#8 .ioFault :: failed
        env := (s.env.write s.cfg (iodirReg wl) 0x00#8).answered s.cfg (iodirReg wh) 0x00#8
          (.ioFault landed) }) ∧
    (s.replies = .ok a :: .ok b :: .ioFault landed :: more →
      exec .config s = .next { s with
        st := .aborted, fc := .fatalTransportFault, own := false, replies := more
        tr := s.tr ++ .wr wl.chip (iodirOf wl.bank) 0x00#8 .ok ::
          .wr wh.chip (iodirOf wh.bank) 0x00#8 .ok ::
          .wr rd.chip (iodirOf rd.bank) 0xFF#8 .ioFault :: failed
        env := ((s.env.write s.cfg (iodirReg wl) 0x00#8).write s.cfg (iodirReg wh) 0x00#8).answered
          s.cfg (iodirReg rd) 0xFF#8 (.ioFault landed) })

/-! ### SETADDR and SETTLE -/

/-- R100, R102: SETADDR writes the low byte to write-port 1 and then the high bits, unmasked, to
write-port 2, for every `u16` operand, and changes nothing else; the two bytes recombine to the operand. The
form of the environment is the model's (assumptions 7, 8, 19). -/
def Obligations.SetaddrWritesLowThenHigh : Prop :=
  ∀ (s : State) (p : Half) (a b : Byte) (more : List Reply), Accepting s →
    s.replies = .ok a :: .ok b :: more →
    exec (.setaddr p) s = .next { s with
      tr := s.tr ++ [.wr s.cfg.portWL.chip (gpioOf s.cfg.portWL.bank) (p.extractLsb' 0 8) .ok,
        .wr s.cfg.portWH.chip (gpioOf s.cfg.portWH.bank) (p.extractLsb' 8 8) .ok]
      env := (s.env.write s.cfg (gpioReg s.cfg.portWL) (p.extractLsb' 0 8)).write s.cfg
        (gpioReg s.cfg.portWH) (p.extractLsb' 8 8)
      replies := more } ∧
    (p.extractLsb' 8 8).toNat * 256 + (p.extractLsb' 0 8).toNat = p.toNat

/-- R100, R202: a write of SETADDR that faults is fatal at once, is not retried, and the write that would
have followed is not performed. -/
def Obligations.FaultedAddressWriteAborts : Prop :=
  ∀ (s : State) (p : Half) (landed : Bool) (a : Byte) (more : List Reply), Accepting s →
    let wl := s.cfg.portWL
    let wh := s.cfg.portWH
    let failed := [Event.report (.fatalTransport .write), .rel]
    (s.replies = .ioFault landed :: more →
      exec (.setaddr p) s = .next { s with
        st := .aborted, fc := .fatalTransportFault, own := false, replies := more
        tr := s.tr ++ .wr wl.chip (gpioOf wl.bank) (lowByte p) .ioFault :: failed
        env := s.env.answered s.cfg (gpioReg wl) (lowByte p) (.ioFault landed) }) ∧
    (s.replies = .ok a :: .ioFault landed :: more →
      exec (.setaddr p) s = .next { s with
        st := .aborted, fc := .fatalTransportFault, own := false, replies := more
        tr := s.tr ++ .wr wl.chip (gpioOf wl.bank) (lowByte p) .ok ::
          .wr wh.chip (gpioOf wh.bank) (highByte p) .ioFault :: failed
        env := (s.env.write s.cfg (gpioReg wl) (lowByte p)).answered s.cfg (gpioReg wh) (highByte p)
          (.ioFault landed) })

/-- R103: with both write ports distinct and programmed as outputs, a completed SETADDR `p` with
`p <= 0x1FFF` leaves the address lines at `p`. -/
def Obligations.SetaddrDrivesTheLines : Prop :=
  ∀ (s : State) (p : Half) (a b : Byte) (more : List Reply), Accepting s →
    s.replies = .ok a :: .ok b :: more → s.cfg.portWL ≠ s.cfg.portWH → p.toNat ≤ 0x1FFF →
    Memory.read s.env.regs (iodirReg s.cfg.portWL) = some 0x00#8 →
    Memory.read s.env.regs (iodirReg s.cfg.portWH) = some 0x00#8 →
    ∃ t, exec (.setaddr p) s = .next t ∧ t.work = [] ∧ t.st = .idle ∧
      addressLines t.cfg t.env.regs = some (p.setWidth 13)

/-- R236: between SETADDR's two writes the lines hold the old high bits and the new low byte. -/
def Obligations.LinesBetweenTheTwoWrites : Prop :=
  ∀ (s : State) (p : Half) (a : Byte) (old : Lines), Accepting s → s.replies = [.ok a] →
    s.cfg.portWL ≠ s.cfg.portWH →
    addressLines s.cfg s.env.regs = some old →
    ∃ t, exec (.setaddr p) s = .next t ∧ t.work = [.bus (.addrHigh p)] ∧
      addressLines t.cfg t.env.regs = some (old.extractLsb' 8 5 ++ lowByte p)

/-- R101: SETTLE appends `DELAY(Addr)` and changes nothing else. -/
def Obligations.SettleAppendsOneDelay : Prop :=
  ∀ s : State, Accepting s →
    exec .settle s = .next { s with tr := s.tr ++ [.delay .addr] }

/-- R28 to R30: a register write that leaves the lines at an address that is no hotspot of any scheme
leaves the cartridge's latch; one that leaves them at a hotspot leaves the latch or selects the hotspot's
bank. -/
def Obligations.OnlyHotspotsMoveTheLatch : Prop :=
  ∀ (cfg : Cfg) (e : Env) (loc : Nat) (v : Byte) (address : Lines),
    addressLines cfg (e.write cfg loc v).regs = some address →
    (e.write cfg loc v).latch = e.latch ∨
      ∃ m bank, (hotspots m)[bank]? = some address.toNat ∧ (e.write cfg loc v).latch = some bank

/-! ### Translation, methods and triggers -/

/-- R46: the translation lies in the window, wraps every 4096 bytes, and the bank number grows by one per
stride. -/
def Obligations.TranslationLaws : Prop :=
  ∀ (x : Nat) (h : romOffset ≤ x + romOffset) (h' : romOffset ≤ x + bankWindow + romOffset),
    romOffset ≤ realAddress (x + romOffset) h ∧
    realAddress (x + romOffset) h < romOffset + bankWindow ∧
    realAddress (x + romOffset) h = romOffset + x % 4096 ∧
    bankNumber (x + romOffset) h = x / 4096 ∧
    realAddress (x + bankWindow + romOffset) h' = realAddress (x + romOffset) h ∧
    bankNumber (x + bankWindow + romOffset) h' = bankNumber (x + romOffset) h + 1

/-- R113: the addresses that trigger, written out for each method. -/
def Obligations.TriggerAddresses : Prop :=
  ∀ (a : Nat) (h : romOffset ≤ a),
    trigger a .none h = false ∧
    (trigger a .f8 h = true ↔ realAddress a h ∈ [0x1000, 0x1FF9, 0x1FFA]) ∧
    (trigger a .f6 h = true ↔ realAddress a h ∈ [0x1000, 0x1FF7, 0x1FF8, 0x1FF9, 0x1FFA])

/-- R112, R204: a consistent size and method put every bank of the scan inside the hotspot list, so no
BANKSW of the scan raises ConfigurationFault. -/
def Obligations.ConsistentScanNeverLacksAHotspot : Prop :=
  ∀ (size x : Nat) (m : BankSwitchMethod), consistent size m = true → x < size →
    ∃ pulse, bankSwitch m (x + romOffset) = .ok pulse

/-! ### BANKSW -/

/-- R114, R116: BANKSW with method `None` does nothing, for any operand. -/
def Obligations.BankswNoneIsANoOp : Prop :=
  ∀ (s : State) (a : Nat), Accepting s → exec (.bankswNone a) s = .next s

/-- R114: BANKSW F8 on an operand that triggers, in a bank the method has, sets the bank's hotspot address
and settles, and changes nothing else. If the pulse's first or second write faults it raises
FatalTransportFault there, and neither a further write nor the delay follows. -/
def Obligations.BankswF8PulsesItsHotspot : Prop :=
  ∀ (s : State) (a : Nat) (h : romOffset ≤ a) (hotspot : Nat), Accepting s →
    realAddress a h ∈ [0x1000, 0x1FF9, 0x1FFA] →
    [0x1FF8, 0x1FF9][bankNumber a h]? = some hotspot →
    let p := BitVec.ofNat 16 hotspot
    ∀ (u v : Byte) (landed : Bool) (more : List Reply),
      (s.replies = .ok u :: .ok v :: more →
        exec (.bankswF8 a) s = .next { s with
          tr := s.tr ++ setAddressTrace s.cfg p ++ [.delay .addr]
          env := (s.env.write s.cfg (gpioReg s.cfg.portWL) (lowByte p)).write
            s.cfg (gpioReg s.cfg.portWH) 0x1F#8
          replies := more }) ∧
      (s.replies = .ioFault landed :: more →
        exec (.bankswF8 a) s =
          .next { s.writeFailed s.cfg.portWL (lowByte p) landed with replies := more }) ∧
      (s.replies = .ok u :: .ioFault landed :: more →
        exec (.bankswF8 a) s = .next
          { (s.lowWritten p).writeFailed s.cfg.portWH 0x1F#8 landed with replies := more })

/-- R114: the same for BANKSW F6. -/
def Obligations.BankswF6PulsesItsHotspot : Prop :=
  ∀ (s : State) (a : Nat) (h : romOffset ≤ a) (hotspot : Nat), Accepting s →
    realAddress a h ∈ [0x1000, 0x1FF7, 0x1FF8, 0x1FF9, 0x1FFA] →
    [0x1FF6, 0x1FF7, 0x1FF8, 0x1FF9][bankNumber a h]? = some hotspot →
    let p := BitVec.ofNat 16 hotspot
    ∀ (u v : Byte) (landed : Bool) (more : List Reply),
      (s.replies = .ok u :: .ok v :: more →
        exec (.bankswF6 a) s = .next { s with
          tr := s.tr ++ setAddressTrace s.cfg p ++ [.delay .addr]
          env := (s.env.write s.cfg (gpioReg s.cfg.portWL) (lowByte p)).write
            s.cfg (gpioReg s.cfg.portWH) 0x1F#8
          replies := more }) ∧
      (s.replies = .ioFault landed :: more →
        exec (.bankswF6 a) s =
          .next { s.writeFailed s.cfg.portWL (lowByte p) landed with replies := more }) ∧
      (s.replies = .ok u :: .ioFault landed :: more →
        exec (.bankswF6 a) s = .next
          { (s.lowWritten p).writeFailed s.cfg.portWH 0x1F#8 landed with replies := more })

/-- R114, R116: on an operand that does not trigger BANKSW does nothing, whatever the bank. -/
def Obligations.BankswWithoutTriggerDoesNothing : Prop :=
  ∀ (s : State) (a : Nat) (h : romOffset ≤ a), Accepting s →
    (realAddress a h ∉ [0x1000, 0x1FF9, 0x1FFA] → exec (.bankswF8 a) s = .next s) ∧
    (realAddress a h ∉ [0x1000, 0x1FF7, 0x1FF8, 0x1FF9, 0x1FFA] → exec (.bankswF6 a) s = .next s)

/-- R116: an operand below `RomOffset`, and a triggering operand in a bank the method lacks, raise
ConfigurationFault before any transaction. -/
def Obligations.BankswOutsideItsDomainFaults : Prop :=
  ∀ (s : State) (a : Nat), Accepting s →
    let aborted := fun cause : ConfigurationCause =>
      { s with st := .aborted, fc := .configurationFault, own := false
               tr := s.tr ++ [Event.report (.configuration cause), .rel] }
    (a < romOffset →
      exec (.bankswF8 a) s = .next (aborted .operand) ∧
      exec (.bankswF6 a) s = .next (aborted .operand)) ∧
    (∀ h : romOffset ≤ a, trigger a .f8 h = true → 2 ≤ bankNumber a h →
      exec (.bankswF8 a) s = .next (aborted .bank)) ∧
    (∀ h : romOffset ≤ a, trigger a .f6 h = true → 4 ≤ bankNumber a h →
      exec (.bankswF6 a) s = .next (aborted .bank))

/-- R83: BANKSW, with every method, is SETADDR of the hotspot and then SETTLE when it triggers and no fault
occurs, and otherwise nothing. -/
def Obligations.BankswExpandsToSetaddrAndSettle : Prop :=
  ∀ (s : State) (m : BankSwitchMethod) (a : Nat), Accepting s →
    (∀ (u v : Byte) (more : List Reply) (hotspot : Nat),
      s.replies = .ok u :: .ok v :: more → pulsed m a = some hotspot →
      exec (CallForm.bankSwitch a m).instr s =
        andThen (exec (.setaddr (BitVec.ofNat 16 hotspot)) s) (exec .settle)) ∧
    (∀ h : romOffset ≤ a, trigger a m h = false →
      exec (CallForm.bankSwitch a m).instr s = .next s)

/-- R118: in a scan of two F8 banks or four F6 banks the hotspot pulsed before an offset is that of the
offset's own bank, and the offsets pulsed are the first of each bank and those that follow a hotspot. -/
def Obligations.ScanPulsesTheScannedBank : Prop :=
  ∀ x : Nat,
    (x < 8192 → pulsed .f8 (x + romOffset) =
      if x % 4096 = 0 ∨ x % 4096 = 0xFF9 ∨ x % 4096 = 0xFFA then some (0x1FF8 + x / 4096) else none) ∧
    (x < 16384 → pulsed .f6 (x + romOffset) =
      if x % 4096 = 0 ∨ x % 4096 = 0xFF7 ∨ x % 4096 = 0xFF8 ∨ x % 4096 = 0xFF9 ∨ x % 4096 = 0xFFA
      then some (0x1FF6 + x / 4096) else none)

/-- R237: the targets of a scan that select another bank than the scanned one, by their own address. -/
def Obligations.HotspotTargetsSelectTheirOwnBank : Prop :=
  ∀ x : Nat,
    let target := realAddress (x + romOffset) (Nat.le_add_left romOffset x)
    (x < 8192 → ((∃ j, bankSelectedBy .f8 target = some j ∧ j ≠ x / 4096) ↔ x = 0x0FF9 ∨ x = 0x1FF8)) ∧
    (x < 16384 → ((∃ j, bankSelectedBy .f6 target = some j ∧ j ≠ x / 4096) ↔
      ∃ k j, k < 4 ∧ j < 4 ∧ j ≠ k ∧ x = 4096 * k + 0xFF6 + j))

/-! ### RDBYTE -/

/-- R130: RDBYTE whose attempts fault at most `MaxRetries` times and then succeed waits before each retry,
counts the retries in `RC`, and leaves the byte in `D`; nothing else changes. -/
def Obligations.RdbyteRetriesThenReturnsTheByte : Prop :=
  ∀ (s : State) (faults : List Bool) (v : Byte) (more : List Reply), Accepting s →
    faults.length ≤ s.cfg.maxRetries → s.replies = faults.map .ioFault ++ .ok v :: more →
    exec .rdbyte s = .next { s with
      d := some v, rc := faults.length, replies := more
      tr := s.tr ++ (List.replicate faults.length (retryTrace s.cfg)).flatten ++ readTrace s.cfg v }

/-- R130, R200: after `MaxRetries + 1` faults in a row RDBYTE raises FatalTransportFault; `D` is not
written and no delay follows the last attempt. -/
def Obligations.RdbyteExhaustedRetriesAreFatal : Prop :=
  ∀ (s : State) (faults : List Bool) (more : List Reply), Accepting s →
    faults.length = s.cfg.maxRetries + 1 → s.replies = faults.map .ioFault ++ more →
    exec .rdbyte s = .next { s with
      st := .aborted, fc := .fatalTransportFault, own := false, rc := s.cfg.maxRetries, replies := more
      tr := s.tr ++ (List.replicate s.cfg.maxRetries (retryTrace s.cfg)).flatten ++
        [.rd s.cfg.portRD.chip (gpioOf s.cfg.portRD.bank) .ioFault,
         .report (.fatalTransport .read), .rel] }

/-- R131: one RDBYTE performs at least one and at most `MaxRetries + 1` read transactions, and at most
`MaxRetries` delays of any kind, whatever the bus answers; it is over once it has `MaxRetries + 1` answers.
That answers are placed and counted is the model's form (assumption 2). -/
def Obligations.RdbyteIsBounded : Prop :=
  ∀ s t : State, Accepting s → exec .rdbyte s = .next t →
    ∃ events, t.tr = s.tr ++ events ∧
      readCount events ≤ s.cfg.maxRetries + 1 ∧ allDelays events ≤ s.cfg.maxRetries ∧
      (t.work = [] → 1 ≤ readCount events) ∧
      (s.cfg.maxRetries + 1 ≤ s.replies.length → t.work = [])

/-! ### RDFAST -/

/-- R132: RDFAST returns when eleven samples in a row are equal, however many other samples, and retried
attempts within samples, came before, and leaves their value in `LB` and `D`, with `MC = 10` and `AC` the
number of samples. -/
def Obligations.RdfastReturnsAStableSample : Prop :=
  ∀ (s : State) (samples : List Sample) (last : Sample) (replies more : List Reply), Accepting s →
    recovers s.cfg samples = true → Stabilizes (bytesOf samples) →
    (∀ c, s.cfg.stabilizeCeiling = some c → samples.length ≤ c) → samples.getLast? = some last →
    answers (fastTrace s.cfg none samples) replies = true → s.replies = replies ++ more →
    exec .rdfast s = .next { s with
      d := some last.byte, lb := some last.byte, rc := last.faults, mc := 10, ac := samples.length
      tr := s.tr ++ fastTrace s.cfg none samples, replies := more }

/-- R132, R133: when RDFAST returns, whatever the bus answered, the last eleven successful reads all
returned its value, no earlier eleven in a row were equal, and it took one `Delay(Rom)` for each sample
that differed from its predecessor. -/
def Obligations.RdfastReturnsOnlyStableValues : Prop :=
  ∀ s t : State, Accepting s → exec .rdfast s = .next t → t.work = [] → t.st = .idle →
    ∃ events before v, t.tr = s.tr ++ events ∧
      okReads events = before ++ List.replicate 11 v ∧
      t.lb = some v ∧ t.d = some v ∧ t.mc = 10 ∧ t.ac = (okReads events).length ∧
      (∀ taken rest w, before ++ List.replicate 11 v = taken ++ List.replicate 11 w ++ rest →
        rest = []) ∧
      delayCount .rom events = changes (okReads events)

/-- R135: with no ceiling RDFAST is in progress as long as the samples, with whatever retried attempts, hold
no eleven equal ones in a row, however many there are. -/
def Obligations.RdfastHangsWithoutAStableRun : Prop :=
  ∀ (s : State) (samples : List Sample), Accepting s → s.cfg.stabilizeCeiling = none →
    recovers s.cfg samples = true → ¬ HasStableRun (bytesOf samples) →
    answers (fastTrace s.cfg none samples) s.replies = true →
    ∃ t, exec .rdfast s = .next t ∧ t.work ≠ [] ∧ t.work.head? = some (.bus .read) ∧
      t = { s.sampled samples with rc := 0, replies := [], work := t.work }

/-- R132, R134: without eleven equal samples in a row, RDFAST raises StabilizationTimeout when it has taken
as many samples as its ceiling, and FatalTransportFault when all attempts at a sample fault; `LB`, `MC` and
`AC` are as the samples left them. -/
def Obligations.RdfastWithoutAStableRunFaults : Prop :=
  ∀ (s : State) (samples : List Sample) (replies more : List Reply), Accepting s →
    recovers s.cfg samples = true → ¬ HasStableRun (bytesOf samples) → s.replies = replies ++ more →
    (s.cfg.stabilizeCeiling = some samples.length →
      answers (fastTrace s.cfg none samples) replies = true →
      exec .rdfast s = .next { (s.sampled samples).abortedBy .stabilizationTimeout [] with
        rc := (samples.getLast?.map Sample.faults).getD s.rc, replies := more } ∧
      matchesOf (bytesOf samples) < 10) ∧
    ((∀ c, s.cfg.stabilizeCeiling = some c → samples.length < c) →
      answers (fastTrace s.cfg none samples ++ failedTrace s.cfg) replies = true →
      exec .rdfast s = .next { (s.sampled samples).readFailed with replies := more })

/-! ### CHKROM -/

/-- R150, R151: CHKROM probes `0x1000` to `0x100F` in order with single reads, each retried as RDBYTE does,
fills `S`, and sets `(V, VC)` by the checks, reporting a failure; it writes neither `ST` nor `FC`. A fatal
write, or a read whose attempts all fault, in a probe aborts it there; then no check is made and `V` and
`VC` are not written. -/
def Obligations.ChkromSamplesAndChecks : Prop :=
  ∀ (s : State) (probes : List Sample) (replies more : List Reply), Accepting s →
    recovers s.cfg probes = true →
    answers (probesTrace s.cfg 0 probes) replies = true →
    (probes.length = 16 → s.replies = replies ++ more →
      let verdict := checks s.cfg.checkAllOnes (bytesOf probes)
      exec .chkrom s = .next { s.probed probes with
        v := some (verdict == none)
        vc := some verdict
        tr := s.tr ++ probesTrace s.cfg 0 probes ++
          (match verdict with
           | none => []
           | some cause => [.report (.validation cause)])
        replies := more }) ∧
    (probes.length < 16 →
      let p := BitVec.ofNat 16 (romOffset + probes.length)
      ∀ (a b : Byte) (landed : Bool),
        (s.replies = replies ++ .ioFault landed :: more →
          exec .chkrom s = .next
            { (s.probed probes).writeFailed s.cfg.portWL (lowByte p) landed with replies := more }) ∧
        (s.replies = replies ++ .ok a :: .ioFault landed :: more →
          exec .chkrom s = .next
            { ((s.probed probes).lowWritten p).writeFailed s.cfg.portWH (highByte p) landed with
              replies := more }) ∧
        (∀ faults : List Bool, faults.length = s.cfg.maxRetries + 1 →
          s.replies = replies ++ .ok a :: .ok b :: faults.map .ioFault ++ more →
          exec .chkrom s = .next
            { (((s.probed probes).addressed p).delay .addr).readFailed with replies := more }))

/-- R152: the four outcomes the source fixes. -/
def Obligations.SourceValidatorOutcomes : Prop :=
  ∀ allOnes : Bool,
    checks allOnes (List.replicate 16 0x00#8) = some .absent ∧
    checks allOnes (List.replicate 16 0xFF#8) = some .miswired ∧
    checks allOnes ((List.range 16).map fun i => BitVec.ofNat 8 (i + 1)) = none ∧
    ∀ pairs : List Byte, pairs.length = 8 → pairs ≠ List.replicate 8 0x00#8 →
      checks allOnes (pairs.flatMap fun b => [b, b]) = some .miswired

/-- R153: the not-all-ones check is redundant on a sample of sixteen bytes. -/
def Obligations.NotAllOnesCheckIsRedundant : Prop :=
  ∀ sample : List Byte, sample.length = 16 → checks true sample = checks false sample

/-- R234: CHKROM and SCAN take a `DELAY(Addr)` between every address write and the next read: in what their
exec emits, and in every later step of a command that had to wait for the bus. -/
def Obligations.ValidatorAndScanSettleBeforeEveryRead : Prop :=
  (∀ (i : Instr) (s t : State), i = .chkrom ∨ i = .scan → exec i s = .next t → SettlesSince s.tr t) ∧
  ∀ (before : List Event) (s t : State), SettlesSince before s → s.work ≠ [] → ¬ ResetComes s →
    step s = .next t → SettlesSince before t

/-! ### SCAN -/

/-- R163, R204: an inconsistent size and method make SCAN raise ConfigurationFault before any bus
activity. -/
def Obligations.InconsistentScanFaultsBeforeTheBus : Prop :=
  ∀ s : State, Accepting s →
    effectiveMethod s.cfg ≠ .none →
    (hotspots (effectiveMethod s.cfg)).length < banksImplied s.cfg.romSize →
    exec .scan s = .next { s with
      st := .aborted, fc := .configurationFault, own := false
      tr := s.tr ++ [.report (.configuration .size), .rel] }

/-- R163, R164, R202, R205: before its loop SCAN is aborted by a sample that fails the checks
(ValidationFault with the cause, after the last probe), by a faulted write of CONFIG or of a probe, and by a
read of a probe whose attempts all fault. `BUF` and `X` are as they were and no image is flushed. -/
def Obligations.ScanAbortsBeforeItsLoop : Prop :=
  ∀ (s : State) (probes : List Sample) (replies more : List Reply), Accepting s →
    consistent s.cfg.romSize (effectiveMethod s.cfg) = true → recovers s.cfg probes = true →
    (∀ cause, probes.length = 16 → checks s.cfg.checkAllOnes (bytesOf probes) = some cause →
      answers (configTrace s.cfg ++ probesTrace s.cfg 0 probes) replies = true →
      s.replies = replies ++ more →
      ∃ t, exec .scan s = .next t ∧ t.v = some false ∧ t.vc = some (some cause) ∧
        EndsAborted s t (.validation cause) (configTrace s.cfg ++ probesTrace s.cfg 0 probes) s.x s.buf ∧
        t.replies = more) ∧
    (∀ (before after : List Event) (chip reg val : Byte) (landed : Bool), probes.length = 16 →
      configTrace s.cfg ++ probesTrace s.cfg 0 probes = before ++ .wr chip reg val .ok :: after →
      answers before replies = true → s.replies = replies ++ .ioFault landed :: more →
      ∃ t, exec .scan s = .next t ∧ t.v = s.v ∧ t.vc = s.vc ∧
        EndsAborted s t (.fatalTransport .write) (before ++ [.wr chip reg val .ioFault]) s.x s.buf ∧
        t.replies = more) ∧
    (probes.length < 16 →
      let events := configTrace s.cfg ++ probesTrace s.cfg 0 probes ++
        setAddressTrace s.cfg (BitVec.ofNat 16 (romOffset + probes.length)) ++ [.delay .addr] ++
        failedTrace s.cfg
      answers events replies = true → s.replies = replies ++ more →
      ∃ t, exec .scan s = .next t ∧ t.v = s.v ∧ t.vc = s.vc ∧ t.rc = s.cfg.maxRetries ∧
        EndsAborted s t (.fatalTransport .read) events s.x s.buf ∧ t.replies = more)

/-- R162, R166, R170: a scan of any size and any method that is consistent with it, whose sample passes,
whose writes do not fault and whose reads all return (after retried attempts, and with the stabilizing
reader after noise), ends in `Finalized`: its trace is the direction writes, the probes, for each offset in
ascending order the bank switch, the target address, the delay and the read, then the image and the release
of the bus; `BUF` is the bytes the reads returned, in order. -/
def Obligations.ScanProducesTheImage : Prop :=
  ∀ (s : State) (probes : List Sample) (reads : List (List Sample)) (replies more : List Reply),
    Accepting s →
    consistent s.cfg.romSize (effectiveMethod s.cfg) = true →
    probes.length = 16 → recovers s.cfg probes = true →
    checks s.cfg.checkAllOnes (bytesOf probes) = none →
    reads.length = s.cfg.romSize → (∀ samples ∈ reads, Fetches s.cfg samples) →
    answers (scanTrace s.cfg probes reads) replies = true → s.replies = replies ++ more →
    ∃ t, exec .scan s = .next t ∧ t.cfg = s.cfg ∧ t.st = .finalized ∧ t.x = s.cfg.romSize ∧
      t.buf = imageOf reads ∧ t.buf.length = s.cfg.romSize ∧ t.own = false ∧ t.fc = s.fc ∧
      t.d = (bytesOf probes ++ imageOf reads).getLast? ∧
      some t.rc = (probes ++ reads.flatten).getLast?.map Sample.faults ∧
      sampleBytes t.sample = some (bytesOf probes) ∧ t.v = some true ∧ t.vc = some none ∧
      (s.cfg.stabilize = false ∨ reads = [] → t.lb = s.lb ∧ t.mc = s.mc ∧ t.ac = s.ac) ∧
      (s.cfg.stabilize = true ∧ reads ≠ [] → t.lb = (imageOf reads).getLast? ∧ t.mc = 10 ∧
        some t.ac = reads.getLast?.map List.length) ∧
      t.tr = s.tr ++ scanTrace s.cfg probes reads ∧
      t.env = s.env.afterWrites s.cfg (scanTrace s.cfg probes reads) ∧
      t.work = [] ∧ t.inputs = s.inputs ∧ t.replies = more

/-- R166, R201, R202, R208, R211: in its loop SCAN is aborted at offset `x = reads.length` by a faulted
write of the pulse or of the target address, by a read whose attempts all fault (with either reader), and by
StabilizationTimeout. `X` is that offset, `BUF` the bytes before it, and nothing is flushed. -/
def Obligations.FaultInTheScanLoopKeepsTheBytesBefore : Prop :=
  ∀ (s : State) (probes : List Sample) (reads : List (List Sample)) (replies more : List Reply),
    Accepting s →
    consistent s.cfg.romSize (effectiveMethod s.cfg) = true →
    probes.length = 16 → recovers s.cfg probes = true →
    checks s.cfg.checkAllOnes (bytesOf probes) = none →
    reads.length < s.cfg.romSize → (∀ samples ∈ reads, Fetches s.cfg samples) →
    let x := reads.length
    let start := loopTrace s.cfg probes reads
    (∀ (before after : List Event) (chip reg val : Byte) (landed : Bool),
      targetTrace s.cfg x = before ++ .wr chip reg val .ok :: after →
      answers (start ++ before) replies = true → s.replies = replies ++ .ioFault landed :: more →
      ∃ t, exec .scan s = .next t ∧ t.replies = more ∧ outputs t.tr = outputs s.tr ∧
        EndsAborted s t (.fatalTransport .write) (start ++ before ++ [.wr chip reg val .ioFault]) x
          (imageOf reads)) ∧
    (∀ samples : List Sample, recovers s.cfg samples = true →
      (if s.cfg.stabilize then ¬ HasStableRun (bytesOf samples) ∧
        ∀ c, s.cfg.stabilizeCeiling = some c → samples.length < c else samples = []) →
      let events := start ++ targetTrace s.cfg x ++ fetchTrace s.cfg samples ++ failedTrace s.cfg
      answers events replies = true → s.replies = replies ++ more →
      ∃ t, exec .scan s = .next t ∧ t.replies = more ∧ outputs t.tr = outputs s.tr ∧
        t.rc = s.cfg.maxRetries ∧ EndsAborted s t (.fatalTransport .read) events x (imageOf reads)) ∧
    (∀ samples : List Sample, recovers s.cfg samples = true → s.cfg.stabilize = true →
      ¬ HasStableRun (bytesOf samples) → s.cfg.stabilizeCeiling = some samples.length →
      let events := start ++ targetTrace s.cfg x ++ fetchTrace s.cfg samples
      answers events replies = true → s.replies = replies ++ more →
      ∃ t, exec .scan s = .next t ∧ t.replies = more ∧ outputs t.tr = outputs s.tr ∧
        t.ac = samples.length ∧ EndsAborted s t .stabilizationTimeout events x (imageOf reads))

/-- R172: the counts of the events a SCAN appends that meets no fault and no noise, and the number of pulses
of a scan of full banks (R113). -/
def Obligations.QuietScanCounts : Prop :=
  (∀ (s : State) (sample bytes : List Byte) (replies more : List Reply), Accepting s →
    consistent s.cfg.romSize (effectiveMethod s.cfg) = true →
    (s.cfg.stabilize = true → ∀ c, s.cfg.stabilizeCeiling = some c → 11 ≤ c) →
    sample.length = 16 → bytes.length = s.cfg.romSize →
    checks s.cfg.checkAllOnes sample = none →
    answers (scanTrace s.cfg (sample.map (Sample.mk 0)) (bytes.map (quietSamples s.cfg))) replies = true →
    s.replies = replies ++ more →
    let n := s.cfg.romSize
    let k := triggerCount (effectiveMethod s.cfg) n
    ∃ t events, exec .scan s = .next t ∧ t.st = .finalized ∧ t.tr = s.tr ++ events ∧
      writeCount events = 3 + 32 + 2 * n + 2 * k ∧ delayCount .addr events = 16 + n + k ∧
      readCount events = 16 + (if s.cfg.stabilize then 11 * n else n) ∧
      delayCount .retry events = 0 ∧ delayCount .rom events = 0 ∧
      waitedTime s.cfg events = (16 + n + k) * s.cfg.addrDelay) ∧
  ∀ k : Nat, triggerCount .none k = 0 ∧ triggerCount .f8 (4096 * k) = 3 * k ∧
    triggerCount .f6 (4096 * k) = 5 * k

/-- R171: scanning a 4096-byte ROM with method `None` on a bus that answers every read with the low byte of
the address then on the lines gives an image whose byte `i` is `i mod 256`, with either reader. The bus
answers one transaction a step; the ports are wired as R231 asks, so that both write ports stay outputs. -/
def Obligations.MockBusImage : Prop :=
  ∀ s : State, Accepting s → ¬ ResetComes s → s.replies = [] →
    s.cfg.romSize = 4096 → s.cfg.methodOverride = .auto →
    (∀ c, s.cfg.stabilizeCeiling = some c → 11 ≤ c) → s.cfg.portWL ≠ s.cfg.portWH →
    iodirReg s.cfg.portRD ≠ iodirReg s.cfg.portWL → iodirReg s.cfg.portRD ≠ iodirReg s.cfg.portWH →
    ∃ started n t image, exec .scan s = .next started ∧ mockRun n started = .next t ∧
      t.st = .finalized ∧ t.work = [] ∧
      t.tr.getLast? = some .rel ∧ t.tr.dropLast.getLast? = some (.out image) ∧
      image.length = 4096 ∧ ∀ i, i < 4096 → image[i]? = some (BitVec.ofNat 8 (i % 256))

/-! ### Fault entry -/

/-- R207: fault entry writes `FC`, `ST` and `OWN`, reports the fault unless it is a ValidationFault,
releases the bus, ends the operation in progress, and changes nothing else. -/
def Obligations.FaultEntry : Prop :=
  ∀ (s : State) (r : Report),
    s.raise r = { s with
      fc := r.faultCause, st := .aborted, own := false, work := []
      tr := s.tr ++ (match r with | .validation _ => [] | r => [Event.report r]) ++ [.rel] }
end

