-- ==== Sys2Proof/Laws/Memory.lean ====
section
/-! SUPPORT. The register space: a read after a write, and the canonical form. -/

namespace Sys2Proof.Machine

open Sys2Proof

theorem Memory.read_write_same (m : Memory) (loc : Nat) (v : Byte) :
    Memory.read (Memory.write m loc v) loc = some v := by
  induction m with
  | nil => simp [Memory.write, Memory.read]
  | cons c rest ih =>
    obtain ⟨a, b⟩ := c
    simp only [Memory.write]
    split
    · simp [Memory.read]
    · split
      · simp [Memory.read]
      · rename_i h1 h2
        simp [Memory.read, Ne.symm h2, ih]

theorem Memory.read_write_other (m : Memory) {loc loc' : Nat} (v : Byte) (h : loc' ≠ loc) :
    Memory.read (Memory.write m loc v) loc' = Memory.read m loc' := by
  induction m with
  | nil => simp [Memory.write, Memory.read, Ne.symm h]
  | cons c rest ih =>
    obtain ⟨a, b⟩ := c
    simp only [Memory.write]
    split
    · simp [Memory.read, Ne.symm h]
    · split
      · rename_i _ h2
        subst h2
        simp [Memory.read, Ne.symm h]
      · simp [Memory.read, ih]

theorem Memory.wf_cons_iff (a : Nat) (b : Byte) (rest : Memory) :
    Memory.wf ((a, b) :: rest) = true ↔
      a < 65536 ∧ (∀ c ∈ rest, a < c.1) ∧ Memory.wf rest = true := by
  induction rest generalizing a b with
  | nil => simp [Memory.wf]
  | cons c rest ih =>
    obtain ⟨a', b'⟩ := c
    rw [show Memory.wf ((a, b) :: (a', b') :: rest) =
      (decide (a < a') && Memory.wf ((a', b') :: rest)) from rfl]
    constructor
    · intro h
      simp only [Bool.and_eq_true, decide_eq_true_eq] at h
      obtain ⟨h1, h2⟩ := h
      obtain ⟨h3, h4, _⟩ := (ih a' b').mp h2
      refine ⟨by omega, ?_, h2⟩
      intro c hc
      rcases List.mem_cons.mp hc with rfl | hc
      · exact h1
      · exact Nat.lt_trans h1 (h4 c hc)
    · rintro ⟨_, h2, h3⟩
      simp [h3, h2 (a', b') (by simp)]

theorem Memory.mem_write {m : Memory} {loc : Nat} {v : Byte} {c : Host.Cell}
    (h : c ∈ Memory.write m loc v) : c = (loc, v) ∨ c ∈ m := by
  induction m with
  | nil => simpa [Memory.write] using h
  | cons c' rest ih =>
    obtain ⟨a, b⟩ := c'
    simp only [Memory.write] at h
    split at h
    · simpa using h
    · split at h
      · rcases List.mem_cons.mp h with h | h
        · exact .inl h
        · exact .inr (List.mem_cons_of_mem _ h)
      · rcases List.mem_cons.mp h with h | h
        · exact .inr (by simp [h])
        · rcases ih h with h | h
          · exact .inl h
          · exact .inr (List.mem_cons_of_mem _ h)

/-- A write inside the register space keeps the canonical form. -/
theorem Memory.wf_write {m : Memory} {loc : Nat} (v : Byte) (hl : loc < 65536)
    (h : Memory.wf m = true) : Memory.wf (Memory.write m loc v) = true := by
  induction m with
  | nil => simpa [Memory.write, Memory.wf] using hl
  | cons c rest ih =>
    obtain ⟨a, b⟩ := c
    obtain ⟨h1, h2, h3⟩ := (Memory.wf_cons_iff a b rest).mp h
    simp only [Memory.write]
    split
    · rename_i hlt
      refine (Memory.wf_cons_iff _ _ _).mpr ⟨hl, ?_, h⟩
      intro c hc
      rcases List.mem_cons.mp hc with rfl | hc
      · exact hlt
      · exact Nat.lt_trans hlt (h2 c hc)
    · split
      · rename_i _ heq
        subst heq
        exact (Memory.wf_cons_iff _ _ _).mpr ⟨hl, h2, h3⟩
      · rename_i hnlt hne
        refine (Memory.wf_cons_iff _ _ _).mpr ⟨h1, ?_, ih h3⟩
        intro c hc
        rcases Memory.mem_write hc with rfl | hc
        · show a < loc
          omega
        · exact h2 c hc

/-- A byte read stands in the list. -/
theorem Memory.mem_of_read {m : Memory} {loc : Nat} {v : Byte} (h : Memory.read m loc = some v) :
    (loc, v) ∈ m := by
  induction m with
  | nil => cases h
  | cons c rest ih =>
    obtain ⟨a, b⟩ := c
    simp only [Memory.read] at h
    split at h
    · rename_i ha
      cases h
      simp [ha]
    · exact List.mem_cons_of_mem _ (ih h)

/-- Writing the byte a location holds changes nothing. -/
theorem Memory.write_of_read {m : Memory} {loc : Nat} {v : Byte} (hm : Memory.wf m = true)
    (h : Memory.read m loc = some v) : Memory.write m loc v = m := by
  induction m with
  | nil => cases h
  | cons c rest ih =>
    obtain ⟨a, b⟩ := c
    obtain ⟨_, h2, h3⟩ := (Memory.wf_cons_iff a b rest).mp hm
    by_cases ha : a = loc
    · subst ha
      simp only [Memory.read, if_true] at h
      cases h
      simp [Memory.write]
    · simp only [Memory.read, ha, if_false] at h
      have hlt : a < loc := h2 _ (Memory.mem_of_read h)
      have h4 : ¬ loc < a := by omega
      have h5 : ¬ loc = a := by omega
      simp only [Memory.write, h4, h5, if_false, ih h3 h]

theorem location_lt (chip reg : Byte) : location chip reg < 65536 := by
  have h1 := chip.isLt
  have h2 := reg.isLt
  unfold location
  omega

theorem location_injective {chip reg chip' reg' : Byte} (h : location chip reg = location chip' reg') :
    chip = chip' ∧ reg = reg' := by
  have h1 := chip.isLt
  have h2 := reg.isLt
  have h3 := chip'.isLt
  have h4 := reg'.isLt
  unfold location at h
  constructor <;> apply BitVec.eq_of_toNat_eq <;> omega

/-- Two ports share a data register only if they are the same port (R44). -/
theorem gpioReg_injective {P Q : Port} (h : gpioReg P = gpioReg Q) : P = Q := by
  obtain ⟨c, b⟩ := P
  obtain ⟨c', b'⟩ := Q
  obtain ⟨h1, h2⟩ := location_injective h
  simp only at h1 h2
  subst h1
  cases b <;> cases b' <;> first | rfl | (exact absurd h2 (by decide))

/-- No data register is a direction register (R44). -/
theorem iodirReg_ne_gpioReg (P Q : Port) : iodirReg P ≠ gpioReg Q := by
  intro h
  obtain ⟨_, h2⟩ := location_injective h
  revert h2
  cases P.bank <;> cases Q.bank <;> decide

@[simp] theorem Env.write_regs (cfg : Cfg) (e : Env) (loc : Nat) (v : Byte) :
    (e.write cfg loc v).regs = Memory.write e.regs loc v := rfl

/-- A write after which the lines show the known address they showed before leaves the latch and the
counter (R160 (d)). -/
theorem Env.write_of_same_lines {cfg : Cfg} {e : Env} {loc : Nat} {v : Byte} {address : Lines}
    (h : addressLines cfg e.regs = some address)
    (h' : addressLines cfg (Memory.write e.regs loc v) = some address) :
    e.write cfg loc v = { e with regs := Memory.write e.regs loc v } := by
  simp [Env.write, latchAfter, h, h']

/-- A write after which the lines show no known address leaves the latch unspecified (R32). -/
theorem Env.write_latch_of_no_lines {cfg : Cfg} {e : Env} {loc : Nat} {v : Byte}
    (h : addressLines cfg (Memory.write e.regs loc v) = none) : (e.write cfg loc v).latch = none := by
  simp [Env.write, latchAfter, h]

/-- A landed write keeps the register space canonical. -/
theorem Env.wf_write {cfg : Cfg} {e : Env} {loc : Nat} (v : Byte) (hl : loc < 65536)
    (h : Memory.wf e.regs = true) : Memory.wf (e.write cfg loc v).regs = true :=
  Memory.wf_write v hl h

/-- What an answered write does to the environment: the register takes the value, or nothing happens. -/
theorem Env.answered_cases (cfg : Cfg) (e : Env) (loc : Nat) (v : Byte) (reply : Reply) :
    (e.answered cfg loc v reply = e.write cfg loc v ∧ reply ≠ .ioFault false) ∨
      (e.answered cfg loc v reply = e ∧ reply = .ioFault false) := by
  cases reply with
  | ok _ => exact .inl ⟨rfl, by simp⟩
  | ioFault landed => cases landed <;> simp [Env.answered]

end Sys2Proof.Machine
end

