-- ==== Sys2Proof/Laws/PerInstr.lean ====
section
/-! SUPPORT. Per-instruction facts: a command is the spelling of its call form (R70). -/

namespace Sys2Proof.Laws

open Sys2Proof

/-- The command that spells the call form of `i` is `i`. -/
def SpellsItsCallForm.Statement (i : Instr) : Prop := i.callForm.instr = i

theorem SpellsItsCallForm.config : SpellsItsCallForm.Statement .config := rfl
theorem SpellsItsCallForm.setaddr (p : Half) : SpellsItsCallForm.Statement (.setaddr p) := rfl
theorem SpellsItsCallForm.bankswNone (a : Nat) : SpellsItsCallForm.Statement (.bankswNone a) := rfl
theorem SpellsItsCallForm.bankswF8 (a : Nat) : SpellsItsCallForm.Statement (.bankswF8 a) := rfl
theorem SpellsItsCallForm.bankswF6 (a : Nat) : SpellsItsCallForm.Statement (.bankswF6 a) := rfl
theorem SpellsItsCallForm.rdbyte : SpellsItsCallForm.Statement .rdbyte := rfl
theorem SpellsItsCallForm.rdfast : SpellsItsCallForm.Statement .rdfast := rfl
theorem SpellsItsCallForm.chkrom : SpellsItsCallForm.Statement .chkrom := rfl
theorem SpellsItsCallForm.scan : SpellsItsCallForm.Statement .scan := rfl
theorem SpellsItsCallForm.settle : SpellsItsCallForm.Statement .settle := rfl

end Sys2Proof.Laws
end

