-- ==== Sys2Proof/Laws/State.lean ====
section
/-! SUPPORT. What the named updates of the state do to each field. -/

namespace Sys2Proof.Machine

open Sys2Proof

/-- The events of fault entry (R207). -/
def Report.events : Report → List Event
  | .validation _ => [.rel]
  | r => [.report r, .rel]

/-! ### `State.emit` (R26) -/

@[simp] theorem State.emit_cfg (s : State) (e : Event) : (s.emit e).cfg = s.cfg := rfl
@[simp] theorem State.emit_st (s : State) (e : Event) : (s.emit e).st = s.st := rfl
@[simp] theorem State.emit_x (s : State) (e : Event) : (s.emit e).x = s.x := rfl
@[simp] theorem State.emit_buf (s : State) (e : Event) : (s.emit e).buf = s.buf := rfl
@[simp] theorem State.emit_own (s : State) (e : Event) : (s.emit e).own = s.own := rfl
@[simp] theorem State.emit_d (s : State) (e : Event) : (s.emit e).d = s.d := rfl
@[simp] theorem State.emit_rc (s : State) (e : Event) : (s.emit e).rc = s.rc := rfl
@[simp] theorem State.emit_lb (s : State) (e : Event) : (s.emit e).lb = s.lb := rfl
@[simp] theorem State.emit_mc (s : State) (e : Event) : (s.emit e).mc = s.mc := rfl
@[simp] theorem State.emit_ac (s : State) (e : Event) : (s.emit e).ac = s.ac := rfl
@[simp] theorem State.emit_sample (s : State) (e : Event) : (s.emit e).sample = s.sample := rfl
@[simp] theorem State.emit_v (s : State) (e : Event) : (s.emit e).v = s.v := rfl
@[simp] theorem State.emit_vc (s : State) (e : Event) : (s.emit e).vc = s.vc := rfl
@[simp] theorem State.emit_fc (s : State) (e : Event) : (s.emit e).fc = s.fc := rfl
@[simp] theorem State.emit_tr (s : State) (e : Event) : (s.emit e).tr = s.tr ++ [e] := rfl
@[simp] theorem State.emit_env (s : State) (e : Event) : (s.emit e).env = s.env := rfl
@[simp] theorem State.emit_work (s : State) (e : Event) : (s.emit e).work = s.work := rfl
@[simp] theorem State.emit_inputs (s : State) (e : Event) :
    (s.emit e).inputs = s.inputs := rfl
@[simp] theorem State.emit_replies (s : State) (e : Event) : (s.emit e).replies = s.replies := rfl

/-! ### `State.delay` (R214) -/

@[simp] theorem State.delay_cfg (s : State) (k : DelayKind) : (s.delay k).cfg = s.cfg := rfl
@[simp] theorem State.delay_st (s : State) (k : DelayKind) : (s.delay k).st = s.st := rfl
@[simp] theorem State.delay_x (s : State) (k : DelayKind) : (s.delay k).x = s.x := rfl
@[simp] theorem State.delay_buf (s : State) (k : DelayKind) : (s.delay k).buf = s.buf := rfl
@[simp] theorem State.delay_own (s : State) (k : DelayKind) : (s.delay k).own = s.own := rfl
@[simp] theorem State.delay_d (s : State) (k : DelayKind) : (s.delay k).d = s.d := rfl
@[simp] theorem State.delay_rc (s : State) (k : DelayKind) : (s.delay k).rc = s.rc := rfl
@[simp] theorem State.delay_lb (s : State) (k : DelayKind) : (s.delay k).lb = s.lb := rfl
@[simp] theorem State.delay_mc (s : State) (k : DelayKind) : (s.delay k).mc = s.mc := rfl
@[simp] theorem State.delay_ac (s : State) (k : DelayKind) : (s.delay k).ac = s.ac := rfl
@[simp] theorem State.delay_sample (s : State) (k : DelayKind) :
    (s.delay k).sample = s.sample := rfl
@[simp] theorem State.delay_v (s : State) (k : DelayKind) : (s.delay k).v = s.v := rfl
@[simp] theorem State.delay_vc (s : State) (k : DelayKind) : (s.delay k).vc = s.vc := rfl
@[simp] theorem State.delay_fc (s : State) (k : DelayKind) : (s.delay k).fc = s.fc := rfl
@[simp] theorem State.delay_tr (s : State) (k : DelayKind) :
    (s.delay k).tr = s.tr ++ [.delay k] := rfl
@[simp] theorem State.delay_env (s : State) (k : DelayKind) : (s.delay k).env = s.env := rfl
@[simp] theorem State.delay_work (s : State) (k : DelayKind) : (s.delay k).work = s.work := rfl
@[simp] theorem State.delay_inputs (s : State) (k : DelayKind) :
    (s.delay k).inputs = s.inputs := rfl
@[simp] theorem State.delay_replies (s : State) (k : DelayKind) :
    (s.delay k).replies = s.replies := rfl

/-! ### `State.raise` (R207) -/

@[simp] theorem State.raise_cfg (s : State) (r : Report) :
    (s.raise r).cfg = s.cfg := by cases r <;> rfl
@[simp] theorem State.raise_st (s : State) (r : Report) :
    (s.raise r).st = .aborted := by cases r <;> rfl
@[simp] theorem State.raise_x (s : State) (r : Report) : (s.raise r).x = s.x := by cases r <;> rfl
@[simp] theorem State.raise_buf (s : State) (r : Report) :
    (s.raise r).buf = s.buf := by cases r <;> rfl
@[simp] theorem State.raise_own (s : State) (r : Report) :
    (s.raise r).own = false := by cases r <;> rfl
@[simp] theorem State.raise_d (s : State) (r : Report) : (s.raise r).d = s.d := by cases r <;> rfl
@[simp] theorem State.raise_rc (s : State) (r : Report) :
    (s.raise r).rc = s.rc := by cases r <;> rfl
@[simp] theorem State.raise_lb (s : State) (r : Report) :
    (s.raise r).lb = s.lb := by cases r <;> rfl
@[simp] theorem State.raise_mc (s : State) (r : Report) :
    (s.raise r).mc = s.mc := by cases r <;> rfl
@[simp] theorem State.raise_ac (s : State) (r : Report) :
    (s.raise r).ac = s.ac := by cases r <;> rfl
@[simp] theorem State.raise_sample (s : State) (r : Report) :
    (s.raise r).sample = s.sample := by cases r <;> rfl
@[simp] theorem State.raise_v (s : State) (r : Report) : (s.raise r).v = s.v := by cases r <;> rfl
@[simp] theorem State.raise_vc (s : State) (r : Report) :
    (s.raise r).vc = s.vc := by cases r <;> rfl
@[simp] theorem State.raise_fc (s : State) (r : Report) :
    (s.raise r).fc = r.faultCause := by cases r <;> rfl
@[simp] theorem State.raise_tr (s : State) (r : Report) :
    (s.raise r).tr = s.tr ++ r.events := by
  cases r <;> simp [State.raise, State.emit, Report.events]
@[simp] theorem State.raise_env (s : State) (r : Report) :
    (s.raise r).env = s.env := by cases r <;> rfl
@[simp] theorem State.raise_work (s : State) (r : Report) :
    (s.raise r).work = [] := by cases r <;> rfl
@[simp] theorem State.raise_inputs (s : State) (r : Report) :
    (s.raise r).inputs = s.inputs := by cases r <;> rfl
@[simp] theorem State.raise_replies (s : State) (r : Report) :
    (s.raise r).replies = s.replies := by cases r <;> rfl

/-! ### `State.finalize` (R170) -/

@[simp] theorem State.finalize_cfg (s : State) : (s.finalize).cfg = s.cfg := rfl
@[simp] theorem State.finalize_st (s : State) : (s.finalize).st = .finalized := rfl
@[simp] theorem State.finalize_x (s : State) : (s.finalize).x = s.x := rfl
@[simp] theorem State.finalize_buf (s : State) : (s.finalize).buf = s.buf := rfl
@[simp] theorem State.finalize_own (s : State) : (s.finalize).own = false := rfl
@[simp] theorem State.finalize_d (s : State) : (s.finalize).d = s.d := rfl
@[simp] theorem State.finalize_rc (s : State) : (s.finalize).rc = s.rc := rfl
@[simp] theorem State.finalize_lb (s : State) : (s.finalize).lb = s.lb := rfl
@[simp] theorem State.finalize_mc (s : State) : (s.finalize).mc = s.mc := rfl
@[simp] theorem State.finalize_ac (s : State) : (s.finalize).ac = s.ac := rfl
@[simp] theorem State.finalize_sample (s : State) : (s.finalize).sample = s.sample := rfl
@[simp] theorem State.finalize_v (s : State) : (s.finalize).v = s.v := rfl
@[simp] theorem State.finalize_vc (s : State) : (s.finalize).vc = s.vc := rfl
@[simp] theorem State.finalize_fc (s : State) : (s.finalize).fc = s.fc := rfl
@[simp] theorem State.finalize_tr (s : State) :
    (s.finalize).tr = s.tr ++ [.out s.buf, .rel] := by
  simp [State.finalize, State.emit]
@[simp] theorem State.finalize_env (s : State) : (s.finalize).env = s.env := rfl
@[simp] theorem State.finalize_work (s : State) : (s.finalize).work = [] := rfl
@[simp] theorem State.finalize_inputs (s : State) : (s.finalize).inputs = s.inputs := rfl
@[simp] theorem State.finalize_replies (s : State) : (s.finalize).replies = s.replies := rfl

/-! ### `State.writeRegister` (R47) -/

@[simp] theorem State.writeRegister_cfg (s : State) (chip reg val : Byte) (reply : Reply) :
    (s.writeRegister chip reg val reply).cfg = s.cfg := rfl
@[simp] theorem State.writeRegister_st (s : State) (chip reg val : Byte) (reply : Reply) :
    (s.writeRegister chip reg val reply).st = s.st := rfl
@[simp] theorem State.writeRegister_x (s : State) (chip reg val : Byte) (reply : Reply) :
    (s.writeRegister chip reg val reply).x = s.x := rfl
@[simp] theorem State.writeRegister_buf (s : State) (chip reg val : Byte) (reply : Reply) :
    (s.writeRegister chip reg val reply).buf = s.buf := rfl
@[simp] theorem State.writeRegister_own (s : State) (chip reg val : Byte) (reply : Reply) :
    (s.writeRegister chip reg val reply).own = s.own := rfl
@[simp] theorem State.writeRegister_d (s : State) (chip reg val : Byte) (reply : Reply) :
    (s.writeRegister chip reg val reply).d = s.d := rfl
@[simp] theorem State.writeRegister_rc (s : State) (chip reg val : Byte) (reply : Reply) :
    (s.writeRegister chip reg val reply).rc = s.rc := rfl
@[simp] theorem State.writeRegister_lb (s : State) (chip reg val : Byte) (reply : Reply) :
    (s.writeRegister chip reg val reply).lb = s.lb := rfl
@[simp] theorem State.writeRegister_mc (s : State) (chip reg val : Byte) (reply : Reply) :
    (s.writeRegister chip reg val reply).mc = s.mc := rfl
@[simp] theorem State.writeRegister_ac (s : State) (chip reg val : Byte) (reply : Reply) :
    (s.writeRegister chip reg val reply).ac = s.ac := rfl
@[simp] theorem State.writeRegister_sample (s : State) (chip reg val : Byte) (reply : Reply) :
    (s.writeRegister chip reg val reply).sample = s.sample := rfl
@[simp] theorem State.writeRegister_v (s : State) (chip reg val : Byte) (reply : Reply) :
    (s.writeRegister chip reg val reply).v = s.v := rfl
@[simp] theorem State.writeRegister_vc (s : State) (chip reg val : Byte) (reply : Reply) :
    (s.writeRegister chip reg val reply).vc = s.vc := rfl
@[simp] theorem State.writeRegister_fc (s : State) (chip reg val : Byte) (reply : Reply) :
    (s.writeRegister chip reg val reply).fc = s.fc := rfl
@[simp] theorem State.writeRegister_tr (s : State) (chip reg val : Byte) (reply : Reply) :
    (s.writeRegister chip reg val reply).tr = s.tr ++ [.wr chip reg val (writeResult reply)] := rfl
@[simp] theorem State.writeRegister_env (s : State) (chip reg val : Byte) (reply : Reply) :
    (s.writeRegister chip reg val reply).env = s.env.answered s.cfg (location chip reg) val reply := rfl
@[simp] theorem State.writeRegister_work (s : State) (chip reg val : Byte) (reply : Reply) :
    (s.writeRegister chip reg val reply).work = s.work := rfl
@[simp] theorem State.writeRegister_inputs (s : State) (chip reg val : Byte) (reply : Reply) :
    (s.writeRegister chip reg val reply).inputs = s.inputs := rfl
@[simp] theorem State.writeRegister_replies (s : State) (chip reg val : Byte) (reply : Reply) :
    (s.writeRegister chip reg val reply).replies = s.replies := rfl

/-! ### `State.applyReset` (R230) and the two ends of the interface -/

@[simp] theorem State.applyReset_cfg (s : State) (cfg : Cfg) : (s.applyReset cfg).cfg = cfg := rfl
@[simp] theorem State.applyReset_st (s : State) (cfg : Cfg) : (s.applyReset cfg).st = .idle := rfl
@[simp] theorem State.applyReset_x (s : State) (cfg : Cfg) : (s.applyReset cfg).x = 0 := rfl
@[simp] theorem State.applyReset_buf (s : State) (cfg : Cfg) : (s.applyReset cfg).buf = [] := rfl
@[simp] theorem State.applyReset_own (s : State) (cfg : Cfg) : (s.applyReset cfg).own = true := rfl
@[simp] theorem State.applyReset_d (s : State) (cfg : Cfg) : (s.applyReset cfg).d = none := rfl
@[simp] theorem State.applyReset_rc (s : State) (cfg : Cfg) : (s.applyReset cfg).rc = 0 := rfl
@[simp] theorem State.applyReset_lb (s : State) (cfg : Cfg) : (s.applyReset cfg).lb = none := rfl
@[simp] theorem State.applyReset_mc (s : State) (cfg : Cfg) : (s.applyReset cfg).mc = 0 := rfl
@[simp] theorem State.applyReset_ac (s : State) (cfg : Cfg) : (s.applyReset cfg).ac = 0 := rfl
@[simp] theorem State.applyReset_sample (s : State) (cfg : Cfg) :
    (s.applyReset cfg).sample = Vector.replicate 16 none := rfl
@[simp] theorem State.applyReset_v (s : State) (cfg : Cfg) : (s.applyReset cfg).v = none := rfl
@[simp] theorem State.applyReset_vc (s : State) (cfg : Cfg) : (s.applyReset cfg).vc = none := rfl
@[simp] theorem State.applyReset_fc (s : State) (cfg : Cfg) : (s.applyReset cfg).fc = .none := rfl
@[simp] theorem State.applyReset_tr (s : State) (cfg : Cfg) : (s.applyReset cfg).tr = [] := rfl
@[simp] theorem State.applyReset_env (s : State) (cfg : Cfg) : (s.applyReset cfg).env = s.env := rfl
@[simp] theorem State.applyReset_work (s : State) (cfg : Cfg) : (s.applyReset cfg).work = [] := rfl
@[simp] theorem State.applyReset_inputs (s : State) (cfg : Cfg) :
    (s.applyReset cfg).inputs = s.inputs := rfl
@[simp] theorem State.applyReset_replies (s : State) (cfg : Cfg) :
    (s.applyReset cfg).replies = s.replies := rfl

theorem State.withBusAnswer_of_reply {s : State} {r : Reply} {rest : List Reply}
    (h : s.replies = r :: rest) : s.withBusAnswer = s := by
  unfold State.withBusAnswer
  rw [h]

theorem State.withBusAnswer_of_none {s : State} (h : s.replies = []) :
    s.withBusAnswer =
      { s with
        replies := [Config.busReply s.env.draws]
        env := { s.env with draws := s.env.draws + 1 } } := by
  unfold State.withBusAnswer
  rw [h]

end Sys2Proof.Machine
end

