-- ==== Sys2Proof/Laws/Run.lean ====
section
/-! SUPPORT. What running an operation can do, said once: the equations of `advance` and `run`, the
inversion of `drive`, `issue` and `commandStep`, and the induction over the actions and answers of a run. -/

namespace Sys2Proof.Machine

open Sys2Proof

/-! ### Equations -/

@[simp] theorem andThen_next (s : State) (f : State → Host.Outcome State Fault Refusal) :
    andThen (.next s) f = f s := rfl

@[simp] theorem andThen_fault (r : Fault) (f : State → Host.Outcome State Fault Refusal) :
    andThen (.fault r) f = .fault r := rfl

@[simp] theorem andThen_refused (r : Refusal) (f : State → Host.Outcome State Fault Refusal) :
    andThen (.refused r) f = .refused r := rfl

theorem andThen_eq_next {o : Host.Outcome State Fault Refusal}
    {f : State → Host.Outcome State Fault Refusal} {t : State} (h : andThen o f = .next t) :
    ∃ s, o = .next s ∧ f s = .next t := by
  cases o with
  | next s => exact ⟨s, rfl, h⟩
  | fault r => cases h
  | refused r => cases h

@[simp] theorem advance_nil (s : State) : advance [] s = .next { s with work := [] } := rfl

@[simp] theorem advance_bus (t : Transaction) (rest : List Task) (s : State) :
    advance (.bus t :: rest) s = .next { s with work := .bus t :: rest } := rfl

theorem advance_go {a : Action} {s s' : State} (rest : List Task) (h : perform a s = .go s') :
    advance (.act a :: rest) s = advance rest s' := by
  simp [advance, h]

theorem advance_wait {a : Action} {s s' : State} {tasks : List Task} (rest : List Task)
    (h : perform a s = .wait tasks s') :
    advance (.act a :: rest) s = .next { s' with work := tasks ++ rest } := by
  simp [advance, h]

theorem advance_stop {a : Action} {s s' : State} (rest : List Task) (h : perform a s = .stop s') :
    advance (.act a :: rest) s = .next { s' with work := [] } := by
  simp [advance, h]

theorem advance_noValue {a : Action} {s : State} {r : ValuelessRegister} (rest : List Task)
    (h : perform a s = .noValue r) : advance (.act a :: rest) s = .fault (.noValue r) := by
  simp [advance, h]

@[simp] theorem run_nil (s : State) : run [] s = .next { s with replies := [] } := rfl

theorem run_bus {s : State} {t : Transaction} {rest : List Task} (reply : Reply)
    (replies : List Reply) (h : s.work = .bus t :: rest) :
    run (reply :: replies) s =
      andThen (advance (s.answer t rest reply).work (s.answer t rest reply)) (run replies) := by
  simp only [run, h]

theorem run_act {s : State} {a : Action} {rest : List Task} (replies : List Reply)
    (h : s.work = .act a :: rest) : run replies s = .next { s with replies := replies } := by
  cases replies with
  | nil => rfl
  | cons reply replies => simp only [run, h]

theorem run_done {s : State} (replies : List Reply) (h : s.work = []) :
    run replies s = .next { s with replies := replies } := by
  cases replies with
  | nil => rfl
  | cons reply replies => simp only [run, h]

/-! ### Inversion -/

/-- A running operation goes on only through `advance`, so `advance` never refuses. -/
theorem advance_ne_refused (tasks : List Task) (s : State) (r : Refusal) :
    advance tasks s ≠ .refused r := by
  induction tasks generalizing s with
  | nil => simp
  | cons task rest ih =>
    cases task with
    | bus t => simp
    | act a =>
      cases h : perform a s with
      | go s' => rw [advance_go rest h]; exact ih s'
      | wait tasks s' => rw [advance_wait rest h]; simp
      | stop s' => rw [advance_stop rest h]; simp
      | noValue q => rw [advance_noValue rest h]; simp

theorem run_ne_refused (replies : List Reply) (s : State) (r : Refusal) :
    run replies s ≠ .refused r := by
  induction replies generalizing s with
  | nil => simp
  | cons reply replies ih =>
    cases hw : s.work with
    | nil => rw [run_done _ hw]; simp
    | cons task rest =>
      cases task with
      | act a => rw [run_act _ hw]; simp
      | bus t =>
        rw [run_bus reply replies hw]
        cases ha : advance (s.answer t rest reply).work (s.answer t rest reply) with
        | next s' => exact ih s'
        | fault f => simp
        | refused q => exact absurd ha (advance_ne_refused _ _ _)

theorem drive_next {s t : State} (h : drive s = .next t) :
    ∃ s', advance s.work s = .next s' ∧ run s'.replies s' = .next t :=
  andThen_eq_next h

/-- A command that answers a next state was accepted (R161). -/
theorem issue_next {plan : List Task} {s t : State} (h : issue plan s = .next t) :
    s.work = [] ∧ s.st = .idle ∧ drive { s with work := plan } = .next t := by
  unfold issue at h
  split at h
  · cases h
  · split at h
    · cases h
    · exact ⟨by simp_all, by simp_all, h⟩

theorem issue_accepted {s : State} (plan : List Task) (hw : s.work = []) (hi : s.st = .idle) :
    issue plan s = drive { s with work := plan } := by
  simp [issue, hw, hi]

/-- The plan a command performs. -/
def planOf : Instr → List Task
  | .config => configPlan
  | .setaddr p => setAddressPlan p
  | .bankswNone a => bankSwitchPlan .none a
  | .bankswF8 a => bankSwitchPlan .f8 a
  | .bankswF6 a => bankSwitchPlan .f6 a
  | .rdbyte => readBytePlan
  | .rdfast => readByteFastPlan
  | .chkrom => checkRomPlan
  | .scan => scanPlan
  | .settle => settlePlan

/-- Every command is its plan, issued. -/
theorem exec_eq_issue (i : Instr) (s : State) : exec i s = issue (planOf i) s := by
  cases i <;> rfl

theorem step_of_reset {s : State} {cfg : Cfg} {rest : List HostInput}
    (h : s.inputs = .reset cfg :: rest) :
    step s = .next (State.applyReset { s with inputs := rest } cfg) := by
  simp only [step, h]

theorem step_of_no_reset {s : State} (h : ¬ ResetComes s) : step s = commandStep s := by
  unfold step
  split
  · rename_i cfg rest hi
    exact absurd ⟨cfg, rest, hi⟩ h
  · rfl

/-- What a step that answers a next state did, when the host did not reset the block. -/
theorem commandStep_next {s t : State} (h : commandStep s = .next t) :
    (s.work ≠ [] ∧ drive s.withBusAnswer = .next t) ∨
    (s.work = [] ∧ t = s) ∨
    (s.work = [] ∧ ∃ cw rest i, s.inputs = .command cw :: rest ∧ decode cw = .command i ∧
      exec i { s with inputs := rest } = .next t) := by
  unfold commandStep at h
  split at h
  · rename_i hw
    exact .inl ⟨by simp [hw], h⟩
  · rename_i hw
    split at h
    · rename_i cw rest hc
      split at h
      · rename_i i hd
        exact .inr (.inr ⟨hw, cw, rest, i, hc, hd, h⟩)
      · cases h
    · cases h
      exact .inr (.inl ⟨hw, rfl⟩)

/-- What an answered transaction leads to: it is recorded, and the operation goes on, tries a read again,
or aborts (R47, R130, R202). -/
theorem answer_cases (s : State) (t : Transaction) (rest : List Task) (reply : Reply) :
    (∃ val b, t.value? = some val ∧ reply = .ok b ∧ s.answer t rest reply =
      { s.writeRegister (t.chip s.cfg) (t.reg s.cfg) val reply with work := rest }) ∨
    (∃ val landed, t.value? = some val ∧ reply = .ioFault landed ∧ s.answer t rest reply =
      (s.writeRegister (t.chip s.cfg) (t.reg s.cfg) val reply).raise (.fatalTransport .write)) ∨
    (∃ v, t = .read ∧ reply = .ok v ∧ s.answer t rest reply =
      { s.emit (.rd (t.chip s.cfg) (t.reg s.cfg) (.ok v)) with d := some v, work := rest }) ∨
    (∃ landed, t = .read ∧ reply = .ioFault landed ∧ s.rc < s.cfg.maxRetries ∧
      s.answer t rest reply =
      { (s.emit (.rd (t.chip s.cfg) (t.reg s.cfg) .ioFault)).delay .retry with
        rc := s.rc + 1, work := .bus .read :: rest }) ∨
    (∃ landed, t = .read ∧ reply = .ioFault landed ∧ ¬ s.rc < s.cfg.maxRetries ∧
      s.answer t rest reply =
      (s.emit (.rd (t.chip s.cfg) (t.reg s.cfg) .ioFault)).raise (.fatalTransport .read)) := by
  cases t with
  | read =>
    cases reply with
    | ok v => exact .inr (.inr (.inl ⟨v, rfl, rfl, rfl⟩))
    | ioFault landed =>
      by_cases h : s.rc < s.cfg.maxRetries
      · refine .inr (.inr (.inr (.inl ⟨landed, rfl, rfl, h, ?_⟩)))
        simp [State.answer, State.finishRead, Transaction.value?, h]
      · refine .inr (.inr (.inr (.inr ⟨landed, rfl, rfl, h, ?_⟩)))
        simp [State.answer, State.finishRead, Transaction.value?, h]
  | direction P =>
    cases reply with
    | ok b => exact .inl ⟨_, b, rfl, rfl, rfl⟩
    | ioFault landed => exact .inr (.inl ⟨_, landed, rfl, rfl, rfl⟩)
  | addrLow p =>
    cases reply with
    | ok b => exact .inl ⟨_, b, rfl, rfl, rfl⟩
    | ioFault landed => exact .inr (.inl ⟨_, landed, rfl, rfl, rfl⟩)
  | addrHigh p =>
    cases reply with
    | ok b => exact .inl ⟨_, b, rfl, rfl, rfl⟩
    | ioFault landed => exact .inr (.inl ⟨_, landed, rfl, rfl, rfl⟩)

/-- What BANKSW asks for: nothing, a pulse of one of the method's hotspots, or a ConfigurationFault. -/
theorem bankSwitch_cases (m : BankSwitchMethod) (a : Nat) :
    bankSwitch m a = .ok [] ∨
    (∃ hotspot ∈ hotspots m, bankSwitch m a =
      .ok (setAddressPlan (BitVec.ofNat 16 hotspot) ++ settlePlan)) ∨
    (∃ cause, bankSwitch m a = .error (.configuration cause)) := by
  unfold bankSwitch
  split
  · exact .inl rfl
  · split
    · split
      · split
        · rename_i hotspot hh
          exact .inr (.inl ⟨hotspot, List.mem_of_getElem? hh, rfl⟩)
        · exact .inr (.inr ⟨_, rfl⟩)
      · exact .inl rfl
    · exact .inr (.inr ⟨_, rfl⟩)

/-- RDFAST's loop test: the read is over, times out, or takes another sample (R132, R134). -/
theorem performFastLoop_cases (s : State) :
    (stableCount ≤ s.mc ∧ performFastLoop s = .go s) ∨
    (s.mc < stableCount ∧ s.cfg.stabilizeCeiling = some s.ac ∧
      performFastLoop s = .stop (s.raise .stabilizationTimeout)) ∨
    (s.mc < stableCount ∧ s.cfg.stabilizeCeiling ≠ some s.ac ∧
      performFastLoop s = .wait [.bus .read, .act .fastJudge, .act .fastLoop] { s with rc := 0 }) := by
  unfold performFastLoop
  by_cases h : s.mc < stableCount
  · by_cases hc : s.cfg.stabilizeCeiling = some s.ac <;> simp [h, hc]
  · simp [h, Nat.le_of_not_lt h]

/-- RDFAST's comparison: a match, the first sample, or a sample that differs (R132). -/
theorem performFastJudge_cases (s : State) :
    (s.d = none ∧ performFastJudge s = .noValue .d) ∨
    (∃ v, s.d = some v ∧ s.lb = some v ∧
      performFastJudge s = .go { s with ac := s.ac + 1, mc := s.mc + 1 }) ∨
    (∃ v, s.d = some v ∧ s.lb = none ∧
      performFastJudge s = .go { s with ac := s.ac + 1, mc := 0, lb := some v }) ∨
    (∃ v w, s.d = some v ∧ s.lb = some w ∧ w ≠ v ∧
      performFastJudge s =
        .go (State.delay { s with ac := s.ac + 1, mc := 0, lb := some v } .rom)) := by
  unfold performFastJudge
  cases hd : s.d with
  | none => simp
  | some v =>
    cases hl : s.lb with
    | none => exact .inr (.inr (.inl ⟨v, rfl, rfl, by simp⟩))
    | some w =>
      by_cases h : w = v
      · subst h
        exact .inr (.inl ⟨w, rfl, rfl, by simp⟩)
      · exact .inr (.inr (.inr ⟨v, w, rfl, rfl, h, by simp [h]⟩))

/-- A sample byte is stored (R150). -/
theorem performStoreSample_cases (i : Fin 16) (s : State) :
    (s.d = none ∧ performStoreSample i s = .noValue .d) ∨
    (∃ v, s.d = some v ∧
      performStoreSample i s = .go { s with sample := s.sample.set i.val (some v) }) := by
  unfold performStoreSample
  cases hd : s.d <;> simp

/-- The checks of CHKROM pass or fail with a cause (R150, R151). -/
theorem performChecks_cases (s : State) :
    (sampleBytes s.sample = none ∧ performChecks s = .noValue .s) ∨
    (∃ bytes, sampleBytes s.sample = some bytes ∧ checks s.cfg.checkAllOnes bytes = none ∧
      performChecks s = .go { s with v := some true, vc := some none }) ∨
    (∃ bytes cause, sampleBytes s.sample = some bytes ∧
      checks s.cfg.checkAllOnes bytes = some cause ∧
      performChecks s = .go (State.emit { s with v := some false, vc := some (some cause) }
        (.report (.validation cause)))) := by
  unfold performChecks
  cases hs : sampleBytes s.sample with
  | none => simp
  | some bytes => cases hc : checks s.cfg.checkAllOnes bytes <;> simp [hc]

/-- SCAN enters `Configuring`, or faults there (R163, R204). -/
theorem performBeginScan_cases (s : State) :
    (consistent s.cfg.romSize (effectiveMethod s.cfg) = true ∧
      performBeginScan s = .go { s with st := .configuring }) ∨
    (consistent s.cfg.romSize (effectiveMethod s.cfg) = false ∧
      performBeginScan s =
        .stop (State.raise { s with st := .configuring } (.configuration .size))) := by
  unfold performBeginScan
  cases h : consistent s.cfg.romSize (effectiveMethod s.cfg) <;> simp

/-- SCAN goes on after a sample that passed and aborts after one that failed (R164). -/
theorem performVerdict_cases (s : State) :
    (s.v = some true ∧ performVerdict s = .go s) ∨
    (∃ cause, s.v = some false ∧ s.vc = some (some cause) ∧
      performVerdict s = .stop (s.raise (.validation cause))) ∨
    (∃ r, performVerdict s = .noValue r) := by
  unfold performVerdict
  rcases hv : s.v with _ | _ | _
  · simp
  · rcases hc : s.vc with _ | _ | cause <;> simp
  · simp

/-- SCAN's loop test: the run is over, or one more offset is fetched, or the bank switch faults (R166,
R170). -/
theorem performScanLoop_cases (s : State) :
    (s.cfg.romSize ≤ s.x ∧ performScanLoop s = .stop s.finalize) ∨
    (∃ pulse, s.x < s.cfg.romSize ∧
      bankSwitch (effectiveMethod s.cfg) (s.x + romOffset) = .ok pulse ∧
      performScanLoop s = .wait (pulse ++ targetPlan s.cfg s.x ++ [.act .scanLoop]) s) ∨
    (∃ r, s.x < s.cfg.romSize ∧
      bankSwitch (effectiveMethod s.cfg) (s.x + romOffset) = .error r ∧
      performScanLoop s = .stop (s.raise r)) := by
  unfold performScanLoop
  by_cases h : s.x < s.cfg.romSize
  · cases hb : bankSwitch (effectiveMethod s.cfg) (s.x + romOffset) <;> simp [h]
  · simp [h, Nat.le_of_not_lt h]

/-- A byte is appended to `BUF` (R166, R168). -/
theorem performStoreByte_cases (s : State) :
    (s.d = none ∧ performStoreByte s = .noValue .d) ∨
    (∃ v, s.d = some v ∧ performStoreByte s =
      .go { State.emit { s with buf := s.buf ++ [v] } (.progress s.x) with x := s.x + 1 }) := by
  unfold performStoreByte
  cases hd : s.d <;> simp

/-- The tasks an action puts before the rest of a plan begin with a transaction. -/
theorem perform_wait_head {a : Action} {s s' : State} {tasks : List Task}
    (h : perform a s = .wait tasks s') : ∃ t rest, tasks = .bus t :: rest := by
  cases a <;> simp only [perform] at h
  case bankSwitch m a =>
    rcases bankSwitch_cases m a with hb | ⟨hs, _, hb⟩ | ⟨c, hb⟩ <;> rw [hb] at h
    · cases h
    · cases h; exact ⟨_, _, rfl⟩
    · cases h
  case fastLoop =>
    unfold performFastLoop at h
    split at h
    · split at h
      · cases h
      · cases h; exact ⟨_, _, rfl⟩
    · cases h
  case fastJudge =>
    unfold performFastJudge at h
    split at h
    · cases h
    · dsimp only at h; split at h <;> cases h
  case storeSample i => unfold performStoreSample at h; split at h <;> cases h
  case runChecks =>
    unfold performChecks at h
    split at h
    · cases h
    · split at h <;> cases h
  case beginScan => unfold performBeginScan at h; dsimp only at h; split at h <;> cases h
  case verdict =>
    unfold performVerdict at h
    split at h
    · cases h
    · cases h
    · split at h <;> cases h
  case scanLoop =>
    unfold performScanLoop at h
    split at h
    · rcases bankSwitch_cases (effectiveMethod s.cfg) (s.x + romOffset) with
        hb | ⟨hs, _, hb⟩ | ⟨c, hb⟩ <;> rw [hb] at h
      · cases h; exact ⟨_, _, rfl⟩
      · cases h; exact ⟨_, _, rfl⟩
      · cases h
    · cases h
  case storeByte => unfold performStoreByte at h; split at h <;> cases h
  all_goals cases h

/-- After its actions the block is done or asks for a transaction (R47). -/
theorem advance_head {tasks : List Task} {s t : State} (h : advance tasks s = .next t) :
    t.work = [] ∨ ∃ u rest, t.work = .bus u :: rest := by
  induction tasks generalizing s with
  | nil => cases h; exact .inl rfl
  | cons task rest ih =>
    cases task with
    | bus u => cases h; exact .inr ⟨u, rest, rfl⟩
    | act a =>
      cases hp : perform a s with
      | go s' => rw [advance_go rest hp] at h; exact ih h
      | wait tasks s' =>
        rw [advance_wait rest hp] at h
        obtain ⟨u, r, rfl⟩ := perform_wait_head hp
        cases h
        exact .inr ⟨u, r ++ rest, rfl⟩
      | stop s' => rw [advance_stop rest hp] at h; cases h; exact .inl rfl
      | noValue q => rw [advance_noValue rest hp] at h; cases h

/-! ### Induction over a run

`P tasks s` says something of a state and of the tasks still to do, whatever the state's own `work`,
`replies` and `inputs` fields hold. -/

/-- A property that does not look at the model's own fields. -/
def Steady (P : List Task → State → Prop) : Prop :=
  ∀ tasks s work replies inputs, P tasks s →
    P tasks { s with work := work, replies := replies, inputs := inputs }

theorem Steady.work {P : List Task → State → Prop} (h : Steady P) {tasks : List Task} {s : State}
    (work : List Task) (hp : P tasks s) : P tasks { s with work := work } :=
  h tasks s work s.replies s.inputs hp

theorem Steady.replies {P : List Task → State → Prop} (h : Steady P) {tasks : List Task} {s : State}
    (replies : List Reply) (hp : P tasks s) : P tasks { s with replies := replies } :=
  h tasks s s.work replies s.inputs hp

theorem Steady.inputs {P : List Task → State → Prop} (h : Steady P) {tasks : List Task} {s : State}
    (inputs : List HostInput) (hp : P tasks s) : P tasks { s with inputs := inputs } :=
  h tasks s s.work s.replies inputs hp

/-- A property every action keeps. -/
structure KeptByActions (P : List Task → State → Prop) : Prop where
  go : ∀ a rest s s', P (.act a :: rest) s → perform a s = .go s' → P rest s'
  wait : ∀ a rest tasks s s', P (.act a :: rest) s → perform a s = .wait tasks s' →
    P (tasks ++ rest) s'
  stop : ∀ a rest s s', P (.act a :: rest) s → perform a s = .stop s' → P [] s'

/-- A property every answered transaction keeps. -/
def KeptByAnswers (P : List Task → State → Prop) : Prop :=
  ∀ t rest s reply, P (.bus t :: rest) s → P (s.answer t rest reply).work (s.answer t rest reply)

theorem advance_keeps {P : List Task → State → Prop} (hs : Steady P) (ha : KeptByActions P)
    {tasks : List Task} {s t : State} (hp : P tasks s) (h : advance tasks s = .next t) :
    P t.work t := by
  induction tasks generalizing s with
  | nil => cases h; exact hs.work _ hp
  | cons task rest ih =>
    cases task with
    | bus u => cases h; exact hs.work _ hp
    | act a =>
      cases hq : perform a s with
      | go s' => rw [advance_go rest hq] at h; exact ih (ha.go a rest s s' hp hq) h
      | wait tasks s' =>
        rw [advance_wait rest hq] at h
        cases h
        exact hs.work _ (ha.wait a rest tasks s s' hp hq)
      | stop s' =>
        rw [advance_stop rest hq] at h
        cases h
        exact hs.work _ (ha.stop a rest s s' hp hq)
      | noValue q => rw [advance_noValue rest hq] at h; cases h

theorem run_keeps {P : List Task → State → Prop} (hs : Steady P) (ha : KeptByActions P)
    (hb : KeptByAnswers P) {replies : List Reply} {s t : State} (hp : P s.work s)
    (h : run replies s = .next t) : P t.work t := by
  induction replies generalizing s with
  | nil => cases h; exact hs.replies _ hp
  | cons reply replies ih =>
    cases hw : s.work with
    | nil => rw [run_done _ hw] at h; cases h; exact hs.replies _ hp
    | cons task rest =>
      cases task with
      | act a => rw [run_act _ hw] at h; cases h; exact hs.replies _ hp
      | bus u =>
        rw [run_bus reply replies hw] at h
        obtain ⟨s', hq, h⟩ := andThen_eq_next h
        exact ih (advance_keeps hs ha (hb u rest s reply (hw ▸ hp)) hq) h

theorem drive_keeps {P : List Task → State → Prop} (hs : Steady P) (ha : KeptByActions P)
    (hb : KeptByAnswers P) {s t : State} (hp : P s.work s) (h : drive s = .next t) : P t.work t := by
  obtain ⟨s', h1, h2⟩ := drive_next h
  exact run_keeps hs ha hb (advance_keeps hs ha hp h1) h2

/-- What every action and every answer keep, and what the plan of every command establishes, every step
that is no reset keeps. `draws` is the free-value counter, which a step advances when it draws an answer. -/
theorem commandStep_keeps {P : List Task → State → Prop} (hs : Steady P) (ha : KeptByActions P)
    (hb : KeptByAnswers P)
    (hd : ∀ tasks s n, P tasks s → P tasks { s with env := { s.env with draws := n } })
    (hplan : ∀ i s, P [] s → s.st = .idle → P (planOf i) s)
    {s t : State} (hp : P s.work s) (h : commandStep s = .next t) : P t.work t := by
  rcases commandStep_next h with ⟨_, h⟩ | ⟨_, rfl⟩ | ⟨hw, cw, rest, i, _, _, h⟩
  · refine drive_keeps hs ha hb ?_ h
    cases hr : s.replies with
    | nil =>
      rw [State.withBusAnswer_of_none hr]
      exact hs s.work { s with env := { s.env with draws := s.env.draws + 1 } } s.work
        [Config.busReply s.env.draws] s.inputs (hd _ _ _ hp)
    | cons r rest => rw [State.withBusAnswer_of_reply hr]; exact hp
  · exact hp
  · rw [exec_eq_issue] at h
    obtain ⟨_, hi, h⟩ := issue_next h
    exact drive_keeps hs ha hb (hs.work _ (hs.inputs rest (hplan i s (hw ▸ hp) hi))) h

/-- A run that no action of can use an unwritten register meets no fault. -/
theorem advance_ne_fault {P : List Task → State → Prop} (ha : KeptByActions P)
    (hn : ∀ a rest s r, P (.act a :: rest) s → perform a s ≠ .noValue r)
    {tasks : List Task} {s : State} (hp : P tasks s) (f : Fault) : advance tasks s ≠ .fault f := by
  induction tasks generalizing s with
  | nil => simp
  | cons task rest ih =>
    cases task with
    | bus u => simp
    | act a =>
      cases hq : perform a s with
      | go s' => rw [advance_go rest hq]; exact ih (ha.go a rest s s' hp hq)
      | wait tasks s' => rw [advance_wait rest hq]; simp
      | stop s' => rw [advance_stop rest hq]; simp
      | noValue reg => exact absurd hq (hn a rest s reg hp)

theorem run_ne_fault {P : List Task → State → Prop} (hs : Steady P) (ha : KeptByActions P)
    (hb : KeptByAnswers P) (hn : ∀ a rest s r, P (.act a :: rest) s → perform a s ≠ .noValue r)
    {replies : List Reply} {s : State} (hp : P s.work s) (f : Fault) : run replies s ≠ .fault f := by
  induction replies generalizing s with
  | nil => simp
  | cons reply replies ih =>
    cases hw : s.work with
    | nil => rw [run_done _ hw]; simp
    | cons task rest =>
      cases task with
      | act a => rw [run_act _ hw]; simp
      | bus u =>
        rw [run_bus reply replies hw]
        have hp' := hb u rest s reply (hw ▸ hp)
        cases hq : advance (s.answer u rest reply).work (s.answer u rest reply) with
        | next s' => exact ih (advance_keeps hs ha hp' hq)
        | fault g => exact absurd hq (advance_ne_fault ha hn hp' g)
        | refused r => simp

theorem drive_ne_fault {P : List Task → State → Prop} (hs : Steady P) (ha : KeptByActions P)
    (hb : KeptByAnswers P) (hn : ∀ a rest s r, P (.act a :: rest) s → perform a s ≠ .noValue r)
    {s : State} (hp : P s.work s) (f : Fault) : drive s ≠ .fault f := by
  unfold drive
  cases hq : advance s.work s with
  | next s' => exact run_ne_fault hs ha hb hn (advance_keeps hs ha hp hq) f
  | fault g => exact absurd hq (advance_ne_fault ha hn hp g)
  | refused r => simp

end Sys2Proof.Machine
end

