-- ==== Sys2Proof/Machine/Assembly.lean ====
section
/-! DEFINITION. The textual form of a command (R82): a mnemonic followed by its operands, separated by
commas, numbers in C notation; the source's call form is a synonym; one operation a line; `;` starts a
comment. A line is a list of characters. -/

namespace Sys2Proof.Machine

open Sys2Proof

/-- What one line of text is. -/
inductive TextLine where
  /-- nothing but spaces and a comment -/
  | empty
  | command (i : Instr)
  /-- no operation of R82 -/
  | illegal
deriving DecidableEq, Repr

def isBlank (c : Char) : Bool := c == ' ' || c == '\t'

/-- The text before a comment. -/
def dropComment (line : List Char) : List Char := line.takeWhile (· != ';')

/-- The text without the spaces around it. -/
def trimBlanks (text : List Char) : List Char :=
  ((text.dropWhile isBlank).reverse.dropWhile isBlank).reverse

/-- The value of a digit in base 16 or below. -/
def digitValue (c : Char) : Option Nat :=
  if '0' ≤ c ∧ c ≤ '9' then some (c.toNat - '0'.toNat)
  else if 'a' ≤ c ∧ c ≤ 'f' then some (c.toNat - 'a'.toNat + 10)
  else if 'A' ≤ c ∧ c ≤ 'F' then some (c.toNat - 'A'.toNat + 10)
  else none

/-- The number some digits spell in a base, `acc` being the value of the digits before them. -/
def digitsValue (base : Nat) : Nat → List Char → Option Nat
  | acc, [] => some acc
  | acc, c :: rest =>
    match digitValue c with
    | some d => if d < base then digitsValue base (acc * base + d) rest else none
    | none => none

/-- A number in C notation: hexadecimal after `0x`, octal after `0`, decimal otherwise. -/
def numberOf : List Char → Option Nat
  | [] => none
  | ['0'] => some 0
  | '0' :: 'x' :: c :: rest => digitsValue 16 0 (c :: rest)
  | '0' :: 'X' :: c :: rest => digitsValue 16 0 (c :: rest)
  | '0' :: rest => digitsValue 8 0 rest
  | text => digitsValue 10 0 text

/-- The operands of an operand list, spaces around each taken off. -/
def splitOperands : List Char → List (List Char)
  | [] => [[]]
  | ',' :: rest => [] :: splitOperands rest
  | c :: rest =>
    match splitOperands rest with
    | [] => [[c]]
    | first :: others => (c :: first) :: others

/-- The method a name stands for (R82). -/
def methodOf (text : List Char) : Option BankSwitchMethod :=
  if text = ['N', 'o', 'n', 'e'] then some .none
  else if text = ['F', '8'] then some .f8
  else if text = ['F', '6'] then some .f6
  else none

/-- The `u16` operand of SETADDR. -/
def halfOf (text : List Char) : Option Half :=
  match numberOf text with
  | some n => if n < 2 ^ 16 then some (BitVec.ofNat 16 n) else none
  | none => none

/-- An operation without operands. -/
def bareForm (form : CallForm) (operands : List (List Char)) : Option CallForm :=
  if operands = [[]] then some form else none

/-- The operation of SETADDR's one operand. -/
def addressForm : List (List Char) → Option CallForm
  | [p] => (halfOf p).map .setAddress
  | _ => none

/-- The operation of BANKSW's operands, `m, a` in the mnemonic form (R82). -/
def switchForm (method address : List Char) : Option CallForm :=
  match methodOf method, numberOf address with
  | some m, some a => some (.bankSwitch a m)
  | _, _ => none

/-- An operation in the mnemonic form (R82). -/
def mnemonicForm (name : List Char) (operands : List (List Char)) : Option CallForm :=
  if name = "CONFIG".toList then bareForm .config operands
  else if name = "SETADDR".toList then addressForm operands
  else if name = "BANKSW".toList then
    match operands with
    | [m, a] => switchForm m a
    | _ => none
  else if name = "RDBYTE".toList then bareForm .readByte operands
  else if name = "RDFAST".toList then bareForm .readByteFast operands
  else if name = "CHKROM".toList then bareForm .checkRom operands
  else if name = "SCAN".toList then bareForm .scan operands
  else if name = "SETTLE".toList then bareForm .settle operands
  else none

/-- An operation in the source's call form, whose operands stand in the order `a, m` (R82). -/
def sourceForm (name : List Char) (operands : List (List Char)) : Option CallForm :=
  if name = "setAddress".toList then addressForm operands
  else if name = "bankSwitch".toList then
    match operands with
    | [a, m] => switchForm m a
    | _ => none
  else if name = "readByte".toList then bareForm .readByte operands
  else if name = "readByteFast".toList then bareForm .readByteFast operands
  else if name = "checkRom".toList then bareForm .checkRom operands
  else none

/-- The text between the parentheses of a call, if the text is `( … )`. -/
def parenthesized (text : List Char) : Option (List Char) :=
  match text, text.reverse with
  | '(' :: inside, ')' :: _ => some inside.dropLast
  | _, _ => none

/-- One line of text (R82). -/
def assembleLine (line : List Char) : TextLine :=
  let text := trimBlanks (dropComment line)
  if text = [] then .empty
  else
    let name := text.takeWhile Char.isAlpha
    let after := text.dropWhile Char.isAlpha
    let form :=
      match parenthesized (trimBlanks after) with
      | some inside => sourceForm name ((splitOperands inside).map trimBlanks)
      | none =>
        if after.head?.all isBlank then mnemonicForm name ((splitOperands after).map trimBlanks)
        else none
    match form with
    | some f => .command f.instr
    | none => .illegal

/-- The command words of a text, one operation a line (R82); `none` if a line is no operation or its
operand does not fit a command word (R73). -/
def assemble : List (List Char) → Option (List CommandWord)
  | [] => some []
  | line :: rest =>
    match assembleLine line, assemble rest with
    | .empty, some words => some words
    | .command i, some words => if i.wellFormed then some (encode i :: words) else none
    | _, _ => none

end Sys2Proof.Machine
end

