-- ==== Sys2Proof/Tests/Slice0.lean ====
section
/-! SUPPORT. Tests against the vectors of `95_test_vectors.md` (their ids stand in the docstrings), the
smoke tests of the well-formedness checks, and for every statement with hypotheses a witness that meets
them together. -/

namespace Sys2Proof.Tests

open Sys2Proof Sys2Proof.Machine

/-! ### Helpers -/

/-- Configuration K of `95_test_vectors.md`, with the fields it leaves to the vector. -/
def cfgK (romSize : Nat) (override : MethodOverride) (stabilize : Bool) (ceiling : Option Nat) : Cfg :=
  { Config.presented with
    romSize := romSize, methodOverride := override, stabilize := stabilize
    stabilizeCeiling := ceiling }

/-- A block that has just been reset, with these answers to come. -/
def ready (cfg : Cfg) (replies : List Reply) : State := State.resetWith cfg Env.unspecified [] replies

/-- The usual test configuration: 4 bytes, method None, single reads. -/
def plain : Cfg := cfgK 4 .auto false none

/-- A ready block whose two write ports are outputs at address `0x1F00`. -/
def driven (replies : List Reply) : State :=
  { ready plain replies with
    env := ⟨[(8192, 0x00#8), (8193, 0x00#8), (8210, 0x00#8), (8211, 0x1F#8)], none, 0⟩ }

/-- The answers a trace records. -/
def repliesOf : List Event → List Reply
  | [] => []
  | .wr _ _ _ .ok :: rest => .ok 0x00#8 :: repliesOf rest
  | .wr _ _ _ .ioFault :: rest => .ioFault false :: repliesOf rest
  | .rd _ _ (.ok v) :: rest => .ok v :: repliesOf rest
  | .rd _ _ .ioFault :: rest => .ioFault false :: repliesOf rest
  | _ :: rest => repliesOf rest

/-- Samples read at the first attempt. -/
def clean (bytes : List Byte) : List Sample := bytes.map (Sample.mk 0)

/-- The sample `00 01 .. 0F` of the mock bus (vector V6). -/
def mockSample : List Byte := (List.range 16).map (BitVec.ofNat 8)

/-- The same, the first and the last probe retried as often as configuration K allows. -/
def retriedSample : List Sample := ⟨2, 0#8⟩ :: clean (mockSample.tail.dropLast) ++ [⟨2, 0x0F#8⟩]

/-- The reads of a scan with the plain reader. -/
def plainReads (bytes : List Byte) : List (List Sample) := bytes.map fun b => [⟨0, b⟩]

/-- An outcome is a next state with a property. -/
def nextIs (o : Host.Outcome State Fault Refusal) (p : State → Bool) : Bool :=
  match o with
  | .next s => p s
  | .fault _ => false
  | .refused _ => false

theorem exists_next {o : Host.Outcome State Fault Refusal} {p : State → Bool}
    (h : nextIs o p = true) : ∃ t, o = .next t ∧ p t = true := by
  cases o with
  | next s => exact ⟨s, rfl, h⟩
  | fault r => cases h
  | refused r => cases h

/-! ### Well-formedness: an ill-formed term for each check -/

theorem test_wellFormed_refuses_bankswNone : Instr.wellFormed (.bankswNone 0x1000000) = false := by decide
theorem test_wellFormed_refuses_bankswF8 : Instr.wellFormed (.bankswF8 0x1000000) = false := by decide
theorem test_wellFormed_refuses_bankswF6 : Instr.wellFormed (.bankswF6 0x1000000) = false := by decide
theorem test_wellFormed_accepts_the_largest : Instr.wellFormed (.bankswF6 0xFFFFFF) = true := by decide
theorem test_legal_refuses_ceiling_zero : Cfg.legal (cfgK 4 .auto true (some 0)) = false := by decide

/-- R81: a bank index of 3 and an override of 3 are rejected when the configuration is built. -/
theorem test_buildCfg_refuses_bank_three :
    buildCfg ⟨4, 0, 0, 0, 0, 2, (0x20#8, 0), (0x20#8, 3), (0x21#8, 2), 0, true, true, none⟩ = none := by
  decide
theorem test_buildCfg_refuses_override_three :
    buildCfg ⟨4, 3, 0, 0, 0, 2, (0x20#8, 0), (0x20#8, 1), (0x21#8, 2), 0, true, true, none⟩ = none := by
  decide
theorem test_buildCfg_accepts_K :
    buildCfg ⟨4, 0, 0, 0, 0, 2, (0x20#8, 0), (0x20#8, 1), (0x21#8, 2), 0, true, true, none⟩ =
      some ⟨4, .auto, 0, 0, 0, 2, ⟨0x20#8, .mcp23017A⟩, ⟨0x20#8, .mcp23017B⟩, ⟨0x21#8, .mcp23008⟩, 0,
        true, true, none⟩ := by
  decide

/-! ### Decoding: vectors W1 to W20, words written out from R71 and R78 -/

theorem test_decode_config : decode 0x10000000#32 = .command .config := by decide
theorem test_decode_setaddr : decode 0x200012AB#32 = .command (.setaddr 0x12AB#16) := by decide
theorem test_decode_setaddr_top : decode 0x2000FFFF#32 = .command (.setaddr 0xFFFF#16) := by decide
theorem test_decode_bankswNone : decode 0x30001000#32 = .command (.bankswNone 0x1000) := by decide
theorem test_decode_bankswF8 : decode 0x34002000#32 = .command (.bankswF8 0x2000) := by decide
theorem test_decode_bankswF6 : decode 0x38FFFFFF#32 = .command (.bankswF6 0xFFFFFF) := by decide
theorem test_decode_rdbyte : decode 0x40000000#32 = .command .rdbyte := by decide
theorem test_decode_rdfast : decode 0x50000000#32 = .command .rdfast := by decide
theorem test_decode_chkrom : decode 0x60000000#32 = .command .chkrom := by decide
theorem test_decode_scan : decode 0x70000000#32 = .command .scan := by decide
theorem test_decode_settle : decode 0x80000000#32 = .command .settle := by decide

theorem test_reserved_zero : decode 0x00000000#32 = .reserved .operation := by decide
theorem test_reserved_op9 : decode 0x90000000#32 = .reserved .operation := by decide
theorem test_reserved_opF : decode 0xF0000000#32 = .reserved .operation := by decide
theorem test_reserved_method3 : decode 0x3C001000#32 = .reserved .methodReserved := by decide
theorem test_reserved_z : decode 0x21001000#32 = .reserved .zeroBits := by decide
theorem test_reserved_setaddr_m : decode 0x24001000#32 = .reserved .methodNotZero := by decide
theorem test_reserved_setaddr_imm : decode 0x20011000#32 = .reserved .immediate := by decide
theorem test_reserved_rdbyte_imm : decode 0x40000001#32 = .reserved .immediate := by decide
theorem test_reserved_scan_m : decode 0x74000000#32 = .reserved .methodNotZero := by decide

theorem test_decodeTableWord : decodeTableWord 32 0x20000000 = some (.setaddr 0x0000#16) := by decide
theorem test_encode_bankswF6 : encode (.bankswF6 0x4FFA) = 0x38004FFA#32 := by decide

/-- From reset, the step runs the command word placed first. -/
theorem test_step_from_reset :
    nextIs (step (State.reset.withFetchWord 32 0x80000000)) (fun s => s.tr == [.delay .addr]) = true := by
  decide

/-! ### Text (R82) -/

theorem test_text_banksw : assembleLine "BANKSW F6, 0x4FFA".toList = .command (.bankswF6 0x4FFA) := by decide
theorem test_text_illegal : assembleLine "RDBYTE 1".toList = .illegal := by decide

/-! ### One or two vectors per command -/

/-- K1. -/
theorem test_config :
    nextIs (exec .config (ready plain [.ok 0#8, .ok 0#8, .ok 0#8])) (fun s =>
      s.tr == [.wr 0x20#8 0x00#8 0x00#8 .ok, .wr 0x20#8 0x01#8 0x00#8 .ok, .wr 0x21#8 0x00#8 0xFF#8 .ok] &&
      s.st == .idle) = true := by
  decide

/-- R160 (d): a CONFIG repeated with the hotspot `0x1FF8` on the lines changes nothing of the environment. -/
theorem test_config_repeated :
    let s : State := { ready plain [.ok 0#8, .ok 0#8, .ok 0#8] with
      env := ⟨[(8192, 0x00#8), (8193, 0x00#8), (8210, 0xF8#8), (8211, 0x1F#8), (8448, 0xFF#8)], some 1, 7⟩ }
    nextIs (exec .config s) (fun t => t.env == s.env) = true := by
  decide +kernel

/-- K4. -/
theorem test_config_second_write_faults :
    nextIs (exec .config (ready plain [.ok 0#8, .ioFault false, .ok 0#8])) (fun s =>
      s.tr == [.wr 0x20#8 0x00#8 0x00#8 .ok, .wr 0x20#8 0x01#8 0x00#8 .ioFault,
        .report (.fatalTransport .write), .rel] && s.st == .aborted && !s.own) = true := by
  decide

/-- A9: the high byte is not masked. -/
theorem test_setaddr_unmasked :
    nextIs (exec (.setaddr 0xABCD#16) (ready plain [.ok 0#8, .ok 0#8])) (fun s =>
      s.tr == [.wr 0x20#8 0x12#8 0xCD#8 .ok, .wr 0x20#8 0x13#8 0xAB#8 .ok]) = true := by
  decide

/-- A2, the address lines. -/
theorem test_setaddr_lines :
    nextIs (exec (.setaddr 0x12AB#16) (driven [.ok 0#8, .ok 0#8])) (fun s =>
      addressLines s.cfg s.env.regs == some 0x12AB#13) = true := by
  decide

/-- A12. -/
theorem test_settle : nextIs (exec .settle (ready plain [])) (fun s => s.tr == [.delay .addr]) = true := by
  decide

/-- B17. -/
theorem test_bankswNone_below_the_window :
    nextIs (exec (.bankswNone 0x0FFF) (ready plain [])) (fun s => s.tr == [] && s.st == .idle) = true := by
  decide

/-- B3. -/
theorem test_bankswF8_bank_one :
    nextIs (exec (.bankswF8 0x2000) (ready plain [.ok 0#8, .ok 0#8])) (fun s =>
      s.tr == [.wr 0x20#8 0x12#8 0xF9#8 .ok, .wr 0x20#8 0x13#8 0x1F#8 .ok, .delay .addr]) = true := by
  decide

/-- B10: the bank is examined only on a trigger. -/
theorem test_bankswF8_bank_two_without_trigger :
    nextIs (exec (.bankswF8 0x3001) (ready plain [])) (fun s => s.tr == [] && s.st == .idle) = true := by
  decide

/-- B13. -/
theorem test_bankswF6_bank_two :
    nextIs (exec (.bankswF6 0x3FF8) (ready plain [.ok 0#8, .ok 0#8])) (fun s =>
      s.tr == [.wr 0x20#8 0x12#8 0xF8#8 .ok, .wr 0x20#8 0x13#8 0x1F#8 .ok, .delay .addr]) = true := by
  decide

/-- B15. -/
theorem test_bankswF6_bank_four :
    nextIs (exec (.bankswF6 0x5000) (ready plain [])) (fun s =>
      s.tr == [.report (.configuration .bank), .rel] && s.fc == .configurationFault) = true := by
  decide

/-- R3. -/
theorem test_rdbyte_two_retries :
    nextIs (exec .rdbyte (ready plain [.ioFault false, .ioFault false, .ok 0x5A#8])) (fun s =>
      s.tr == [.rd 0x21#8 0x09#8 .ioFault, .delay .retry, .rd 0x21#8 0x09#8 .ioFault, .delay .retry,
        .rd 0x21#8 0x09#8 (.ok 0x5A#8)] && s.d == some 0x5A#8 && s.rc == 2) = true := by
  decide

/-- R4. -/
theorem test_rdbyte_fatal :
    nextIs (exec .rdbyte (ready plain [.ioFault false, .ioFault false, .ioFault false])) (fun s =>
      s.st == .aborted && s.fc == .fatalTransportFault && s.d == none && s.rc == 2 &&
      s.tr.length == 7) = true := by
  decide

/-- F2. -/
theorem test_rdfast_one_glitch :
    nextIs (exec .rdfast (ready plain
      (List.replicate 5 (.ok 0xA5#8) ++ .ok 0x00#8 :: List.replicate 11 (.ok 0xA5#8)))) (fun s =>
      s.lb == some 0xA5#8 && s.mc == 10 && s.ac == 17 && delayCount .rom s.tr == 2 &&
      readCount s.tr == 17 && s.work == []) = true := by
  decide +kernel

/-- F8. -/
theorem test_rdfast_ceiling :
    nextIs (exec .rdfast (ready (cfgK 4 .auto false (some 12))
      ((List.range 12).map fun i => if i % 2 = 0 then .ok 0x00#8 else .ok 0xFF#8))) (fun s =>
      s.fc == .stabilizationTimeout && s.ac == 12 && s.mc == 0 && delayCount .rom s.tr == 11) = true := by
  decide +kernel

/-- V6 on the bus side. -/
theorem test_chkrom_passes :
    nextIs (exec .chkrom (ready plain (repliesOf (probesTrace plain 0 (clean mockSample))))) (fun s =>
      s.v == some true && s.vc == some none && s.d == some 0x0F#8 && s.st == .idle &&
      writeCount s.tr == 32 && delayCount .addr s.tr == 16 && readCount s.tr == 16) = true := by
  decide +kernel

/-- V1 on the bus side. -/
theorem test_chkrom_absent :
    nextIs (exec .chkrom (ready plain (repliesOf (probesTrace plain 0 (clean (List.replicate 16 0x00#8))))))
      (fun s => s.v == some false && s.vc == some (some .absent) && s.st == .idle && s.fc == .none &&
        s.own && s.tr.getLast? == some (.report (.validation .absent))) = true := by
  decide +kernel

/-- P4. -/
theorem test_scan_four_bytes :
    nextIs (exec .scan (ready plain
      (repliesOf (scanTrace plain (clean mockSample) (plainReads [0x00#8, 0x01#8, 0x02#8, 0x03#8]))))) (fun s =>
      s.st == .finalized && s.x == 4 && s.buf == [0x00#8, 0x01#8, 0x02#8, 0x03#8] && !s.own &&
      s.tr.length == 89 && writeCount s.tr == 43) = true := by
  decide +kernel

/-- S6. -/
theorem test_scan_inconsistent :
    nextIs (exec .scan (ready (cfgK 16384 .f8 false none) [])) (fun s =>
      s.tr == [.report (.configuration .size), .rel] && s.st == .aborted && s.buf == []) = true := by
  decide +kernel

/-- V2', V3, V5, V8: the checks. -/
theorem test_checks_all_ones_by_pairs : checks false (List.replicate 16 0xFF#8) = some .miswired := by decide
theorem test_checks_last_pair_differs :
    checks true [1#8, 1#8, 2#8, 2#8, 3#8, 3#8, 4#8, 4#8, 5#8, 5#8, 6#8, 6#8, 7#8, 7#8, 8#8, 9#8] = none := by
  decide

/-- R110, D18: only the exact sizes select a method. -/
theorem test_resolveMethod :
    [8191, 8192, 8193, 16383, 16384, 16385].map (resolveMethod .auto) =
      [.none, .f8, .none, .none, .f6, .none] ∧ resolveMethod .f6 8192 = .f6 := by
  decide

/-- R82: both forms of the same operations, and a comment, as command words. -/
theorem test_text_assembles :
    assemble ["CONFIG".toList, "SETADDR 0x12AB ; target".toList, "BANKSW F8, 0x2000".toList,
      "bankSwitch(8192, F8)".toList, "readByte()".toList] =
      some [0x10000000#32, 0x200012AB#32, 0x34002000#32, 0x34002000#32, 0x40000000#32] := by
  decide +kernel

/-! ### Witnesses: each statement's hypotheses hold together of the state and operands given here -/

/-- Answers read off a trace are those the trace records. -/
theorem answers_repliesOf (events : List Event) : answers events (repliesOf events) = true := by
  induction events with
  | nil => rfl
  | cons e rest ih =>
    cases e with
    | wr chip reg val res => cases res <;> simpa [answers, repliesOf] using ih
    | rd chip reg res => cases res <;> simpa [answers, repliesOf] using ih
    | _ => simpa [answers, repliesOf] using ih

/-- A ready block to which the host issues a command word next. -/
def commanded (cw : CommandWord) (replies : List Reply) : State :=
  { ready plain replies with inputs := [.command cw] }

/-- A block in which RDBYTE waits for its second attempt. -/
def waiting (replies : List Reply) : State :=
  { ready plain replies with work := [.bus .read], rc := 1, inputs := [.command 0x10000000#32] }

/-- A scan of four bytes about to be issued, the bus answering all of it. -/
def scanComes : State :=
  commanded 0x70000000#32 (repliesOf (scanTrace plain (clean mockSample) (plainReads [0x00#8, 0x01#8, 0x02#8, 0x03#8])))

/-- A finished block and an aborted one. -/
def finished : State :=
  { ready plain [] with st := .finalized, own := false, x := 4, buf := [0#8, 1#8, 2#8, 3#8] }
def aborted : State := { ready plain [] with st := .aborted, own := false, fc := .fatalTransportFault }

theorem not_resetComes {s : State} (h : s.inputs.head?.all (fun i => match i with
    | .command _ => true | .reset _ => false) = true) : ¬ ResetComes s := by
  rintro ⟨cfg, rest, h'⟩
  rw [h'] at h
  cases h

theorem not_stable_of_length {samples : List Byte} (h : samples.length ≤ 10) :
    ¬ HasStableRun samples := by
  rintro ⟨before, v, after, rfl⟩
  simp only [List.length_append, List.length_replicate, stableCount] at h
  omega

theorem witness_DecodeOfEncode :
    Instr.wellFormed (.bankswF6 0) = true ∧ Instr.wellFormed (.bankswF6 0xFFFFFF) = true := by decide

theorem witness_EncodeOfDecode : ∃ cw i, decode cw = .command i := ⟨0x2000FFFF#32, .setaddr 0xFFFF#16, by decide⟩

theorem witness_StepRunsDecodedCommand :
    (commanded 0x80000000#32 []).work = [] ∧
      (commanded 0x80000000#32 []).inputs = .command 0x80000000#32 :: [] ∧
      decode 0x80000000#32 = .command .settle := by
  decide

theorem witness_CommandsWaitForTheOneInProgress :
    (waiting [.ok 7#8]).work ≠ [] ∧ ¬ ResetComes (waiting [.ok 7#8]) ∧
      ∃ t, step (waiting [.ok 7#8]) = .next t ∧ (t.d == some 7#8 && t.work == []) = true :=
  ⟨by decide, not_resetComes (by decide), exists_next (by decide)⟩

theorem witness_ReservedWordIsRefused :
    (commanded 0#32 []).work = [] ∧ (commanded 0#32 []).inputs = .command 0#32 :: [] ∧
      decode 0#32 = .reserved .operation := by
  decide

theorem witness_CommandsAreAcceptedOnlyInIdle :
    (finished.work = [] ∧ finished.st ≠ .idle) ∧ (waiting []).work ≠ [] := by decide

theorem witness_EveryAcceptedCommandAnswersNext : Accepting State.reset := by decide

theorem witness_CommandRunsToItsEndOrWaits :
    (∃ t, exec .settle State.reset = .next t ∧ (t.work == []) = true) ∧
      ∃ t, exec .rdbyte State.reset = .next t ∧ (t.work == [.bus .read]) = true :=
  ⟨exists_next (by decide), exists_next (by decide)⟩

theorem witness_TerminalStatesStay :
    (MachineInv finished ∧ finished.st.terminal = true ∧ ¬ ResetComes finished ∧
      ∃ t, step finished = .next t ∧ (t == finished) = true) ∧
    MachineInv aborted ∧ aborted.st.terminal = true ∧ ¬ ResetComes aborted ∧
      ∃ t, step aborted = .next t ∧ (t == aborted) = true :=
  ⟨⟨by decide, by decide, not_resetComes (by decide), exists_next (by decide)⟩,
    by decide, by decide, not_resetComes (by decide), exists_next (by decide)⟩

theorem witness_ResetIsTakenInEveryState :
    ({ aborted with inputs := [.reset plain] } : State).inputs = .reset plain :: [] := rfl

/-- For `StepKeepsInvariant`, `RunsEndGoodOrBad` (the good end), `ImageIsFlushedOnlyInFinalized`,
`StepFollowsTheTransitionTable`, `NoStepUsesAnUnwrittenRegister`, `NoStepWritesTheConfiguration`,
`StepAppendsEmittableEvents` and `StepKeepsRegistersCanonical`: a whole scan in one step. -/
theorem witness_StepKeepsInvariant :
    MachineInv scanComes ∧ ¬ ResetComes scanComes ∧ Memory.wf scanComes.env.regs = true ∧
      outputs scanComes.tr = (if scanComes.st = .finalized then [scanComes.buf] else []) ∧
      ∃ t, step scanComes = .next t ∧ (t.st.terminal && t.st == .finalized) = true :=
  ⟨by decide, not_resetComes (by decide), by decide, by decide, exists_next (by decide +kernel)⟩

/-- For `RunsEndGoodOrBad`, the bad end. -/
theorem witness_RunsEndGoodOrBad :
    MachineInv (commanded 0x20001000#32 [.ioFault true]) ∧
      ∃ t, step (commanded 0x20001000#32 [.ioFault true]) = .next t ∧ t.st.terminal = true :=
  ⟨by decide, exists_next (p := fun t => t.st.terminal) (by decide)⟩

theorem witness_NoStepUsesAnUnwrittenRegister : MachineInv (waiting []) := by decide

/-- Both clauses: a CONFIG, and one repeated at once. -/
theorem witness_ConfigProgramsThreeDirections :
    let s := driven [.ok 0#8, .ok 0#8, .ok 0#8, .ok 0#8, .ok 0#8, .ok 0#8]
    Accepting s ∧ s.replies = .ok 0#8 :: .ok 0#8 :: .ok 0#8 :: [.ok 0#8, .ok 0#8, .ok 0#8] ∧
      Memory.wf s.env.regs = true := by
  decide

theorem witness_FaultedDirectionWriteAborts :
    (Accepting (ready plain [.ioFault true]) ∧ (ready plain [.ioFault true]).replies = .ioFault true :: []) ∧
    (Accepting (ready plain [.ok 0#8, .ioFault false]) ∧
      (ready plain [.ok 0#8, .ioFault false]).replies = .ok 0#8 :: .ioFault false :: []) ∧
    Accepting (ready plain [.ok 0#8, .ok 0#8, .ioFault false]) ∧
      (ready plain [.ok 0#8, .ok 0#8, .ioFault false]).replies =
        .ok 0#8 :: .ok 0#8 :: .ioFault false :: [] := by
  decide

theorem witness_SetaddrWritesLowThenHigh :
    Accepting (ready plain [.ok 0#8, .ok 0#8]) ∧
      (ready plain [.ok 0#8, .ok 0#8]).replies = .ok 0#8 :: .ok 0#8 :: [] := by
  decide

theorem witness_FaultedAddressWriteAborts :
    (Accepting (ready plain [.ioFault true]) ∧ (ready plain [.ioFault true]).replies = .ioFault true :: []) ∧
    Accepting (ready plain [.ok 0#8, .ioFault false]) ∧
      (ready plain [.ok 0#8, .ioFault false]).replies = .ok 0#8 :: .ioFault false :: [] := by
  decide

theorem witness_SetaddrDrivesTheLines :
    let s := driven [.ok 0#8, .ok 0#8]
    Accepting s ∧ s.replies = .ok 0#8 :: .ok 0#8 :: [] ∧ s.cfg.portWL ≠ s.cfg.portWH ∧
      (0x1FFF#16).toNat ≤ 0x1FFF ∧
      Memory.read s.env.regs (iodirReg s.cfg.portWL) = some 0x00#8 ∧
      Memory.read s.env.regs (iodirReg s.cfg.portWH) = some 0x00#8 := by
  decide

/-- R236's example: `SETADDR 0x10F8` while the lines hold `0x1F00`. -/
theorem witness_LinesBetweenTheTwoWrites :
    let s := driven [.ok 0#8]
    Accepting s ∧ s.replies = [.ok 0#8] ∧ s.cfg.portWL ≠ s.cfg.portWH ∧
      addressLines s.cfg s.env.regs = some 0x1F00#13 := by
  decide

theorem witness_SettleAppendsOneDelay : Accepting State.reset := by decide

/-- A write that leaves the lines at the hotspot `0x1FF8`, and one that leaves them at no hotspot. -/
theorem witness_OnlyHotspotsMoveTheLatch :
    addressLines plain ((driven []).env.write plain 8210 0xF8#8).regs = some 0x1FF8#13 ∧
      addressLines plain ((driven []).env.write plain 8210 0x00#8).regs = some 0x1F00#13 := by
  decide

theorem witness_TranslationLaws : romOffset ≤ 4095 + romOffset ∧ romOffset ≤ 4095 + bankWindow + romOffset := by
  decide

theorem witness_TriggerAddresses : romOffset ≤ 0x1000 ∧ romOffset ≤ 0x1FFA := by decide

theorem witness_ConsistentScanNeverLacksAHotspot :
    (consistent 8192 .f8 = true ∧ 8191 < 8192) ∧ (consistent 16384 .f6 = true ∧ 16383 < 16384) ∧
      consistent 100000 .none = true ∧ 99999 < 100000 := by
  decide

theorem witness_BankswNoneIsANoOp : Accepting (ready plain [.ok 0#8]) := by decide

/-- The first and the last triggering operand, with the answers of each clause. -/
theorem witness_BankswF8PulsesItsHotspot :
    Accepting (ready plain [.ok 0#8, .ok 0#8]) ∧
      (∀ h, realAddress 0x1000 h ∈ [0x1000, 0x1FF9, 0x1FFA] ∧
        [0x1FF8, 0x1FF9][bankNumber 0x1000 h]? = some 0x1FF8) ∧
      (∀ h, realAddress 0x2FFA h ∈ [0x1000, 0x1FF9, 0x1FFA] ∧
        [0x1FF8, 0x1FF9][bankNumber 0x2FFA h]? = some 0x1FF9) ∧
      (ready plain [.ok 0#8, .ok 0#8]).replies = .ok 0#8 :: .ok 0#8 :: [] ∧
      (ready plain [.ioFault true]).replies = .ioFault true :: [] ∧
      (ready plain [.ok 0#8, .ioFault false]).replies = .ok 0#8 :: .ioFault false :: [] := by
  decide

/-- The first and the last triggering operand, with the answers of each clause. -/
theorem witness_BankswF6PulsesItsHotspot :
    Accepting (ready plain [.ok 0#8, .ok 0#8]) ∧
      (∀ h, realAddress 0x1000 h ∈ [0x1000, 0x1FF7, 0x1FF8, 0x1FF9, 0x1FFA] ∧
        [0x1FF6, 0x1FF7, 0x1FF8, 0x1FF9][bankNumber 0x1000 h]? = some 0x1FF6) ∧
      (∀ h, realAddress 0x4FFA h ∈ [0x1000, 0x1FF7, 0x1FF8, 0x1FF9, 0x1FFA] ∧
        [0x1FF6, 0x1FF7, 0x1FF8, 0x1FF9][bankNumber 0x4FFA h]? = some 0x1FF9) ∧
      (ready plain [.ok 0#8, .ok 0#8]).replies = .ok 0#8 :: .ok 0#8 :: [] ∧
      (ready plain [.ioFault true]).replies = .ioFault true :: [] ∧
      (ready plain [.ok 0#8, .ioFault false]).replies = .ok 0#8 :: .ioFault false :: [] := by
  decide

theorem witness_BankswWithoutTriggerDoesNothing :
    Accepting State.reset ∧
      (∀ h, realAddress 0x1001 h ∉ [0x1000, 0x1FF9, 0x1FFA]) ∧
      ∀ h, realAddress 0x1001 h ∉ [0x1000, 0x1FF7, 0x1FF8, 0x1FF9, 0x1FFA] := by
  decide

theorem witness_BankswOutsideItsDomainFaults :
    Accepting State.reset ∧ 0x0FFF < romOffset ∧
      (∀ h, trigger 0x3000 .f8 h = true ∧ 2 ≤ bankNumber 0x3000 h) ∧
      ∀ h, trigger 0x5000 .f6 h = true ∧ 4 ≤ bankNumber 0x5000 h := by
  decide

/-- Both clauses, for each method. -/
theorem witness_BankswExpandsToSetaddrAndSettle :
    Accepting (ready plain [.ok 0#8, .ok 0#8]) ∧
      (ready plain [.ok 0#8, .ok 0#8]).replies = .ok 0#8 :: .ok 0#8 :: [] ∧
      pulsed .f8 0x2000 = some 0x1FF9 ∧ pulsed .f6 0x4FFA = some 0x1FF9 ∧
      (∀ h, trigger 0x1FF8 .f8 h = false) ∧ (∀ h, trigger 0x1FF6 .f6 h = false) ∧
      ∀ h, trigger 0x1000 .none h = false := by
  decide

/-- The last offset of each scan and, for `HotspotTargetsSelectTheirOwnBank`, the same bounds. -/
theorem witness_ScanPulsesTheScannedBank : (8191 < 8192) ∧ 16383 < 16384 := by decide

theorem witness_RdbyteRetriesThenReturnsTheByte :
    let s := ready plain [.ioFault false, .ioFault false, .ok 0x5A#8]
    Accepting s ∧ [false, false].length ≤ s.cfg.maxRetries ∧
      s.replies = [false, false].map .ioFault ++ .ok 0x5A#8 :: [] := by
  decide

theorem witness_RdbyteExhaustedRetriesAreFatal :
    let s := ready plain [.ioFault false, .ioFault false, .ioFault false]
    Accepting s ∧ [false, false, false].length = s.cfg.maxRetries + 1 ∧
      s.replies = [false, false, false].map .ioFault ++ [] := by
  decide

theorem witness_RdbyteIsBounded :
    Accepting (ready plain [.ioFault true, .ok 1#8, .ok 2#8]) ∧
      ∃ t, exec .rdbyte (ready plain [.ioFault true, .ok 1#8, .ok 2#8]) = .next t ∧
        (t.work == [] && plain.maxRetries + 1 == 3) = true :=
  ⟨by decide, exists_next (by decide)⟩

/-- F2's samples, the first retried, with no ceiling and with the smallest that allows them. -/
theorem witness_RdfastReturnsAStableSample :
    let samples := ⟨2, 0xA5#8⟩ :: clean (0x00#8 :: List.replicate 11 0xA5#8)
    ∀ c ∈ [plain, cfgK 4 .auto true (some 13)],
      Accepting (ready c (repliesOf (fastTrace c none samples))) ∧ recovers c samples = true ∧
        Stabilizes (bytesOf samples) ∧
        (∀ n, c.stabilizeCeiling = some n → samples.length ≤ n) ∧
        samples.getLast? = some ⟨0, 0xA5#8⟩ ∧
        answers (fastTrace c none samples) (repliesOf (fastTrace c none samples)) = true := by
  have hs : Stabilizes (bytesOf (⟨2, 0xA5#8⟩ :: clean (0x00#8 :: List.replicate 11 0xA5#8))) := by
    refine ⟨⟨[0xA5#8, 0x00#8], 0xA5#8, [], rfl⟩, ?_⟩
    rintro ⟨before, v, after, h⟩
    have hl := congrArg List.length h
    have h1 := congrArg (fun l => l[1]?) h
    have h2 := congrArg (fun l => l[2]?) h
    rcases before with _ | ⟨a, _ | ⟨b, rest⟩⟩
    · simp [bytesOf, clean, stableCount] at h1 h2
      exact absurd (h1.trans h2.symm) (by decide)
    · simp [bytesOf, clean, stableCount] at h1 h2
      exact absurd (h1.trans h2.symm) (by decide)
    · simp only [List.length_append, List.length_cons, List.length_replicate, stableCount] at hl
      have : (bytesOf (⟨2, 0xA5#8⟩ :: clean (0x00#8 :: List.replicate 11 0xA5#8))).dropLast.length = 12 := by
        decide
      omega
  intro samples c hc
  simp only [List.mem_cons, List.not_mem_nil, or_false] at hc
  rcases hc with rfl | rfl
  · exact ⟨⟨rfl, rfl⟩, by decide, hs, (fun n h => by cases h), by decide, answers_repliesOf _⟩
  · exact ⟨⟨rfl, rfl⟩, by decide, hs, (fun n h => by cases h; decide), by decide, answers_repliesOf _⟩

theorem witness_RdfastReturnsOnlyStableValues :
    Accepting (ready plain (List.replicate 11 (.ok 0xA5#8))) ∧
      ∃ t, exec .rdfast (ready plain (List.replicate 11 (.ok 0xA5#8))) = .next t ∧
        (t.work == [] && t.st == .idle) = true :=
  ⟨by decide, exists_next (by decide +kernel)⟩

/-- Ten equal samples, one of them retried, are no stable run. -/
theorem witness_RdfastHangsWithoutAStableRun :
    let samples := ⟨2, 0xA5#8⟩ :: clean (List.replicate 9 0xA5#8)
    Accepting (ready plain (repliesOf (fastTrace plain none samples))) ∧ plain.stabilizeCeiling = none ∧
      recovers plain samples = true ∧ ¬ HasStableRun (bytesOf samples) ∧
      answers (fastTrace plain none samples) (repliesOf (fastTrace plain none samples)) = true :=
  ⟨⟨rfl, rfl⟩, rfl, by decide, not_stable_of_length (by decide), answers_repliesOf _⟩

/-- Ten samples at a ceiling of ten, and a fatal read after ten samples and at the first. -/
theorem witness_RdfastWithoutAStableRunFaults :
    let samples := clean (List.replicate 10 0xA5#8)
    let cfg := cfgK 4 .auto true (some 10)
    (Accepting (ready cfg (repliesOf (fastTrace cfg none samples))) ∧ recovers cfg samples = true ∧
      ¬ HasStableRun (bytesOf samples) ∧ cfg.stabilizeCeiling = some samples.length ∧
      answers (fastTrace cfg none samples) (repliesOf (fastTrace cfg none samples)) = true) ∧
    ∀ taken ∈ [[], samples],
      let trace := fastTrace plain none taken ++ failedTrace plain
      Accepting (ready plain (repliesOf trace)) ∧ recovers plain taken = true ∧
        ¬ HasStableRun (bytesOf taken) ∧
        (∀ c, plain.stabilizeCeiling = some c → taken.length < c) ∧
        answers trace (repliesOf trace) = true := by
  refine ⟨⟨⟨rfl, rfl⟩, by decide, not_stable_of_length (by decide), by decide, answers_repliesOf _⟩, ?_⟩
  intro taken ht
  simp only [List.mem_cons, List.not_mem_nil, or_false] at ht
  rcases ht with rfl | rfl <;>
    exact ⟨⟨rfl, rfl⟩, by decide, not_stable_of_length (by decide), (fun c h => by cases h),
      answers_repliesOf _⟩

/-- The first clause with a sample that passes and one that fails, and the others with a fault in the first
probe and in the last. -/
theorem witness_ChkromSamplesAndChecks :
    (∀ probes ∈ [retriedSample, clean (List.replicate 16 0#8)],
      Accepting (ready plain (repliesOf (probesTrace plain 0 probes))) ∧ recovers plain probes = true ∧
        answers (probesTrace plain 0 probes) (repliesOf (probesTrace plain 0 probes)) = true ∧
        probes.length = 16) ∧
    ∀ probes ∈ [[], retriedSample.dropLast], ∀ tail ∈ [[.ioFault true], [.ok 0#8, .ioFault false],
        [.ok 0#8, .ok 0#8] ++ [true, true, true].map .ioFault],
      Accepting (ready plain (repliesOf (probesTrace plain 0 probes) ++ tail)) ∧
        recovers plain probes = true ∧ probes.length < 16 ∧
        answers (probesTrace plain 0 probes) (repliesOf (probesTrace plain 0 probes)) = true ∧
        [true, true, true].length = plain.maxRetries + 1 := by
  constructor
  · intro probes hp
    simp only [List.mem_cons, List.not_mem_nil, or_false] at hp
    rcases hp with rfl | rfl <;> exact ⟨⟨rfl, rfl⟩, by decide, answers_repliesOf _, by decide⟩
  · intro probes hp tail _
    simp only [List.mem_cons, List.not_mem_nil, or_false] at hp
    rcases hp with rfl | rfl <;> exact ⟨⟨rfl, rfl⟩, by decide, by decide, answers_repliesOf _, by decide⟩

theorem witness_SourceValidatorOutcomes :
    [1#8, 2#8, 3#8, 4#8, 5#8, 6#8, 7#8, 8#8].length = 8 ∧
      [1#8, 2#8, 3#8, 4#8, 5#8, 6#8, 7#8, 8#8] ≠ List.replicate 8 0x00#8 := by
  decide

theorem witness_NotAllOnesCheckIsRedundant : (List.replicate 16 0xFF#8).length = 16 := by decide

/-- The first clause for both commands, and the second for a CHKROM that waits for its first read. -/
theorem witness_ValidatorAndScanSettleBeforeEveryRead :
    (∃ t, exec .chkrom (ready plain (repliesOf (probesTrace plain 0 (clean mockSample)))) = .next t ∧
      (t.st == .idle) = true) ∧
    (∃ t, exec .scan { scanComes with inputs := [] } = .next t ∧ (t.st == .finalized) = true) ∧
    let s : State := { ready plain [.ok 1#8] with
      tr := setAddressTrace plain 0x1000#16 ++ [.delay .addr], work := [.bus .read, .act (.storeSample 0)] }
    SettlesSince [] s ∧ s.work ≠ [] ∧ ¬ ResetComes s ∧ ∃ t, step s = .next t ∧ (t.d == some 1#8) = true :=
  ⟨exists_next (by decide +kernel), exists_next (by decide +kernel), ⟨_, rfl, by decide, by decide⟩,
    by decide, not_resetComes (by decide), exists_next (by decide)⟩

/-- One byte more than two banks. -/
theorem witness_InconsistentScanFaultsBeforeTheBus :
    let s := ready (cfgK 8193 .f8 true none) []
    Accepting s ∧ effectiveMethod s.cfg ≠ .none ∧
      (hotspots (effectiveMethod s.cfg)).length < banksImplied s.cfg.romSize := by
  decide

/-- A sample that fails; a write fault at the first direction write and at the last probe's last write; a
fatal read in the first probe and in the last. -/
theorem witness_ScanAbortsBeforeItsLoop :
    consistent plain.romSize (effectiveMethod plain) = true ∧
    (let probes := clean (List.replicate 16 0xFF#8)
     let trace := configTrace plain ++ probesTrace plain 0 probes
     Accepting (ready plain (repliesOf trace)) ∧ recovers plain probes = true ∧ probes.length = 16 ∧
      checks plain.checkAllOnes (bytesOf probes) = some .miswired ∧
      answers trace (repliesOf trace) = true) ∧
    (let trace := configTrace plain ++ probesTrace plain 0 retriedSample
     recovers plain retriedSample = true ∧ retriedSample.length = 16 ∧
      (∃ after, trace = [] ++ .wr 0x20#8 0x00#8 0x00#8 .ok :: after) ∧
      ∃ before after, trace = before ++ .wr 0x20#8 0x13#8 0x10#8 .ok :: after ∧ before.length = 68 ∧
        answers before (repliesOf before) = true) ∧
    ∀ probes ∈ [[], retriedSample.dropLast],
      let trace := configTrace plain ++ probesTrace plain 0 probes ++
        setAddressTrace plain (BitVec.ofNat 16 (romOffset + probes.length)) ++ [.delay .addr] ++
        failedTrace plain
      recovers plain probes = true ∧ probes.length < 16 ∧ answers trace (repliesOf trace) = true := by
  refine ⟨by decide, ⟨⟨rfl, rfl⟩, by decide, by decide, by decide, answers_repliesOf _⟩,
    ⟨by decide, by decide, ⟨_, rfl⟩, ?_⟩, ?_⟩
  · exact ⟨(configTrace plain ++ probesTrace plain 0 retriedSample).take 68,
      (configTrace plain ++ probesTrace plain 0 retriedSample).drop 69, by decide +kernel, by decide +kernel,
      answers_repliesOf _⟩
  · intro probes hp
    simp only [List.mem_cons, List.not_mem_nil, or_false] at hp
    rcases hp with rfl | rfl <;> exact ⟨by decide, by decide, answers_repliesOf _⟩

/-- A scan of four bytes with single reads, one of no byte, and one of one byte with stabilizing reads, a
sample that differs, and the smallest ceiling that suffices. -/
theorem witness_ScanProducesTheImage :
    ∀ c ∈ [(plain, [[⟨2, 0#8⟩], [⟨0, 1#8⟩], [⟨0, 2#8⟩], [⟨0, 3#8⟩]]), (cfgK 0 .f8 false none, []),
        (cfgK 1 .f6 true (some 11), [clean (List.replicate 11 9#8)])],
      let replies := repliesOf (scanTrace c.1 retriedSample c.2)
      Accepting (ready c.1 replies) ∧ consistent c.1.romSize (effectiveMethod c.1) = true ∧
        retriedSample.length = 16 ∧ recovers c.1 retriedSample = true ∧
        checks c.1.checkAllOnes (bytesOf retriedSample) = none ∧
        c.2.length = c.1.romSize ∧ (∀ samples ∈ c.2, Fetches c.1 samples) ∧
        answers (scanTrace c.1 retriedSample c.2) replies = true := by
  intro c hc
  simp only [List.mem_cons, List.not_mem_nil, or_false] at hc
  rcases hc with rfl | rfl | rfl <;>
    refine ⟨⟨rfl, rfl⟩, by decide, by decide, by decide, by decide, by decide, ?_, answers_repliesOf _⟩
  · intro samples h
    simp only [List.mem_cons, List.not_mem_nil, or_false] at h
    rcases h with rfl | rfl | rfl | rfl <;> exact ⟨by decide, rfl⟩
  · intro samples h
    cases h
  · intro samples h
    simp only [List.mem_cons, List.not_mem_nil, or_false] at h
    subst h
    refine ⟨by decide, ⟨⟨[], 9#8, [], rfl⟩, not_stable_of_length (by decide)⟩, ?_⟩
    intro n h
    cases h
    decide

/-- A faulted write of the pulse and of the target's high bits; a fatal read with the plain reader at the
first offset and at the last; a fatal read of the stabilizing reader at its first sample and after ten; and
StabilizationTimeout at a ceiling of ten. -/
theorem witness_FaultInTheScanLoopKeepsTheBytesBefore :
    (∀ c ∈ [plain, cfgK 4 .f8 true (some 10), cfgK 4 .f8 true (some 11)],
      consistent c.romSize (effectiveMethod c) = true ∧ recovers c retriedSample = true ∧
        checks c.checkAllOnes (bytesOf retriedSample) = none) ∧ retriedSample.length = 16 ∧
    (let c := cfgK 4 .f8 true (some 11)
     (∃ after, targetTrace c 0 = [] ++ .wr 0x20#8 0x12#8 0xF8#8 .ok :: after) ∧
      ∃ before, targetTrace c 0 = before ++ .wr 0x20#8 0x13#8 0x10#8 .ok :: [.delay .addr] ∧
        answers (loopTrace c retriedSample [] ++ before)
          (repliesOf (loopTrace c retriedSample [] ++ before)) = true) ∧
    (∀ reads ∈ [[], plainReads [0#8, 1#8, 2#8]], reads.length < plain.romSize ∧
      ∀ samples ∈ reads, Fetches plain samples) ∧
    (∀ samples ∈ [[], clean (List.replicate 10 5#8)], recovers (cfgK 4 .f8 true (some 11)) samples = true ∧
      ¬ HasStableRun (bytesOf samples) ∧ samples.length < 11) ∧
    let samples := clean (List.replicate 10 5#8)
    recovers (cfgK 4 .f8 true (some 10)) samples = true ∧ ¬ HasStableRun (bytesOf samples) ∧
      (cfgK 4 .f8 true (some 10)).stabilizeCeiling = some samples.length := by
  refine ⟨by decide, by decide, ⟨⟨_, rfl⟩, (targetTrace (cfgK 4 .f8 true (some 11)) 0).take 4, by decide,
    answers_repliesOf _⟩, ?_, ?_, by decide, not_stable_of_length (by decide), by decide⟩
  · intro reads hr
    simp only [List.mem_cons, List.not_mem_nil, or_false] at hr
    rcases hr with rfl | rfl
    · exact ⟨by decide, fun samples h => by cases h⟩
    · refine ⟨by decide, fun samples h => ?_⟩
      simp only [plainReads, List.map_cons, List.map_nil, List.mem_cons, List.not_mem_nil, or_false] at h
      rcases h with rfl | rfl | rfl <;> exact ⟨by decide, rfl⟩
  · intro samples h
    simp only [List.mem_cons, List.not_mem_nil, or_false] at h
    rcases h with rfl | rfl <;> exact ⟨by decide, not_stable_of_length (by decide), by decide⟩

theorem witness_QuietScanCounts :
    ∀ c ∈ [(plain, [0#8, 1#8, 2#8, 3#8]), (cfgK 1 .f6 true (some 11), [9#8])],
      let trace := scanTrace c.1 (mockSample.map (Sample.mk 0)) (c.2.map (quietSamples c.1))
      Accepting (ready c.1 (repliesOf trace)) ∧ consistent c.1.romSize (effectiveMethod c.1) = true ∧
        (c.1.stabilize = true → ∀ n, c.1.stabilizeCeiling = some n → 11 ≤ n) ∧
        mockSample.length = 16 ∧ c.2.length = c.1.romSize ∧
        checks c.1.checkAllOnes mockSample = none ∧ answers trace (repliesOf trace) = true := by
  intro c hc
  simp only [List.mem_cons, List.not_mem_nil, or_false] at hc
  rcases hc with rfl | rfl <;>
    refine ⟨⟨rfl, rfl⟩, by decide, ?_, by decide, by decide, by decide, answers_repliesOf _⟩
  · intro h; cases h
  · intro _ n h; cases h; decide

theorem witness_MockBusImage :
    ∀ cfg ∈ [cfgK 4096 .auto false none, cfgK 4096 .auto true (some 11)],
      Accepting (ready cfg []) ∧ ¬ ResetComes (ready cfg []) ∧ (ready cfg []).replies = [] ∧
        cfg.romSize = 4096 ∧ cfg.methodOverride = .auto ∧
        (∀ c, cfg.stabilizeCeiling = some c → 11 ≤ c) ∧ cfg.portWL ≠ cfg.portWH ∧
        iodirReg cfg.portRD ≠ iodirReg cfg.portWL ∧ iodirReg cfg.portRD ≠ iodirReg cfg.portWH := by
  intro cfg hc
  simp only [List.mem_cons, List.not_mem_nil, or_false] at hc
  rcases hc with rfl | rfl <;>
    refine ⟨⟨rfl, rfl⟩, not_resetComes (by decide), rfl, rfl, rfl, ?_, by decide, by decide, by decide⟩
  · intro n h; cases h
  · intro n h; cases h; decide

end Sys2Proof.Tests
end

/-! ## Proofs of the family "state": the reset state, the invariant of the machine, and what every step
keeps (R10, R12 to R31, R76, R230). -/

namespace Sys2Proof.Machine

open Sys2Proof

/-! ### The cartridge's latch (R29, R30) -/

/-- The bank a hotspot selects is the hotspot's position in its scheme's list (R29). -/
theorem bankSelectedBy_eq_some {m : BankSwitchMethod} {address bank : Nat}
    (h : bankSelectedBy m address = some bank) : (hotspots m)[bank]? = some address := by
  obtain ⟨hlt, hget, _⟩ := List.idxOf?_eq_some_iff.mp h
  rw [List.getElem?_eq_getElem hlt, hget]

/-- What known lines do to the latch: nothing, or they show a hotspot of the cartridge's scheme and the
latch selects its bank. -/
theorem latchAfter_cases (before : Option Lines) (address : Lines) (latch : Option Nat) (draw : Nat) :
    latchAfter before (some address) latch draw = latch ∨
      ∃ bank, bankSelectedBy Config.cartridgeScheme address.toNat = some bank ∧
        latchAfter before (some address) latch draw = some bank := by
  simp only [latchAfter]
  split
  · exact .inl rfl
  · split
    · rename_i bank hbank
      split
      · exact .inr ⟨bank, hbank, rfl⟩
      · exact .inl rfl
    · exact .inl rfl

/-- Settles O31: the lines after the write are the known address, and `latchAfter_cases` says what known
lines do. -/
theorem onlyHotspotsMoveTheLatch : Obligations.OnlyHotspotsMoveTheLatch := by
  intro cfg e loc v address hlines
  have hlatch : (e.write cfg loc v).latch =
      latchAfter (addressLines cfg e.regs) (some address) e.latch e.draws := by
    rw [← hlines]; rfl
  rw [hlatch]
  rcases latchAfter_cases (addressLines cfg e.regs) address e.latch e.draws with
    hkept | ⟨bank, hbank, hmoved⟩
  · exact .inl hkept
  · exact .inr ⟨_, bank, bankSelectedBy_eq_some hbank, hmoved⟩

/-! ### What a step appends to the trace (R10, R26, R76) -/

/-- A property of the state an action leads to. -/
def Progress.All (P : State → Prop) : Progress → Prop
  | .go s => P s
  | .wait _ s => P s
  | .stop s => P s
  | .noValue _ => True

/-- `s'` has the configuration of `s`, and its trace is that of `s` with events appended whose
transactions are all of R76's list. -/
def State.Extends (s s' : State) : Prop :=
  s'.cfg = s.cfg ∧ ∃ events, s'.tr = s.tr ++ events ∧ events.all (emittable s.cfg) = true

theorem State.Extends.of_same {s s' : State} (hcfg : s'.cfg = s.cfg) (htr : s'.tr = s.tr) :
    s.Extends s' := ⟨hcfg, [], by simp [htr], rfl⟩

theorem State.Extends.trans {s t u : State} (h : s.Extends t) (h' : t.Extends u) : s.Extends u := by
  obtain ⟨hcfg, events, htr, hall⟩ := h
  obtain ⟨hcfg', events', htr', hall'⟩ := h'
  rw [hcfg] at hall'
  exact ⟨hcfg'.trans hcfg, events ++ events', by simp [htr, htr'], by simp [hall, hall']⟩

/-- Fault entry emits no transaction (R207). -/
theorem State.extends_raise (s : State) (r : Report) : s.Extends (s.raise r) :=
  ⟨by simp, r.events, by simp, by cases r <;> rfl⟩

/-- The writes of CONFIG and SETADDR are of R76's list, whatever the answer. -/
theorem emittable_write {t : Transaction} {val : Byte} (cfg : Cfg) (res : WriteResult)
    (h : t.value? = some val) : emittable cfg (.wr (t.chip cfg) (t.reg cfg) val res) = true := by
  cases t with
  | direction P =>
    cases h
    cases P <;>
      simp [emittable, Transaction.chip, Transaction.reg, Transaction.port, portOf, directionOf]
  | addrLow p => simp [emittable, Transaction.chip, Transaction.reg, Transaction.port, portOf]
  | addrHigh p => simp [emittable, Transaction.chip, Transaction.reg, Transaction.port, portOf]
  | read => cases h

/-- The read of RDBYTE is of R76's list, whatever the answer. -/
theorem emittable_read (cfg : Cfg) (res : ReadResult) :
    emittable cfg (.rd (Transaction.read.chip cfg) (Transaction.read.reg cfg) res) = true := by
  simp [emittable, Transaction.chip, Transaction.reg, Transaction.port, portOf]

/-- An action of the block emits no transaction and leaves the configuration. -/
theorem perform_extends (a : Action) (s : State) : (perform a s).All s.Extends := by
  cases a with
  | delay k => exact ⟨rfl, [.delay k], rfl, rfl⟩
  | bankSwitch m a =>
    simp only [perform]
    rcases bankSwitch_cases m a with h | ⟨_, _, h⟩ | ⟨cause, h⟩ <;> rw [h]
    · exact .of_same rfl rfl
    · exact .of_same rfl rfl
    · exact s.extends_raise _
  | beginRead => exact .of_same rfl rfl
  | beginFast => exact .of_same rfl rfl
  | fastLoop =>
    simp only [perform]
    rcases performFastLoop_cases s with ⟨_, h⟩ | ⟨_, _, h⟩ | ⟨_, _, h⟩ <;> rw [h]
    · exact .of_same rfl rfl
    · exact s.extends_raise _
    · exact .of_same rfl rfl
  | fastJudge =>
    simp only [perform]
    rcases performFastJudge_cases s with ⟨_, h⟩ | ⟨v, _, _, h⟩ | ⟨v, _, _, h⟩ | ⟨v, w, _, _, _, h⟩ <;>
      rw [h]
    · trivial
    · exact .of_same rfl rfl
    · exact .of_same rfl rfl
    · exact ⟨rfl, [.delay .rom], rfl, rfl⟩
  | storeSample i =>
    simp only [perform]
    rcases performStoreSample_cases i s with ⟨_, h⟩ | ⟨v, _, h⟩ <;> rw [h]
    · trivial
    · exact .of_same rfl rfl
  | runChecks =>
    simp only [perform]
    rcases performChecks_cases s with ⟨_, h⟩ | ⟨_, _, _, h⟩ | ⟨_, cause, _, _, h⟩ <;> rw [h]
    · trivial
    · exact .of_same rfl rfl
    · exact ⟨rfl, [.report (.validation cause)], rfl, rfl⟩
  | beginScan =>
    simp only [perform]
    rcases performBeginScan_cases s with ⟨_, h⟩ | ⟨_, h⟩ <;> rw [h]
    · exact .of_same rfl rfl
    · exact .trans (.of_same rfl rfl) (State.extends_raise { s with st := .configuring } _)
  | beginValidating => exact .of_same rfl rfl
  | verdict =>
    simp only [perform]
    rcases performVerdict_cases s with ⟨_, h⟩ | ⟨_, _, _, h⟩ | ⟨_, h⟩ <;> rw [h]
    · exact .of_same rfl rfl
    · exact s.extends_raise _
    · trivial
  | beginScanning => exact .of_same rfl rfl
  | scanLoop =>
    simp only [perform]
    rcases performScanLoop_cases s with ⟨_, h⟩ | ⟨_, _, _, h⟩ | ⟨_, _, _, h⟩ <;> rw [h]
    · exact ⟨rfl, [.out s.buf, .rel], s.finalize_tr, rfl⟩
    · exact .of_same rfl rfl
    · exact s.extends_raise _
  | storeByte =>
    simp only [perform]
    rcases performStoreByte_cases s with ⟨_, h⟩ | ⟨v, _, h⟩ <;> rw [h]
    · trivial
    · exact ⟨rfl, [.progress s.x], rfl, rfl⟩

/-- An answered transaction appends itself, and then at most a retry delay or a fault's events. -/
theorem answer_extends (s : State) (t : Transaction) (rest : List Task) (reply : Reply) :
    s.Extends (s.answer t rest reply) := by
  have written {val : Byte} (h : t.value? = some val) :
      s.Extends (s.writeRegister (t.chip s.cfg) (t.reg s.cfg) val reply) :=
    ⟨rfl, [_], rfl, by simp [emittable_write s.cfg (writeResult reply) h]⟩
  have attempted (res : ReadResult) :
      s.Extends (s.emit (.rd (Transaction.read.chip s.cfg) (Transaction.read.reg s.cfg) res)) :=
    ⟨rfl, [_], rfl, by simp [emittable_read s.cfg res]⟩
  rcases answer_cases s t rest reply with ⟨val, _, hval, _, h⟩ | ⟨val, _, hval, _, h⟩ |
    ⟨v, rfl, _, h⟩ | ⟨_, rfl, _, _, h⟩ | ⟨_, rfl, _, _, h⟩ <;> rw [h]
  · exact (written hval).trans (.of_same rfl rfl)
  · exact (written hval).trans (State.extends_raise _ _)
  · exact (attempted _).trans (.of_same rfl rfl)
  · exact (attempted _).trans ⟨rfl, [.delay .retry], rfl, rfl⟩
  · exact (attempted _).trans (State.extends_raise _ _)

theorem extends_keptByActions (s₀ : State) : KeptByActions fun _ s => s₀.Extends s where
  go a _ s _ h hp := h.trans (by simpa only [hp, Progress.All] using perform_extends a s)
  wait a _ _ s _ h hp := h.trans (by simpa only [hp, Progress.All] using perform_extends a s)
  stop a _ s _ h hp := h.trans (by simpa only [hp, Progress.All] using perform_extends a s)

/-- A step that is no reset keeps the configuration and appends transactions of R76's list only. -/
theorem step_extends {s t : State} (hr : ¬ ResetComes s) (h : step s = .next t) : s.Extends t := by
  rw [step_of_no_reset hr] at h
  exact commandStep_keeps (P := fun _ s' => s.Extends s') (fun _ _ _ _ _ hp => hp)
    (extends_keptByActions s) (fun u rest s' reply hp => hp.trans (answer_extends s' u rest reply))
    (fun _ _ _ hp => hp) (fun _ _ hp _ => hp) (.of_same rfl rfl) h

/-- Settles O18: the configuration part of `step_extends`. -/
theorem noStepWritesTheConfiguration : Obligations.NoStepWritesTheConfiguration :=
  fun _ _ hr h => (step_extends hr h).1

/-- Settles O19: the trace part of `step_extends`. -/
theorem stepAppendsEmittableEvents : Obligations.StepAppendsEmittableEvents :=
  fun _ _ hr h => (step_extends hr h).2

/-! ### The reset state (R31, R230) -/

/-- Settles O13: every register of `State.resetWith` is given there; of the sample registers each is one
element of sixteen without a value. -/
theorem resetValues : Obligations.ResetValues := by
  intro cfg env inputs replies s
  have hsample (i : Fin 16) : s.sample[i] = none := Vector.getElem_replicate i.isLt
  exact ⟨rfl, rfl, rfl, rfl, rfl, rfl, rfl, rfl, rfl, rfl, rfl, rfl, hsample, rfl, rfl⟩

/-! ### What the tasks ask of the registers (R17, R22, R23, R31) -/

/-- Every register that holds a value in `k` holds one in `k'`. -/
structure Held.Le (k k' : Held) : Prop where
  d : k.d = true → k'.d = true
  samples : k.samples ≤ k'.samples
  v : k.v = true → k'.v = true

/-- The three updates `fits` makes for the tasks that follow keep the order. -/
theorem Held.Le.read {k k' : Held} (h : k.Le k') : Held.Le { k with d := true } { k' with d := true } :=
  ⟨fun _ => rfl, h.samples, h.v⟩

theorem Held.Le.store {k k' : Held} (h : k.Le k') (n : Nat) :
    Held.Le { k with samples := max k.samples n } { k' with samples := max k'.samples n } :=
  ⟨h.d, max_le_max h.samples (Nat.le_refl n), h.v⟩

theorem Held.Le.checked {k k' : Held} (h : k.Le k') :
    Held.Le { k with v := true } { k' with v := true } :=
  ⟨h.d, h.samples, fun _ => rfl⟩

/-- Tasks that fit still fit when more registers hold values. -/
theorem fits_mono {st : SeqState} {k k' : Held} {tasks : List Task} (hk : k.Le k')
    (hlen : k'.samples ≤ 16) (h : fits st k tasks = true) : fits st k' tasks = true := by
  induction tasks generalizing st k k' with
  | nil => exact h
  | cons task rest ih =>
    cases task with
    | bus t =>
      cases t <;> simp only [fits, Bool.and_eq_true] at h ⊢
      case read => exact ⟨h.1, ih hk.read hlen h.2⟩
      all_goals exact ⟨h.1, ih hk hlen h.2⟩
    | act a =>
      cases a <;> simp only [fits, Bool.and_eq_true, decide_eq_true_eq] at h ⊢
      case fastLoop => exact ⟨h.1, ih hk.read hlen h.2⟩
      case fastJudge =>
        obtain ⟨⟨⟨hst, hd⟩, hj⟩, hrest⟩ := h
        exact ⟨⟨⟨hst, hk.d hd⟩, hj⟩, ih hk hlen hrest⟩
      case storeSample i =>
        obtain ⟨⟨⟨hd, hi⟩, hst⟩, hrest⟩ := h
        exact ⟨⟨⟨hk.d hd, hi.trans hk.samples⟩, hst⟩,
          ih (hk.store _) (max_le hlen i.isLt) hrest⟩
      case runChecks =>
        obtain ⟨⟨hs, hst⟩, hrest⟩ := h
        exact ⟨⟨le_antisymm hlen (hs ▸ hk.samples), hst⟩, ih hk.checked hlen hrest⟩
      case verdict =>
        obtain ⟨⟨hst, hv⟩, hrest⟩ := h
        exact ⟨⟨hst, hk.v hv⟩, ih hk hlen hrest⟩
      case beginScanning => exact h
      case scanLoop => exact h
      case storeByte =>
        obtain ⟨⟨hd, hst⟩, hrest⟩ := h
        exact ⟨⟨hk.d hd, hst⟩, hrest⟩
      all_goals exact ⟨h.1, ih hk hlen h.2⟩

theorem SeqState.terminal_iff (st : SeqState) :
    st.terminal = true ↔ st = .finalized ∨ st = .aborted := by
  cases st <;> simp [SeqState.terminal]

/-- In a terminal state nothing remains to be done (R12). -/
theorem eq_nil_of_fits_terminal {st : SeqState} {k : Held} {tasks : List Task}
    (hst : st.terminal = true) (h : fits st k tasks = true) : tasks = [] := by
  cases tasks with
  | nil => rfl
  | cons task rest =>
    rcases (st.terminal_iff).mp hst with rfl | rfl <;> rcases task with t | a
    · cases t <;> simp [fits] at h
    · cases a <;> simp [fits, SeqState.terminal] at h
    · cases t <;> simp [fits] at h
    · cases a <;> simp [fits, SeqState.terminal] at h

@[simp] theorem held_d (s : State) : (held s).d = s.d.isSome := rfl
@[simp] theorem held_samples (s : State) : (held s).samples = leadingValues s.sample.toList := rfl
@[simp] theorem held_v (s : State) : (held s).v = verdictHeld s.v s.vc := rfl

theorem leadingValues_le_length (l : List (Option Byte)) : leadingValues l ≤ l.length := by
  induction l with
  | nil => exact Nat.le_refl 0
  | cons o rest ih =>
    cases o with
    | none => exact Nat.zero_le _
    | some v => exact Nat.succ_le_succ ih

theorem held_samples_le (s : State) : (held s).samples ≤ 16 := by
  simpa using leadingValues_le_length s.sample.toList

/-- Storing an element no later than just after the leading values keeps them and adds it to them. -/
theorem leadingValues_set {l : List (Option Byte)} {i : Nat} (v : Byte) (hlen : i < l.length)
    (hi : i ≤ leadingValues l) : max (leadingValues l) (i + 1) ≤ leadingValues (l.set i (some v)) := by
  induction l generalizing i with
  | nil => cases hlen
  | cons o rest ih =>
    cases i with
    | zero => cases o <;> simp [leadingValues]
    | succ i =>
      cases o with
      | none => cases hi
      | some w =>
        have hrest := ih (Nat.lt_of_succ_lt_succ hlen) (Nat.le_of_succ_le_succ hi)
        simp only [List.set_cons_succ, leadingValues]
        omega

/-- A sample whose elements all hold values has its bytes (R22). -/
theorem exists_mapM_of_leadingValues {l : List (Option Byte)} (h : leadingValues l = l.length) :
    ∃ bytes, l.mapM id = some bytes := by
  induction l with
  | nil => exact ⟨[], rfl⟩
  | cons o rest ih =>
    cases o with
    | none => cases h
    | some v =>
      obtain ⟨bytes, hbytes⟩ := ih (Nat.succ.inj h)
      exact ⟨v :: bytes, by simp [hbytes]⟩

theorem sampleBytes_ne_none {s : State} (h : (held s).samples = 16) : sampleBytes s.sample ≠ none := by
  obtain ⟨bytes, hbytes⟩ := exists_mapM_of_leadingValues (l := s.sample.toList) (by simpa using h)
  simp [sampleBytes, hbytes]

/-- With a verdict held, SCAN's test of it goes on or aborts (R164). -/
theorem performVerdict_of_held {s : State} (h : (held s).v = true) :
    performVerdict s = .go s ∨ ∃ cause, performVerdict s = .stop (s.raise (.validation cause)) := by
  simp only [held] at h
  unfold performVerdict
  rcases hv : s.v with _ | _ | _ <;> rw [hv] at h
  · cases h
  · rcases hc : s.vc with _ | _ | cause <;> rw [hc] at h
    · cases h
    · cases h
    · exact .inr ⟨cause, rfl⟩
  · exact .inl rfl

/-! ### The plans fit the states in which they are performed (R78, R162) -/

/-- The plan of a command fits `Idle`, whatever the registers hold. -/
theorem fits_planOf (i : Instr) (s : State) : fits .idle (held s) (planOf i) = true := by
  have hk : Held.Le ⟨false, 0, false⟩ (held s) := ⟨nofun, Nat.zero_le _, nofun⟩
  refine fits_mono hk (held_samples_le s) ?_
  cases i with
  | chkrom => decide
  | scan => decide
  | _ => rfl

theorem fastJudge_notMem_planOf (i : Instr) : Task.act .fastJudge ∉ planOf i := by
  cases i with
  | chkrom => decide
  | scan => decide
  | _ =>
    simp [planOf, configPlan, setAddressPlan, bankSwitchPlan, readBytePlan, readByteFastPlan, settlePlan]

/-- The tasks BANKSW asks for are a SETADDR and a SETTLE, or none (R114). -/
theorem pulse_cases {m : BankSwitchMethod} {a : Nat} {pulse : List Task}
    (h : bankSwitch m a = .ok pulse) : pulse = [] ∨ ∃ p, pulse = setAddressPlan p ++ settlePlan := by
  rcases bankSwitch_cases m a with hb | ⟨hotspot, _, hb⟩ | ⟨cause, hb⟩ <;> rw [hb] at h
  · cases h; exact .inl rfl
  · cases h; exact .inr ⟨_, rfl⟩
  · cases h

theorem fits_pulse {m : BankSwitchMethod} {a : Nat} {pulse rest : List Task} {st : SeqState} {k : Held}
    (hst : st = .idle ∨ st = .scanning) (h : bankSwitch m a = .ok pulse)
    (hrest : fits st k rest = true) : fits st k (pulse ++ rest) = true := by
  rcases pulse_cases h with rfl | ⟨p, rfl⟩
  · exact hrest
  · rcases hst with rfl | rfl <;> exact hrest

theorem fastJudge_notMem_pulse {m : BankSwitchMethod} {a : Nat} {pulse : List Task}
    (h : bankSwitch m a = .ok pulse) : Task.act .fastJudge ∉ pulse := by
  rcases pulse_cases h with rfl | ⟨p, rfl⟩ <;> simp [setAddressPlan, settlePlan]

/-- One offset's tasks after its BANKSW fit `Scanning`, with either reader (R166). -/
theorem fits_targetPlan (cfg : Cfg) (x : Nat) (k : Held) :
    fits .scanning k (targetPlan cfg x ++ [.act .scanLoop]) = true := by
  cases h : cfg.stabilize <;> simp only [targetPlan, fetchPlan, h] <;> rfl

theorem fastJudge_notMem_targetPlan (cfg : Cfg) (x : Nat) : Task.act .fastJudge ∉ targetPlan cfg x := by
  cases h : cfg.stabilize <;>
    simp [targetPlan, fetchPlan, h, setAddressPlan, settlePlan, readBytePlan, readByteFastPlan]

/-! ### The invariant with the tasks apart from the state -/

/-- `MachineInv` with `tasks` in the place of the state's own `work`: the form that every action and every
answer of a run keeps. -/
structure InvWith (tasks : List Task) (s : State) : Prop where
  canonical : Memory.wf s.env.regs = true
  fit : fits s.st (held s) tasks = true
  fault : s.fc ≠ .none ↔ s.st = .aborted
  owned : s.own = !s.st.terminal
  scanning : s.st = .scanning → s.buf.length = s.x ∧ s.x ≤ s.cfg.romSize ∧
    (.act .storeByte ∈ tasks → s.x < s.cfg.romSize)
  finalized : s.st = .finalized → s.buf.length = s.x ∧ s.x = s.cfg.romSize
  retries : s.rc ≤ s.cfg.maxRetries
  matches_le : s.mc ≤ stableCount
  judged : .act .fastJudge ∈ tasks → s.mc < stableCount
  sampled : s.mc = stableCount → s.d ≠ none

theorem machineInv_iff (s : State) : MachineInv s ↔ InvWith s.work s :=
  ⟨fun ⟨h1, h2, h3, h4, h5, h6, h7, h8, h9, h10⟩ => ⟨h1, h2, h3, h4, h5, h6, h7, h8, h9, h10⟩,
    fun ⟨h1, h2, h3, h4, h5, h6, h7, h8, h9, h10⟩ => ⟨h1, h2, h3, h4, h5, h6, h7, h8, h9, h10⟩⟩

section

variable {tasks rest : List Task} {task : Task} {s : State}

theorem InvWith.scanning_tail (h : InvWith (task :: rest) s) (hst : s.st = .scanning) :
    s.buf.length = s.x ∧ s.x ≤ s.cfg.romSize ∧ (.act .storeByte ∈ rest → s.x < s.cfg.romSize) :=
  have ⟨hbuf, hle, hlt⟩ := h.scanning hst
  ⟨hbuf, hle, fun hm => hlt (List.mem_cons_of_mem task hm)⟩

theorem InvWith.judged_tail (h : InvWith (task :: rest) s) (hm : .act .fastJudge ∈ rest) :
    s.mc < stableCount :=
  h.judged (List.mem_cons_of_mem task hm)

/-- The next task is done and has left the state as it was. -/
theorem InvWith.tail (h : InvWith (task :: rest) s) (hfit : fits s.st (held s) rest = true) :
    InvWith rest s :=
  { h with fit := hfit, scanning := h.scanning_tail, judged := h.judged_tail }

/-- SCAN enters `Configuring` or `Validating` (R163, R164). -/
theorem InvWith.enter {st' : SeqState} (h : InvWith (task :: rest) s) (hst : s.st.terminal = false)
    (hst' : st' = .configuring ∨ st' = .validating) (hfit : fits st' (held s) rest = true) :
    InvWith rest { s with st := st' } :=
  have hab : s.st ≠ .aborted := fun he => by simp [he, SeqState.terminal] at hst
  { h with
    fit := hfit
    fault := by rcases hst' with rfl | rfl <;> simpa [hab] using h.fault
    owned := by rcases hst' with rfl | rfl <;> exact h.owned.trans (by rw [hst]; rfl)
    scanning := by rcases hst' with rfl | rfl <;> nofun
    finalized := by rcases hst' with rfl | rfl <;> nofun
    judged := h.judged_tail }

theorem Report.faultCause_ne_none (r : Report) : r.faultCause ≠ .none := by
  rcases r with _ | (_ | _) | _ | _ <;> nofun

/-- Fault entry ends the operation in `Aborted` (R207). -/
theorem InvWith.raise (h : InvWith tasks s) (r : Report) : InvWith [] (s.raise r) where
  canonical := by simpa using h.canonical
  fit := by simp [fits, SeqState.terminal]
  fault := by simp [r.faultCause_ne_none]
  owned := by simp [SeqState.terminal]
  scanning := by simp
  finalized := by simp
  retries := by simpa using h.retries
  matches_le := by simpa using h.matches_le
  judged := nofun
  sampled := by simpa using h.sampled

/-- In `Scanning` with the image complete the operation ends in `Finalized` (R170). -/
theorem InvWith.finalize (h : InvWith tasks s) (hst : s.st = .scanning) (hx : s.cfg.romSize ≤ s.x) :
    InvWith [] s.finalize :=
  have ⟨hbuf, hle, _⟩ := h.scanning hst
  have hfc : s.fc = .none := by simpa [hst] using h.fault
  { h with
    fit := rfl
    fault := by simp [hfc]
    owned := rfl
    scanning := nofun
    finalized := fun _ => ⟨hbuf, le_antisymm hle hx⟩
    judged := nofun }

end

/-! ### Every action and every answer keeps the invariant -/

/-- An action used no register without a value, and `P` holds of the state it leads to with the tasks then
to do, `rest` being those that follow the action. -/
def Progress.LeadsTo (P : List Task → State → Prop) (rest : List Task) : Progress → Prop
  | .go s => P rest s
  | .wait tasks s => P (tasks ++ rest) s
  | .stop s => P [] s
  | .noValue _ => False

section

variable {rest : List Task} {s : State}

theorem performFastLoop_keeps (h : InvWith (.act .fastLoop :: rest) s) :
    (performFastLoop s).LeadsTo InvWith rest := by
  have hfit := h.fit
  simp only [fits, Bool.and_eq_true] at hfit
  obtain ⟨⟨hst, hj⟩, hrest⟩ := hfit
  rcases performFastLoop_cases s with ⟨hle, hp⟩ | ⟨_, _, hp⟩ | ⟨hlt, _, hp⟩ <;> rw [hp]
  · -- eleven equal samples have been read, so `D` holds a value
    have hd : s.d ≠ none := h.sampled (le_antisymm h.matches_le hle)
    have hheld : held s = { held s with d := true } := by
      simp [held, Option.isSome_iff_ne_none.mpr hd]
    exact h.tail (hheld ▸ hrest)
  · exact h.raise _
  · refine { h with
      fit := ?_, scanning := fun hs => ?_, retries := Nat.zero_le _, judged := fun _ => hlt }
    · have hst' : ((s.st == .idle || s.st == .validating) || s.st == .scanning) = true := by
        simp only [Bool.or_eq_true] at hst ⊢
        exact hst.imp_left .inl
      simp only [List.cons_append, List.nil_append, fits, Bool.and_eq_true]
      exact ⟨hst', ⟨⟨⟨hst, trivial⟩, by simpa [noJudge] using hj⟩, ⟨hst, hj⟩, hrest⟩⟩
    · obtain ⟨hbuf, hle, hfetch⟩ := h.scanning hs
      exact ⟨hbuf, hle, fun hm => hfetch (by simpa using hm)⟩

theorem performFastJudge_keeps (h : InvWith (.act .fastJudge :: rest) s) :
    (performFastJudge s).LeadsTo InvWith rest := by
  have hfit := h.fit
  simp only [fits, Bool.and_eq_true] at hfit
  obtain ⟨⟨⟨hst, hd⟩, hj⟩, hrest⟩ := hfit
  have hmc : s.mc < stableCount := h.judged List.mem_cons_self
  have hnone : Task.act .fastJudge ∉ rest := by simpa [noJudge] using hj
  have hi := h.tail hrest
  rcases performFastJudge_cases s with
    ⟨hn, hp⟩ | ⟨v, hv, _, hp⟩ | ⟨v, _, _, hp⟩ | ⟨v, w, _, _, _, hp⟩ <;> rw [hp]
  · simp [hn] at hd
  · exact { hi with
      matches_le := hmc, judged := fun hm => absurd hm hnone, sampled := fun _ => by simp [hv] }
  · exact { hi with
      matches_le := Nat.zero_le _, judged := fun _ => Nat.zero_lt_succ _, sampled := nofun }
  · exact { hi with
      matches_le := Nat.zero_le _, judged := fun _ => Nat.zero_lt_succ _, sampled := nofun }

theorem performStoreSample_keeps {i : Fin 16} (h : InvWith (.act (.storeSample i) :: rest) s) :
    (performStoreSample i s).LeadsTo InvWith rest := by
  have hfit := h.fit
  simp only [fits, Bool.and_eq_true, decide_eq_true_eq] at hfit
  obtain ⟨⟨⟨hd, hi⟩, _⟩, hrest⟩ := hfit
  rcases performStoreSample_cases i s with ⟨hn, hp⟩ | ⟨v, _, hp⟩ <;> rw [hp]
  · simp [hn] at hd
  · have hle : Held.Le { held s with samples := max (held s).samples (i.val + 1) }
        (held { s with sample := s.sample.set i.val (some v) }) :=
      ⟨id, by simpa [Vector.toList_set] using leadingValues_set v (by simp) hi, id⟩
    exact { h with
      fit := fits_mono hle (held_samples_le _) hrest
      scanning := h.scanning_tail
      judged := h.judged_tail }

theorem performChecks_keeps (h : InvWith (.act .runChecks :: rest) s) :
    (performChecks s).LeadsTo InvWith rest := by
  have hfit := h.fit
  simp only [fits, Bool.and_eq_true, decide_eq_true_eq] at hfit
  obtain ⟨⟨hs, _⟩, hrest⟩ := hfit
  rcases performChecks_cases s with ⟨hn, hp⟩ | ⟨_, _, _, hp⟩ | ⟨_, cause, _, _, hp⟩ <;> rw [hp]
  · exact sampleBytes_ne_none hs hn
  · exact { h with fit := hrest, scanning := h.scanning_tail, judged := h.judged_tail }
  · exact { h with fit := hrest, scanning := h.scanning_tail, judged := h.judged_tail }

theorem performBeginScan_keeps (h : InvWith (.act .beginScan :: rest) s) :
    (performBeginScan s).LeadsTo InvWith rest := by
  have hfit := h.fit
  simp only [fits, Bool.and_eq_true, beq_iff_eq] at hfit
  obtain ⟨hst, hrest⟩ := hfit
  have entered := h.enter (by rw [hst]; rfl) (.inl rfl) hrest
  rcases performBeginScan_cases s with ⟨_, hp⟩ | ⟨_, hp⟩ <;> rw [hp]
  · exact entered
  · exact entered.raise _

theorem performVerdict_keeps (h : InvWith (.act .verdict :: rest) s) :
    (performVerdict s).LeadsTo InvWith rest := by
  have hfit := h.fit
  simp only [fits, Bool.and_eq_true] at hfit
  obtain ⟨⟨_, hv⟩, hrest⟩ := hfit
  rcases performVerdict_of_held hv with hp | ⟨cause, hp⟩ <;> rw [hp]
  · exact h.tail hrest
  · exact h.raise _

theorem performScanLoop_keeps (h : InvWith (.act .scanLoop :: rest) s) :
    (performScanLoop s).LeadsTo InvWith rest := by
  have hfit := h.fit
  simp only [fits, Bool.and_eq_true, beq_iff_eq, List.isEmpty_iff] at hfit
  obtain ⟨hst, rfl⟩ := hfit
  rcases performScanLoop_cases s with ⟨hx, hp⟩ | ⟨pulse, hx, hb, hp⟩ | ⟨r, _, _, hp⟩ <;> rw [hp]
  · exact h.finalize hst hx
  · have hj : Task.act .fastJudge ∉ pulse ++ targetPlan s.cfg s.x ++ [.act .scanLoop] ++ [] := by
      simp [fastJudge_notMem_pulse hb, fastJudge_notMem_targetPlan]
    have ⟨hbuf, hle, _⟩ := h.scanning hst
    exact { h with
      fit := by
        rw [List.append_nil, List.append_assoc, hst]
        exact fits_pulse (.inr rfl) hb (fits_targetPlan _ _ _)
      scanning := fun _ => ⟨hbuf, hle, fun _ => hx⟩
      judged := fun hm => absurd hm hj }
  · exact h.raise _

theorem performStoreByte_keeps (h : InvWith (.act .storeByte :: rest) s) :
    (performStoreByte s).LeadsTo InvWith rest := by
  have hfit := h.fit
  simp only [fits, Bool.and_eq_true, beq_iff_eq] at hfit
  obtain ⟨⟨hd, hst⟩, rfl⟩ := hfit
  have ⟨hbuf, _, hlt⟩ := h.scanning hst
  rcases performStoreByte_cases s with ⟨hn, hp⟩ | ⟨v, _, hp⟩ <;> rw [hp]
  · simp [hn] at hd
  · exact { h with
      fit := by simp [fits, hst]
      scanning := fun _ => ⟨by simp [hbuf], hlt List.mem_cons_self, by simp⟩
      finalized := by simp [hst]
      judged := by simp }

/-- Every action keeps the invariant and uses no register without a value. -/
theorem perform_keeps (a : Action) (h : InvWith (.act a :: rest) s) :
    (perform a s).LeadsTo InvWith rest := by
  have hfit := h.fit
  cases a with
  | delay k =>
    simp only [fits, Bool.and_eq_true] at hfit
    exact { h.tail hfit.2 with }
  | bankSwitch m a =>
    simp only [fits, Bool.and_eq_true, beq_iff_eq] at hfit
    obtain ⟨hst, hrest⟩ := hfit
    have hi := h.tail hrest
    simp only [perform]
    cases hb : bankSwitch m a with
    | error r => exact h.raise r
    | ok pulse =>
      have hwait : InvWith (pulse ++ rest) s :=
        { hi with
          fit := fits_pulse (.inl hst) hb hrest
          scanning := by simp [hst]
          judged := by simpa [fastJudge_notMem_pulse hb] using hi.judged }
      cases pulse with
      | nil => exact hi
      | cons task pulse => exact hwait
  | beginRead =>
    simp only [fits, Bool.and_eq_true] at hfit
    exact { h.tail hfit.2 with retries := Nat.zero_le _ }
  | beginFast =>
    simp only [fits, Bool.and_eq_true] at hfit
    exact { h.tail hfit.2 with
      matches_le := Nat.zero_le _, judged := fun _ => Nat.zero_lt_succ _, sampled := nofun }
  | fastLoop => exact performFastLoop_keeps h
  | fastJudge => exact performFastJudge_keeps h
  | storeSample i => exact performStoreSample_keeps h
  | runChecks => exact performChecks_keeps h
  | beginScan => exact performBeginScan_keeps h
  | beginValidating =>
    simp only [fits, Bool.and_eq_true, beq_iff_eq] at hfit
    obtain ⟨hst, hrest⟩ := hfit
    exact h.enter (by rw [hst]; rfl) (.inr rfl) hrest
  | verdict => exact performVerdict_keeps h
  | beginScanning =>
    simp only [fits, Bool.and_eq_true, beq_iff_eq] at hfit
    obtain ⟨hst, rfl⟩ := hfit
    exact { h with
      fit := rfl
      fault := by simpa [hst] using h.fault
      owned := by simpa [hst, SeqState.terminal] using h.owned
      scanning := fun _ => ⟨rfl, Nat.zero_le _, by simp⟩
      finalized := nofun
      judged := by simp }
  | scanLoop => exact performScanLoop_keeps h
  | storeByte => exact performStoreByte_keeps h

/-- An answered write keeps the register space canonical. -/
theorem Env.wf_answered {cfg : Cfg} {e : Env} (chip reg val : Byte) (reply : Reply)
    (h : Memory.wf e.regs = true) :
    Memory.wf (e.answered cfg (location chip reg) val reply).regs = true := by
  rcases Env.answered_cases cfg e (location chip reg) val reply with ⟨he, _⟩ | ⟨he, _⟩ <;> rw [he]
  · exact Env.wf_write val (location_lt chip reg) h
  · exact h

/-- What follows a write fits the registers as they are. -/
theorem fits_of_write {st : SeqState} {k : Held} {t : Transaction} {val : Byte}
    (ht : t.value? = some val) (h : fits st k (.bus t :: rest) = true) : fits st k rest = true := by
  cases t with
  | read => cases ht
  | _ =>
    simp only [fits, Bool.and_eq_true] at h
    exact h.2

/-- Every answer keeps the invariant (R47). -/
theorem answer_keeps (t : Transaction) (reply : Reply) (h : InvWith (.bus t :: rest) s) :
    InvWith (s.answer t rest reply).work (s.answer t rest reply) := by
  rcases answer_cases s t rest reply with ⟨val, _, ht, _, hp⟩ | ⟨val, _, ht, _, hp⟩ |
    ⟨v, rfl, _, hp⟩ | ⟨_, rfl, _, hrc, hp⟩ | ⟨_, rfl, _, _, hp⟩ <;> rw [hp]
  · have hi := h.tail (fits_of_write ht h.fit)
    exact { hi with canonical := Env.wf_answered _ _ _ _ h.canonical }
  · have written : InvWith (.bus t :: rest)
        (s.writeRegister (t.chip s.cfg) (t.reg s.cfg) val reply) :=
      { h with canonical := Env.wf_answered _ _ _ _ h.canonical }
    simpa using written.raise _
  · have hfit := h.fit
    simp only [fits, Bool.and_eq_true] at hfit
    exact { h with
      fit := hfit.2, scanning := h.scanning_tail, judged := h.judged_tail, sampled := nofun }
  · exact { h with retries := hrc }
  · have attempted : InvWith (.bus .read :: rest)
        (s.emit (.rd (Transaction.read.chip s.cfg) (Transaction.read.reg s.cfg) .ioFault)) :=
      { h with }
    simpa using attempted.raise _

end

theorem steady_invWith : Steady InvWith := fun _ _ _ _ _ h => { h with }

theorem invWith_keptByActions : KeptByActions InvWith where
  go a _ _ _ h hp := by simpa only [hp, Progress.LeadsTo] using perform_keeps a h
  wait a _ _ _ _ h hp := by simpa only [hp, Progress.LeadsTo] using perform_keeps a h
  stop a _ _ _ h hp := by simpa only [hp, Progress.LeadsTo] using perform_keeps a h

theorem invWith_keptByAnswers : KeptByAnswers InvWith := fun t _ _ reply h => answer_keeps t reply h

theorem perform_ne_noValue (a : Action) (rest : List Task) (s : State) (r : ValuelessRegister)
    (h : InvWith (.act a :: rest) s) : perform a s ≠ .noValue r := by
  intro hp
  simpa only [hp, Progress.LeadsTo] using perform_keeps a h

/-- The free-value counter is no part of the invariant. -/
theorem InvWith.draws {tasks : List Task} {s : State} (n : Nat) (h : InvWith tasks s) :
    InvWith tasks { s with env := { s.env with draws := n } } := { h with }

/-- An accepted command's plan meets the invariant (R161). -/
theorem InvWith.plan {s : State} (i : Instr) (h : InvWith [] s) (hst : s.st = .idle) :
    InvWith (planOf i) s :=
  { h with
    fit := hst ▸ fits_planOf i s
    scanning := by simp [hst]
    judged := fun hm => absurd hm (fastJudge_notMem_planOf i) }

theorem InvWith.withBusAnswer {tasks : List Task} {s : State} (h : InvWith tasks s) :
    InvWith tasks s.withBusAnswer := by
  cases hr : s.replies with
  | nil => rw [State.withBusAnswer_of_none hr]; exact { h with }
  | cons r rest => rwa [State.withBusAnswer_of_reply hr]

theorem State.withBusAnswer_work (s : State) : s.withBusAnswer.work = s.work := by
  unfold State.withBusAnswer
  split <;> rfl

/-! ### The steps -/

theorem drive_ne_fault_of_inv {s : State} (h : InvWith s.work s) (f : Fault) : drive s ≠ .fault f :=
  drive_ne_fault steady_invWith invWith_keptByActions invWith_keptByAnswers perform_ne_noValue h f

theorem exec_ne_fault {i : Instr} {s : State} (h : InvWith [] s) (f : Fault) : exec i s ≠ .fault f := by
  rw [exec_eq_issue, issue]
  split
  · nofun
  · split
    · nofun
    · rename_i hst
      exact drive_ne_fault_of_inv (steady_invWith.work _ (h.plan i (not_not.mp hst))) f

theorem commandStep_ne_fault {s : State} (h : InvWith s.work s) (f : Fault) :
    commandStep s ≠ .fault f := by
  unfold commandStep
  split
  · exact drive_ne_fault_of_inv (s.withBusAnswer_work ▸ h.withBusAnswer) f
  · rename_i hw
    split
    · split
      · exact exec_ne_fault (steady_invWith.inputs _ (hw ▸ h)) f
      · nofun
    · nofun

/-- The block's state after reset has the invariant in every environment of canonical form. -/
theorem machineInv_resetWith (cfg : Cfg) {env : Env} (inputs : List HostInput) (replies : List Reply)
    (h : Memory.wf env.regs = true) : MachineInv (State.resetWith cfg env inputs replies) :=
  ⟨h, rfl, by simp [State.resetWith], rfl, nofun, nofun, Nat.zero_le _, Nat.zero_le _, nofun, nofun⟩

/-- Settles O15: the reset state starts with no known register. -/
theorem resetHasInvariant : Obligations.ResetHasInvariant := machineInv_resetWith _ _ _ rfl

/-- Settles O16: a reset gives the invariant anew; any other step is a run of actions and answers, each of
which keeps `InvWith`. -/
theorem stepKeepsInvariant : Obligations.StepKeepsInvariant := by
  intro s t h hstep
  by_cases hr : ResetComes s
  · obtain ⟨cfg, rest, hi⟩ := hr
    rw [step_of_reset hi] at hstep
    cases hstep
    exact machineInv_resetWith cfg rest s.replies h.1
  · rw [step_of_no_reset hr] at hstep
    rw [machineInv_iff] at h ⊢
    exact commandStep_keeps steady_invWith invWith_keptByActions invWith_keptByAnswers
      (fun _ _ n hp => hp.draws n) (fun i _ hp hst => hp.plan i hst) h hstep

/-- Settles O17: a reset answers a next state, and `perform_keeps` excludes the fault from every action of
any other step. -/
theorem noStepUsesAnUnwrittenRegister : Obligations.NoStepUsesAnUnwrittenRegister := by
  intro s h f
  by_cases hr : ResetComes s
  · obtain ⟨cfg, rest, hi⟩ := hr
    rw [step_of_reset hi]
    nofun
  · rw [step_of_no_reset hr]
    exact commandStep_ne_fault ((machineInv_iff s).mp h) f

/-- Settles O12: in a terminal state no task remains and no command is accepted, so the block rests. -/
theorem terminalStatesStay : Obligations.TerminalStatesStay := by
  intro s t h hst hr hstep
  have hwork : s.work = [] := eq_nil_of_fits_terminal hst ((machineInv_iff s).mp h).fit
  rw [step_of_no_reset hr] at hstep
  rcases commandStep_next hstep with ⟨hw, _⟩ | ⟨_, ht⟩ | ⟨_, cw, rest, i, _, _, hexec⟩
  · exact absurd hwork hw
  · exact ht
  · rw [exec_eq_issue] at hexec
    obtain ⟨_, hidle, _⟩ := issue_next hexec
    rw [show s.st = .idle from hidle] at hst
    cases hst

end Sys2Proof.Machine

/-! ## Proofs of the family "memory": the translation of logical addresses (R46) and the canonical form of
the register space (R43, R47). -/

namespace Sys2Proof.Machine

open Sys2Proof

/-! ### The translation (R46) -/

theorem realAddress_add_romOffset (x : Nat) (h : romOffset ≤ x + romOffset) :
    realAddress (x + romOffset) h = romOffset + x % bankWindow := by
  rw [realAddress, Nat.add_sub_cancel, Nat.add_comm]

theorem bankNumber_add_romOffset (x : Nat) (h : romOffset ≤ x + romOffset) :
    bankNumber (x + romOffset) h = x / bankWindow := by
  rw [bankNumber, Nat.add_sub_cancel]

/-- Settles O32: by the formulas of R46 the bounds are those of a remainder, and one stride adds nothing to
the remainder and one to the quotient. -/
theorem translationLaws : Obligations.TranslationLaws := by
  intro x h h'
  have hpos : 0 < bankWindow := by decide
  simp only [realAddress_add_romOffset, bankNumber_add_romOffset]
  refine ⟨Nat.le_add_right _ _, Nat.add_lt_add_left (Nat.mod_lt x hpos) _, rfl, rfl, ?_,
    Nat.add_div_right x hpos⟩
  rw [Nat.add_mod_right]

/-! ### The canonical form of the register space (R43, R47) -/

/-- No action of the block touches the environment: only answered transactions do (R47). -/
theorem perform_env (a : Action) (s : State) : (perform a s).All fun s' => s'.env = s.env := by
  cases a with
  | delay _ | beginRead | beginFast | beginValidating | beginScanning => rfl
  | bankSwitch m a =>
    simp only [perform]
    rcases bankSwitch_cases m a with h | ⟨_, _, h⟩ | ⟨cause, h⟩ <;> rw [h]
    · rfl
    · rfl
    · exact s.raise_env _
  | fastLoop =>
    rcases performFastLoop_cases s with ⟨_, h⟩ | ⟨_, _, h⟩ | ⟨_, _, h⟩ <;>
      simp [perform, h, Progress.All]
  | fastJudge =>
    rcases performFastJudge_cases s with ⟨_, h⟩ | ⟨_, _, _, h⟩ | ⟨_, _, _, h⟩ | ⟨_, _, _, _, _, h⟩ <;>
      simp [perform, h, Progress.All]
  | storeSample i =>
    rcases performStoreSample_cases i s with ⟨_, h⟩ | ⟨_, _, h⟩ <;> simp [perform, h, Progress.All]
  | runChecks =>
    rcases performChecks_cases s with ⟨_, h⟩ | ⟨_, _, _, h⟩ | ⟨_, _, _, _, h⟩ <;>
      simp [perform, h, Progress.All]
  | beginScan =>
    rcases performBeginScan_cases s with ⟨_, h⟩ | ⟨_, h⟩ <;> simp [perform, h, Progress.All]
  | verdict =>
    rcases performVerdict_cases s with ⟨_, h⟩ | ⟨_, _, _, h⟩ | ⟨_, h⟩ <;>
      simp [perform, h, Progress.All]
  | scanLoop =>
    rcases performScanLoop_cases s with ⟨_, h⟩ | ⟨_, _, _, h⟩ | ⟨_, _, _, h⟩ <;>
      simp [perform, h, Progress.All]
  | storeByte =>
    rcases performStoreByte_cases s with ⟨_, h⟩ | ⟨_, _, h⟩ <;> simp [perform, h, Progress.All]

theorem Progress.All.imp {P Q : State → Prop} {p : Progress} (hp : p.All P) (h : ∀ s, P s → Q s) :
    p.All Q := by
  cases p with
  | go s | wait _ s | stop s => exact h s hp
  | noValue _ => trivial

/-- A property of the state alone that holds of what every action leads to is kept by the actions. -/
theorem keptByActions_of_all {P : State → Prop} (h : ∀ a s, P s → (perform a s).All P) :
    KeptByActions fun _ s => P s where
  go a _ s _ hp hq := by simpa only [hq, Progress.All] using h a s hp
  wait a _ _ s _ hp hq := by simpa only [hq, Progress.All] using h a s hp
  stop a _ s _ hp hq := by simpa only [hq, Progress.All] using h a s hp

/-- A property of the environment alone is kept by every action. -/
theorem env_keptByActions (P : Env → Prop) : KeptByActions fun _ s => P s.env :=
  keptByActions_of_all fun a s hp => (perform_env a s).imp fun _ henv => henv ▸ hp

/-- What an answered transaction does to the environment: an answered write, or for a read nothing. -/
theorem answer_env_cases (s : State) (t : Transaction) (rest : List Task) (reply : Reply) :
    (∃ val, t.value? = some val ∧ (s.answer t rest reply).env =
      s.env.answered s.cfg (location (t.chip s.cfg) (t.reg s.cfg)) val reply) ∨
    (t = .read ∧ (s.answer t rest reply).env = s.env) := by
  rcases answer_cases s t rest reply with ⟨val, _, ht, _, h⟩ | ⟨val, _, ht, _, h⟩ |
    ⟨_, ht, _, h⟩ | ⟨_, ht, _, _, h⟩ | ⟨_, ht, _, _, h⟩ <;> rw [h]
  · exact .inl ⟨val, ht, rfl⟩
  · exact .inl ⟨val, ht, State.raise_env _ _⟩
  · exact .inr ⟨ht, rfl⟩
  · exact .inr ⟨ht, rfl⟩
  · exact .inr ⟨ht, State.raise_env _ _⟩

/-- An answered transaction keeps the register space canonical. -/
theorem answer_wf (s : State) (t : Transaction) (rest : List Task) (reply : Reply)
    (h : Memory.wf s.env.regs = true) : Memory.wf (s.answer t rest reply).env.regs = true := by
  rcases answer_env_cases s t rest reply with ⟨val, _, henv⟩ | ⟨_, henv⟩ <;> rw [henv]
  · exact Env.wf_answered _ _ val reply h
  · exact h

/-- Settles O23: a reset keeps the environment; in any other step the actions leave it and every answered
write is one inside the register space. -/
theorem stepKeepsRegistersCanonical : Obligations.StepKeepsRegistersCanonical := by
  intro s t h hstep
  by_cases hr : ResetComes s
  · obtain ⟨cfg, rest, hi⟩ := hr
    rw [step_of_reset hi] at hstep
    cases hstep
    exact h
  · rw [step_of_no_reset hr] at hstep
    exact commandStep_keeps (P := fun _ s' => Memory.wf s'.env.regs = true) (fun _ _ _ _ _ hp => hp)
      (env_keptByActions fun e => Memory.wf e.regs = true)
      (fun u rest s' reply hp => answer_wf s' u rest reply hp)
      (fun _ _ _ hp => hp) (fun _ _ hp _ => hp) h hstep

end Sys2Proof.Machine

/-! ## Proofs of the family "encoding": the command word, its decoder and its encoder (R71 to R73, R78 to
R80, R82), and the expansion of BANKSW (R83). -/

namespace Sys2Proof

/-! ### The rows of the match and mask table (R78) -/

theorem OpcodeRow.accepts_iff {row : OpcodeRow} {cw : CommandWord} :
    row.accepts cw = true ↔ cw &&& row.mask = row.pattern := beq_iff_eq

/-- Two rows ask for different values of a bit that both masks cover. -/
def OpcodeRow.Conflicts (row row' : OpcodeRow) : Prop :=
  row.pattern &&& row'.mask ≠ row'.pattern &&& row.mask

theorem OpcodeRow.Conflicts.symm {row row' : OpcodeRow} (h : row.Conflicts row') :
    row'.Conflicts row := Ne.symm h

theorem OpcodeRow.Conflicts.not_accepts {row row' : OpcodeRow} {cw : CommandWord}
    (h : row.Conflicts row') (ha : row.accepts cw = true) : row'.accepts cw = false := by
  by_contra ha'
  rw [Bool.not_eq_false, OpcodeRow.accepts_iff] at ha'
  rw [OpcodeRow.accepts_iff] at ha
  apply h
  rw [← ha, ← ha', BitVec.and_assoc, BitVec.and_assoc, BitVec.and_comm row.mask]

theorem opcodeRows_pairwise_conflicts : opcodeRows.Pairwise OpcodeRow.Conflicts := by
  unfold OpcodeRow.Conflicts
  decide

/-- At most one row accepts a word (R79). -/
theorem eq_of_accepts {row row' : OpcodeRow} {cw : CommandWord} (hrow : row ∈ opcodeRows)
    (hrow' : row' ∈ opcodeRows) (ha : row.accepts cw = true) (ha' : row'.accepts cw = true) :
    row = row' := by
  have hsymm : Std.Symm OpcodeRow.Conflicts := ⟨fun _ _ => OpcodeRow.Conflicts.symm⟩
  by_contra hne
  have hrejected := (opcodeRows_pairwise_conflicts.forall hrow hrow' hne).not_accepts ha
  exact Bool.false_ne_true (hrejected.symm.trans ha')

/-! ### The decoder by its rows (R79) -/

theorem mem_and_accepts_of_find {row : OpcodeRow} {cw : CommandWord}
    (h : opcodeRows.find? (fun row => row.accepts cw) = some row) :
    row ∈ opcodeRows ∧ row.accepts cw = true :=
  ⟨List.mem_of_find?_eq_some h, List.find?_some (p := fun row : OpcodeRow => row.accepts cw) h⟩

theorem decode_of_accepts {row : OpcodeRow} {cw : CommandWord} (hrow : row ∈ opcodeRows)
    (ha : row.accepts cw = true) : decode cw = .command (row.build cw) := by
  unfold decode
  cases hfind : opcodeRows.find? fun row => row.accepts cw with
  | none => exact absurd ha (List.find?_eq_none.mp hfind row hrow)
  | some row' =>
    obtain ⟨hrow', ha'⟩ := mem_and_accepts_of_find hfind
    rw [eq_of_accepts hrow hrow' ha ha']

theorem exists_row_of_decode {cw : CommandWord} {i : Instr} (h : decode cw = .command i) :
    ∃ row ∈ opcodeRows, row.accepts cw = true ∧ row.build cw = i := by
  unfold decode at h
  split at h
  · rename_i row hfind
    obtain ⟨hrow, ha⟩ := mem_and_accepts_of_find hfind
    exact ⟨row, hrow, ha, Decoded.command.inj h⟩
  · cases h

theorem reserved_iff_no_command (cw : CommandWord) :
    (∃ why, decode cw = .reserved why) ↔ ¬ ∃ i, decode cw = .command i := by
  cases decode cw <;> simp

theorem exists_command_iff_accepts (cw : CommandWord) :
    (∃ i, decode cw = .command i) ↔ ∃ row ∈ opcodeRows, row.accepts cw = true := by
  constructor
  · rintro ⟨i, hi⟩
    obtain ⟨row, hrow, ha, _⟩ := exists_row_of_decode hi
    exact ⟨row, hrow, ha⟩
  · rintro ⟨row, hrow, ha⟩
    exact ⟨_, decode_of_accepts hrow ha⟩

/-- Settles O3: two rows that accept one word would not conflict, and the decoder answers a reserved
encoding where its search finds no row. -/
theorem atMostOneRowMatches : Obligations.AtMostOneRowMatches := by
  intro cw
  have hreserved : (∃ why, decode cw = .reserved why) ↔ ∀ row ∈ opcodeRows, row.accepts cw = false := by
    simp [reserved_iff_no_command, exists_command_iff_accepts]
  refine ⟨?_, hreserved⟩
  have hpairwise := opcodeRows_pairwise_conflicts.filter fun row => row.accepts cw
  have haccepts (row : OpcodeRow) (h : row ∈ opcodeRows.filter fun row => row.accepts cw) :
      row.accepts cw = true := (List.mem_filter.mp h).2
  rcases hrows : opcodeRows.filter fun row => row.accepts cw with _ | ⟨row, _ | ⟨row', rest⟩⟩
  · rw [hrows]; exact Nat.zero_le 1
  · rw [hrows]; exact Nat.le_refl 1
  · rw [hrows] at hpairwise haccepts
    have hconflict : row.Conflicts row' := (List.pairwise_cons.mp hpairwise).1 row' (by simp)
    have hrejected := hconflict.not_accepts (haccepts row (by simp))
    exact absurd (haccepts row' (by simp)) (by simp [hrejected])

/-! ### The fields of a word (R71) -/

theorem fields_append (cw : CommandWord) :
    opField cw ++ methodField cw ++ zeroField cw ++ immField cw = cw := by
  have hop : opField cw ++ methodField cw = cw.extractLsb' 26 (4 + 2) :=
    BitVec.extractLsb'_append_extractLsb'_eq_extractLsb' rfl
  have hz : cw.extractLsb' 26 (4 + 2) ++ zeroField cw = cw.extractLsb' 24 (4 + 2 + 2) :=
    BitVec.extractLsb'_append_extractLsb'_eq_extractLsb' rfl
  have himm : cw.extractLsb' 24 (4 + 2 + 2) ++ immField cw = cw.extractLsb' 0 32 :=
    BitVec.extractLsb'_append_extractLsb'_eq_extractLsb' rfl
  rw [hop, hz, himm, BitVec.extractLsb'_eq_self]

theorem eq_of_fields {cw cw' : CommandWord} (hop : opField cw = opField cw')
    (hm : methodField cw = methodField cw') (hz : zeroField cw = zeroField cw')
    (himm : immField cw = immField cw') : cw = cw' := by
  rw [← fields_append cw, ← fields_append cw', hop, hm, hz, himm]

section

variable (op : BitVec 4) (m : BitVec 2) (imm : BitVec 24)

@[simp] theorem opField_commandWord : opField (commandWord op m imm) = op :=
  (BitVec.extractLsb'_append_eq_of_le (by decide)).trans <|
    (BitVec.extractLsb'_append_eq_of_le (by decide)).trans BitVec.extractLsb'_append_eq_left

@[simp] theorem methodField_commandWord : methodField (commandWord op m imm) = m :=
  (BitVec.extractLsb'_append_eq_of_le (by decide)).trans <|
    (BitVec.extractLsb'_append_eq_of_le (by decide)).trans BitVec.extractLsb'_append_eq_right

@[simp] theorem zeroField_commandWord : zeroField (commandWord op m imm) = 0#2 :=
  (BitVec.extractLsb'_append_eq_of_le (by decide)).trans BitVec.extractLsb'_append_eq_right

@[simp] theorem immField_commandWord : immField (commandWord op m imm) = imm :=
  BitVec.extractLsb'_append_eq_right

end

@[simp] theorem opField_and (cw cw' : CommandWord) :
    opField (cw &&& cw') = opField cw &&& opField cw' := BitVec.extractLsb'_and

@[simp] theorem opField_or (cw cw' : CommandWord) :
    opField (cw ||| cw') = opField cw ||| opField cw' := BitVec.extractLsb'_or

@[simp] theorem methodField_and (cw cw' : CommandWord) :
    methodField (cw &&& cw') = methodField cw &&& methodField cw' := BitVec.extractLsb'_and

@[simp] theorem methodField_or (cw cw' : CommandWord) :
    methodField (cw ||| cw') = methodField cw ||| methodField cw' := BitVec.extractLsb'_or

@[simp] theorem zeroField_and (cw cw' : CommandWord) :
    zeroField (cw &&& cw') = zeroField cw &&& zeroField cw' := BitVec.extractLsb'_and

@[simp] theorem zeroField_or (cw cw' : CommandWord) :
    zeroField (cw ||| cw') = zeroField cw ||| zeroField cw' := BitVec.extractLsb'_or

@[simp] theorem immField_and (cw cw' : CommandWord) :
    immField (cw &&& cw') = immField cw &&& immField cw' := BitVec.extractLsb'_and

@[simp] theorem immField_or (cw cw' : CommandWord) :
    immField (cw ||| cw') = immField cw ||| immField cw' := BitVec.extractLsb'_or

/-- A word with `Z` zero is the command word of its other fields. -/
theorem commandWord_fields {cw : CommandWord} (hz : zeroField cw = 0#2) :
    commandWord (opField cw) (methodField cw) (immField cw) = cw := by
  rw [commandWord, ← hz, fields_append]

/-! ### What a row's command encodes to (R73, R78, R82) -/

/-- The bits of `IMM` under `mask`, put into a word of their own. -/
theorem commandWord_immField_and (op : BitVec 4) (m : BitVec 2) (mask : BitVec 24) (cw : CommandWord) :
    commandWord op m (immField cw &&& mask) =
      commandWord op m 0#24 ||| (cw &&& commandWord 0#4 0#2 mask) := by
  apply eq_of_fields <;> simp

theorem toNat_physicalOperand (cw : CommandWord) :
    (physicalOperand cw).toNat = (immField cw).toNat % 2 ^ 16 := by
  simp [physicalOperand, immField]

/-- The operand of a SETADDR word is the lower 16 bits of `IMM`, the others being 0 (R73). -/
theorem setWidth_physicalOperand (cw : CommandWord) :
    (physicalOperand cw).setWidth 24 = immField cw &&& 0x00FFFF#24 := by
  apply BitVec.eq_of_toNat_eq
  rw [BitVec.toNat_setWidth, toNat_physicalOperand, BitVec.toNat_and, Nat.mod_eq_of_lt (by omega)]
  exact (Nat.and_two_pow_sub_one_eq_mod _ 16).symm

/-- The operand of a BANKSW word is `IMM` (R73). -/
theorem ofNat_logicalOperand (cw : CommandWord) : BitVec.ofNat 24 (logicalOperand cw) = immField cw := by
  rw [logicalOperand, BitVec.ofNat_toNat, BitVec.setWidth_eq]

/-- The command a row builds encodes to the row's pattern together with the bits of the word that the row's
mask leaves free. -/
theorem encode_build {row : OpcodeRow} (hrow : row ∈ opcodeRows) (cw : CommandWord) :
    encode (row.build cw) = row.pattern ||| (cw &&& ~~~row.mask) := by
  have hbanksw (m : BitVec 2) : commandWord 0x3#4 m (BitVec.ofNat 24 (logicalOperand cw)) =
      commandWord 0x3#4 m 0#24 ||| (cw &&& commandWord 0#4 0#2 (BitVec.allOnes 24)) := by
    rw [← commandWord_immField_and, BitVec.and_allOnes, ofNat_logicalOperand]
  have hsetaddr : encode (.setaddr (physicalOperand cw)) =
      commandWord 0x2#4 0#2 0#24 ||| (cw &&& commandWord 0#4 0#2 0x00FFFF#24) := by
    rw [encode, setWidth_physicalOperand, commandWord_immField_and]
  have hplain (pattern : CommandWord) : pattern = pattern ||| (cw &&& ~~~0xFFFFFFFF#32) := by simp
  revert row
  simp only [opcodeRows, List.forall_mem_cons]
  exact ⟨hplain _, hsetaddr, hbanksw 0#2, hbanksw 1#2, hbanksw 2#2, hplain _, hplain _, hplain _,
    hplain _, hplain _, List.forall_mem_nil _⟩

theorem pattern_and_mask : ∀ row ∈ opcodeRows, row.pattern &&& row.mask = row.pattern := by decide

/-- A row accepts exactly the words that are the encoding of what it builds from them. -/
theorem accepts_iff_encode_build {row : OpcodeRow} (hrow : row ∈ opcodeRows) {cw : CommandWord} :
    row.accepts cw = true ↔ encode (row.build cw) = cw := by
  rw [OpcodeRow.accepts_iff, encode_build hrow]
  constructor
  · intro h
    rw [← h, ← BitVec.and_or_distrib_left, BitVec.or_not_self, BitVec.and_allOnes]
  · intro h
    rw [← h, BitVec.and_or_distrib_right, pattern_and_mask row hrow]
    simp [BitVec.and_assoc]

/-- A BANKSW word holds 24 bits of operand (R73). -/
theorem fitsImm24_logicalOperand (cw : CommandWord) : fitsImm24 (logicalOperand cw) = true :=
  decide_eq_true (immField cw).isLt

theorem wellFormed_build {row : OpcodeRow} (hrow : row ∈ opcodeRows) (cw : CommandWord) :
    (row.build cw).wellFormed = true := by
  have hfits := fitsImm24_logicalOperand cw
  revert row
  simp only [opcodeRows, List.forall_mem_cons]
  exact ⟨rfl, rfl, hfits, hfits, hfits, rfl, rfl, rfl, rfl, rfl, List.forall_mem_nil _⟩

/-- Settles O2: the row that accepts the word built the command, and it accepts only the encodings of what
it builds. -/
theorem encodeOfDecode : Obligations.EncodeOfDecode := by
  intro cw i h
  obtain ⟨row, hrow, ha, rfl⟩ := exists_row_of_decode h
  exact ⟨wellFormed_build hrow cw, (accepts_iff_encode_build hrow).mp ha⟩

/-! ### Every well-formed command has its row (R72, R78) -/

theorem physicalOperand_commandWord (op : BitVec 4) (m : BitVec 2) (p : Half) :
    physicalOperand (commandWord op m (p.setWidth 24)) = p :=
  (BitVec.extractLsb'_append_eq_of_add_le (by decide)).trans <|
    (BitVec.extractLsb'_setWidth_of_le (by decide)).trans BitVec.extractLsb'_eq_self

theorem logicalOperand_commandWord (op : BitVec 4) (m : BitVec 2) {a : Nat} (h : fitsImm24 a = true) :
    logicalOperand (commandWord op m (BitVec.ofNat 24 a)) = a := by
  rw [logicalOperand, immField_commandWord, BitVec.toNat_ofNat]
  exact Nat.mod_eq_of_lt (of_decide_eq_true h)

/-- Some row builds a well-formed command from the command's own word. -/
theorem exists_row_of_wellFormed {i : Instr} (h : i.wellFormed = true) :
    ∃ row ∈ opcodeRows, row.build (encode i) = i := by
  rw [List.exists_mem_iff_exists_getElem]
  cases i with
  | config => exact ⟨0, by decide, rfl⟩
  | setaddr p => exact ⟨1, by decide, congrArg Instr.setaddr (physicalOperand_commandWord _ _ p)⟩
  | bankswNone a => exact ⟨2, by decide, congrArg Instr.bankswNone (logicalOperand_commandWord _ _ h)⟩
  | bankswF8 a => exact ⟨3, by decide, congrArg Instr.bankswF8 (logicalOperand_commandWord _ _ h)⟩
  | bankswF6 a => exact ⟨4, by decide, congrArg Instr.bankswF6 (logicalOperand_commandWord _ _ h)⟩
  | rdbyte => exact ⟨5, by decide, rfl⟩
  | rdfast => exact ⟨6, by decide, rfl⟩
  | chkrom => exact ⟨7, by decide, rfl⟩
  | scan => exact ⟨8, by decide, rfl⟩
  | settle => exact ⟨9, by decide, rfl⟩

/-- Settles O1: the row that builds the command from its word accepts the word, and the decoder answers
what an accepting row builds. -/
theorem decodeOfEncode : Obligations.DecodeOfEncode := by
  intro i h
  obtain ⟨row, hrow, hbuild⟩ := exists_row_of_wellFormed h
  have ha : row.accepts (encode i) = true := by rw [accepts_iff_encode_build hrow, hbuild]
  rw [decode_of_accepts hrow ha, hbuild]

theorem decode_eq_command_iff (cw : CommandWord) (i : Instr) :
    decode cw = .command i ↔ i.wellFormed = true ∧ encode i = cw := by
  constructor
  · exact encodeOfDecode cw i
  · rintro ⟨hwf, rfl⟩
    exact decodeOfEncode i hwf

/-- Settles O5: the six words are the encodings of the commands. -/
theorem tableWordsDecode : Obligations.TableWordsDecode :=
  ⟨decodeOfEncode .config rfl, decodeOfEncode (.setaddr 0x12AB#16) rfl,
    decodeOfEncode (.bankswNone 0x1000) rfl, decodeOfEncode (.bankswF8 0x2000) rfl,
    decodeOfEncode (.bankswF6 0x4FFA) rfl, decodeOfEncode .settle rfl⟩

/-! ### The reserved words (R80) -/

/-- The operations without an operand (R78). -/
def plainOps : List (BitVec 4) := [1#4, 4#4, 5#4, 6#4, 7#4, 8#4]

/-- The formats of R72 and R78 by the fields of the word: `OP` is 1 to 8, `Z` is 0, and `M` and `IMM` hold
nothing but the operands of the operation. -/
def HasFormat (cw : CommandWord) : Prop :=
  zeroField cw = 0#2 ∧
    (opField cw = 2#4 ∧ methodField cw = 0#2 ∧ (immField cw).extractLsb' 16 8 = 0#8 ∨
      opField cw = 3#4 ∧ methodField cw ≠ 3#2 ∨
      opField cw ∈ plainOps ∧ methodField cw = 0#2 ∧ immField cw = 0#24)

theorem hasFormat_encode (i : Instr) : HasFormat (encode i) := by
  cases i with
  | setaddr p =>
    have hhigh : (p.setWidth 24).extractLsb' 16 8 = 0#8 := by
      ext k hk
      simp
    simp [HasFormat, encode, hhigh]
  | _ => simp [HasFormat, plainOps, encode, methodCode]

/-- A SETADDR word without bits above its operand holds its operand only (R73). -/
theorem setWidth_physicalOperand_of_high {cw : CommandWord}
    (h : (immField cw).extractLsb' 16 8 = 0#8) : (physicalOperand cw).setWidth 24 = immField cw := by
  have hhigh : (immField cw).toNat / 2 ^ 16 % 2 ^ 8 = 0 := by
    rw [← Nat.shiftRight_eq_div_pow, ← BitVec.extractLsb'_toNat, h, BitVec.toNat_zero]
  have hlt := (immField cw).isLt
  apply BitVec.eq_of_toNat_eq
  rw [BitVec.toNat_setWidth, toNat_physicalOperand]
  omega

theorem methodCode_cases : ∀ m : BitVec 2, m ≠ 3#2 →
    m = methodCode .none ∨ m = methodCode .f8 ∨ m = methodCode .f6 := by
  decide

theorem exists_encode_of_hasFormat {cw : CommandWord} (h : HasFormat cw) :
    ∃ i : Instr, i.wellFormed = true ∧ encode i = cw := by
  obtain ⟨hz, h⟩ := h
  have hcw := commandWord_fields hz
  rcases h with ⟨hop, hm, hhigh⟩ | ⟨hop, hm⟩ | ⟨hop, hm, himm⟩
  · rw [hop, hm, ← setWidth_physicalOperand_of_high hhigh] at hcw
    exact ⟨.setaddr (physicalOperand cw), rfl, hcw⟩
  · rw [hop, ← ofNat_logicalOperand] at hcw
    have hfits := fitsImm24_logicalOperand cw
    rcases methodCode_cases _ hm with hm | hm | hm <;> rw [hm] at hcw
    · exact ⟨.bankswNone (logicalOperand cw), hfits, hcw⟩
    · exact ⟨.bankswF8 (logicalOperand cw), hfits, hcw⟩
    · exact ⟨.bankswF6 (logicalOperand cw), hfits, hcw⟩
  · rw [hm, himm] at hcw
    simp only [plainOps, List.mem_cons, List.not_mem_nil, or_false] at hop
    rcases hop with hop | hop | hop | hop | hop | hop <;> rw [hop] at hcw
    · exact ⟨.config, rfl, hcw⟩
    · exact ⟨.rdbyte, rfl, hcw⟩
    · exact ⟨.rdfast, rfl, hcw⟩
    · exact ⟨.chkrom, rfl, hcw⟩
    · exact ⟨.scan, rfl, hcw⟩
    · exact ⟨.settle, rfl, hcw⟩

theorem exists_command_iff_hasFormat (cw : CommandWord) :
    (∃ i, decode cw = .command i) ↔ HasFormat cw := by
  constructor
  · rintro ⟨i, hi⟩
    obtain ⟨_, rfl⟩ := (decode_eq_command_iff cw i).mp hi
    exact hasFormat_encode i
  · intro h
    obtain ⟨i, hi⟩ := exists_encode_of_hasFormat h
    exact ⟨i, (decode_eq_command_iff cw i).mpr hi⟩

/-- Each of the sixteen values of `OP` is reserved, that of SETADDR, that of BANKSW, or that of an operation
without an operand (R78, R80). -/
theorem op_cases : ∀ op : BitVec 4,
    ((op = 0#4 ∨ 9#4 ≤ op) ∧ op ≠ 2#4 ∧ op ≠ 3#4 ∧ op ∉ plainOps) ∨ op = 2#4 ∨ op = 3#4 ∨
      (¬ (op = 0#4 ∨ 9#4 ≤ op) ∧ op ≠ 2#4 ∧ op ≠ 3#4 ∧ op ∈ plainOps) := by
  decide

/-- Settles O4: for each kind of `OP`, what R80 lists is what the kind's format rules out. -/
theorem reservedWordsAreReserved : Obligations.ReservedWordsAreReserved := by
  intro cw
  rw [reserved_iff_no_command, exists_command_iff_hasFormat, HasFormat]
  rcases op_cases (opField cw) with ⟨hres, h2, h3, hplain⟩ | hop | hop | ⟨hres, h2, h3, hplain⟩
  · simp [hres, h2, h3, hplain]
  · simp [hop, plainOps, not_and_or, -not_and]
  · simp [hop, plainOps, not_and_or, -not_and]
  · simp [hres, h2, h3, hplain, not_and_or, -not_and]

/-! ### Refusal by the step (R80) -/

namespace Machine

/-- Settles O8: a step that is no reset and has no command in progress decodes the next word. -/
theorem reservedWordIsRefused : Obligations.ReservedWordIsRefused := by
  intro s cw rest why hwork hinputs hdecode
  have hreset : ¬ ResetComes s := by
    rintro ⟨cfg, rest', hreset⟩
    rw [hinputs] at hreset
    cases hreset
  rw [step_of_no_reset hreset]
  simp only [commandStep, hwork, hinputs, hdecode]

/-! ### Running SETADDR and SETTLE (R100, R101) -/

theorem State.with_work_nil {s : State} (h : s.work = []) : { s with work := [] } = s := by
  rw [← h]

theorem answer_addrLow (s : State) (p : Half) (rest : List Task) (u : Byte) :
    s.answer (.addrLow p) rest (.ok u) = { s.lowWritten p with work := rest } := rfl

theorem answer_addrHigh (s : State) (p : Half) (work rest : List Task) (v : Byte) :
    State.answer { s.lowWritten p with work := work } (.addrHigh p) rest (.ok v) =
      { s.addressed p with work := rest } := by
  have htr : s.tr ++ setAddressTrace s.cfg p = (s.lowWritten p).tr ++
      [.wr s.cfg.portWH.chip (gpioOf s.cfg.portWH.bank) (highByte p) .ok] := by
    simp [State.lowWritten, setAddressTrace]
  rw [State.addressed, htr]
  rfl

/-- Two Ok answers perform the writes of a SETADDR, and the block goes on with what follows it. -/
theorem run_setAddressPlan (s : State) (p : Half) (rest : List Task) {replies more : List Reply}
    {u v : Byte} (hreplies : replies = .ok u :: .ok v :: more) :
    run replies { s with work := setAddressPlan p ++ rest } =
      andThen (advance rest { s.addressed p with work := rest }) (run more) := by
  rw [hreplies, run_bus (rest := .bus (.addrHigh p) :: rest) _ _ rfl, answer_addrLow,
    advance_bus, andThen_next, run_bus _ _ rfl, answer_addrHigh]
  rfl

/-- SETADDR with two Ok answers (R100). -/
theorem exec_setaddr {s : State} (p : Half) {u v : Byte} {more : List Reply} (hs : Accepting s)
    (h : s.replies = .ok u :: .ok v :: more) :
    exec (.setaddr p) s = .next { s.addressed p with replies := more } := by
  obtain ⟨hwork, hidle⟩ := hs
  calc exec (.setaddr p) s
      = drive { s with work := setAddressPlan p } := issue_accepted _ hwork hidle
    _ = run s.replies { s with work := setAddressPlan p } := rfl
    _ = andThen (advance [] { s.addressed p with work := [] }) (run more) :=
      run_setAddressPlan s p [] h
    _ = run more { s.addressed p with work := [] } := rfl
    _ = run more (s.addressed p) := by rw [State.with_work_nil (s := s.addressed p) hwork]
    _ = .next { s.addressed p with replies := more } := run_done more hwork

/-- SETTLE (R101). -/
theorem exec_settle {s : State} (hs : Accepting s) : exec .settle s = .next (s.delay .addr) := by
  obtain ⟨hwork, hidle⟩ := hs
  calc exec .settle s
      = drive { s with work := settlePlan } := issue_accepted _ hwork hidle
    _ = run s.replies { s.delay .addr with work := [] } := rfl
    _ = run s.replies (s.delay .addr) := by rw [State.with_work_nil (s := s.delay .addr) hwork]
    _ = .next (s.delay .addr) := run_done s.replies hwork

/-! ### BANKSW (R83, R114) -/

theorem bankSwitch_of_pulsed {m : BankSwitchMethod} {a hotspot : Nat} (h : pulsed m a = some hotspot) :
    bankSwitch m a = .ok (setAddressPlan (BitVec.ofNat 16 hotspot) ++ settlePlan) := by
  unfold pulsed at h
  split at h
  · rename_i ha
    split at h
    · rename_i htrigger
      have hm : m ≠ .none := by
        rintro rfl
        cases htrigger
      simp [bankSwitch, hm, ha, htrigger, h]
    · cases h
  · cases h

theorem bankSwitch_of_not_trigger {m : BankSwitchMethod} {a : Nat} (ha : romOffset ≤ a)
    (h : trigger a m ha = false) : bankSwitch m a = .ok [] := by
  simp [bankSwitch, ha, h]

theorem exec_bankSwitch {s : State} (m : BankSwitchMethod) (a : Nat) (hs : Accepting s) :
    exec (CallForm.bankSwitch a m).instr s = drive { s with work := bankSwitchPlan m a } := by
  cases m <;> exact issue_accepted _ hs.1 hs.2

/-- A BANKSW without a pulse does nothing (R114). -/
theorem exec_bankSwitch_of_no_pulse {s : State} {m : BankSwitchMethod} {a : Nat} (hs : Accepting s)
    (h : bankSwitch m a = .ok []) : exec (CallForm.bankSwitch a m).instr s = .next s := by
  have hgo (s' : State) : perform (.bankSwitch m a) s' = .go s' := by simp only [perform, h]
  rw [exec_bankSwitch m a hs, drive, bankSwitchPlan, advance_go _ (hgo _), advance_nil, andThen_next,
    run_done _ rfl, ← hs.1]

/-- A BANKSW with a pulse and two Ok answers does the SETADDR and the SETTLE of the pulse (R114). -/
theorem exec_bankSwitch_of_pulse {s : State} {m : BankSwitchMethod} {a : Nat} {p : Half} {u v : Byte}
    {more : List Reply} (hs : Accepting s) (hreplies : s.replies = .ok u :: .ok v :: more)
    (h : bankSwitch m a = .ok (setAddressPlan p ++ settlePlan)) :
    exec (CallForm.bankSwitch a m).instr s =
      .next (State.delay { s.addressed p with replies := more } .addr) := by
  have hwait (s' : State) : perform (.bankSwitch m a) s' = .wait (setAddressPlan p ++ settlePlan) s' := by
    simp only [perform, h]
    rfl
  have hdone : ((s.addressed p).delay .addr).work = [] := hs.1
  calc exec (CallForm.bankSwitch a m).instr s
      = drive { s with work := bankSwitchPlan m a } := exec_bankSwitch m a hs
    _ = run s.replies { s with work := setAddressPlan p ++ settlePlan } := by
      rw [drive, bankSwitchPlan, advance_wait _ (hwait _), andThen_next, List.append_nil]
    _ = andThen (advance settlePlan { s.addressed p with work := settlePlan }) (run more) :=
      run_setAddressPlan s p settlePlan hreplies
    _ = run more { (s.addressed p).delay .addr with work := [] } := rfl
    _ = run more ((s.addressed p).delay .addr) := by rw [State.with_work_nil hdone]
    _ = .next (State.delay { s.addressed p with replies := more } .addr) := run_done more hdone

/-- Settles O40: SETADDR of the hotspot and SETTLE after it lead to the state to which the pulse leads. -/
theorem bankswExpandsToSetaddrAndSettle : Obligations.BankswExpandsToSetaddrAndSettle := by
  intro s m a hs
  refine ⟨fun u v more hotspot hreplies hpulsed => ?_, fun ha htrigger =>
    exec_bankSwitch_of_no_pulse hs (bankSwitch_of_not_trigger ha htrigger)⟩
  have hsettle := exec_settle (s := { s.addressed (BitVec.ofNat 16 hotspot) with replies := more }) hs
  rw [exec_bankSwitch_of_pulse hs hreplies (bankSwitch_of_pulsed hpulsed), exec_setaddr _ hs hreplies,
    andThen_next, hsettle]

end Machine

end Sys2Proof

/-! ## Proofs of the family "address encoder": SETADDR and SETTLE (R100 to R103). -/

namespace Sys2Proof.Machine

open Sys2Proof

/-! ### The two bytes of an address (R74, R102) -/

theorem highByte_mul_add_lowByte (p : Half) :
    (highByte p).toNat * 256 + (lowByte p).toNat = p.toNat := by
  have hlow : (lowByte p).toNat = p.toNat % 256 := by simp [lowByte]
  have hhigh : (highByte p).toNat = p.toNat / 256 := by
    have hlt : p.toNat / 256 < 256 := Nat.div_lt_of_lt_mul p.isLt
    simp [highByte, Nat.shiftRight_eq_div_pow, Nat.mod_eq_of_lt hlt]
  rw [hlow, hhigh, Nat.div_add_mod']

/-- The lines show the low 13 bits of the address whose bytes the two ports hold (R28). -/
theorem highByte_append_lowByte (p : Half) :
    (highByte p).extractLsb' 0 5 ++ lowByte p = p.setWidth 13 := by
  ext i hi
  simp only [highByte, lowByte, BitVec.getElem_append, BitVec.getElem_extractLsb']
  split
  · simp
  · next hge =>
    have hidx : 8 + (i - 8) = i := by omega
    have hlt : i - 8 < 8 := by omega
    simp [hidx, hlt]

/-! ### The address lines (R28, R103) -/

theorem addressLines_of_outputs {cfg : Cfg} {regs : Memory} {low high : Byte}
    (hdirLow : Memory.read regs (iodirReg cfg.portWL) = some 0x00#8)
    (hdirHigh : Memory.read regs (iodirReg cfg.portWH) = some 0x00#8)
    (hlow : Memory.read regs (gpioReg cfg.portWL) = some low)
    (hhigh : Memory.read regs (gpioReg cfg.portWH) = some high) :
    addressLines cfg regs = some (high.extractLsb' 0 5 ++ low) := by
  simp [addressLines, directionOf, hdirLow, hdirHigh, hlow, hhigh]

/-- A write to a port's data register leaves every direction register. -/
theorem Memory.read_iodirReg_write_gpioReg (regs : Memory) (P Q : Port) (v : Byte) :
    Memory.read (Memory.write regs (gpioReg Q) v) (iodirReg P) = Memory.read regs (iodirReg P) :=
  Memory.read_write_other regs v (iodirReg_ne_gpioReg P Q)

/-- A write to a port's data register leaves the data register of every other port. -/
theorem Memory.read_gpioReg_write_gpioReg (regs : Memory) {P Q : Port} (v : Byte) (h : P ≠ Q) :
    Memory.read (Memory.write regs (gpioReg Q) v) (gpioReg P) = Memory.read regs (gpioReg P) :=
  Memory.read_write_other regs v fun heq => h (gpioReg_injective heq)

/-- SETADDR of any operand puts its low 13 bits on the lines of two distinct output ports (R103). -/
theorem addressLines_addressed {s : State} (p : Half) (hports : s.cfg.portWL ≠ s.cfg.portWH)
    (hdirLow : Memory.read s.env.regs (iodirReg s.cfg.portWL) = some 0x00#8)
    (hdirHigh : Memory.read s.env.regs (iodirReg s.cfg.portWH) = some 0x00#8) :
    addressLines s.cfg (s.addressed p).env.regs = some (p.setWidth 13) := by
  rw [← highByte_append_lowByte]
  apply addressLines_of_outputs <;> simp only [State.addressed, Env.write_regs]
  · simpa only [Memory.read_iodirReg_write_gpioReg] using hdirLow
  · simpa only [Memory.read_iodirReg_write_gpioReg] using hdirHigh
  · rw [Memory.read_gpioReg_write_gpioReg _ _ hports, Memory.read_write_same]
  · exact Memory.read_write_same _ _ _

/-! ### A write of SETADDR that faults (R100, R202) -/

/-- A faulted write of an address byte is fatal at once, whatever was to follow it. -/
theorem finishWrite_ioFault (s : State) (P : Port) (v : Byte) (rest : List Task) (landed : Bool) :
    s.finishWrite P.chip (gpioOf P.bank) v rest (.ioFault landed) = s.writeFailed P v landed := by
  have htr : s.tr ++ [.wr P.chip (gpioOf P.bank) v .ioFault] ++
      [.report (.fatalTransport .write), .rel] =
      s.tr ++ [.wr P.chip (gpioOf P.bank) v .ioFault] ++ [.report (.fatalTransport .write)] ++
      [.rel] := by
    simp
  rw [State.writeFailed, State.abortedBy, htr]
  rfl

theorem answer_addrLow_ioFault (s : State) (p : Half) (rest : List Task) (landed : Bool) :
    s.answer (.addrLow p) rest (.ioFault landed) =
      s.writeFailed s.cfg.portWL (lowByte p) landed :=
  finishWrite_ioFault s s.cfg.portWL (lowByte p) rest landed

theorem answer_addrHigh_ioFault (s : State) (p : Half) (rest : List Task) (landed : Bool) :
    s.answer (.addrHigh p) rest (.ioFault landed) =
      s.writeFailed s.cfg.portWH (highByte p) landed :=
  finishWrite_ioFault s s.cfg.portWH (highByte p) rest landed

/-- The block does nothing more after a failed write, whatever the plan and the answers to come (R207). -/
theorem run_of_writeFailed {s : State} {P : Port} {v : Byte} {landed : Bool} (more : List Reply) :
    andThen (advance (s.writeFailed P v landed).work (s.writeFailed P v landed)) (run more) =
      .next { s.writeFailed P v landed with replies := more } :=
  run_done (s := s.writeFailed P v landed) more rfl

/-- The first write of a SETADDR faults: neither the second nor what follows the SETADDR is performed. -/
theorem run_setAddressPlan_of_low_fault (s : State) (p : Half) (rest : List Task)
    {replies more : List Reply} {landed : Bool} (hreplies : replies = .ioFault landed :: more) :
    run replies { s with work := setAddressPlan p ++ rest } =
      .next { s.writeFailed s.cfg.portWL (lowByte p) landed with replies := more } := by
  rw [hreplies, run_bus (rest := .bus (.addrHigh p) :: rest) _ _ rfl, answer_addrLow_ioFault,
    run_of_writeFailed]
  rfl

/-- The second write of a SETADDR faults: what follows the SETADDR is not performed. -/
theorem run_setAddressPlan_of_high_fault (s : State) (p : Half) (rest : List Task)
    {replies more : List Reply} {u : Byte} {landed : Bool}
    (hreplies : replies = .ok u :: .ioFault landed :: more) :
    run replies { s with work := setAddressPlan p ++ rest } =
      .next { (s.lowWritten p).writeFailed s.cfg.portWH (highByte p) landed with
        replies := more } := by
  rw [hreplies, run_bus (rest := .bus (.addrHigh p) :: rest) _ _ rfl, answer_addrLow, advance_bus,
    andThen_next, run_bus _ _ rfl, answer_addrHigh_ioFault, run_of_writeFailed]
  rfl

/-- An accepted SETADDR is the run of its two writes. -/
theorem exec_setaddr_eq_run {s : State} (p : Half) (hs : Accepting s) :
    exec (.setaddr p) s = run s.replies { s with work := setAddressPlan p ++ [] } :=
  issue_accepted _ hs.1 hs.2

theorem exec_setaddr_of_low_fault {s : State} (p : Half) {landed : Bool} {more : List Reply}
    (hs : Accepting s) (h : s.replies = .ioFault landed :: more) :
    exec (.setaddr p) s =
      .next { s.writeFailed s.cfg.portWL (lowByte p) landed with replies := more } :=
  (exec_setaddr_eq_run p hs).trans (run_setAddressPlan_of_low_fault s p [] h)

theorem exec_setaddr_of_high_fault {s : State} (p : Half) {u : Byte} {landed : Bool}
    {more : List Reply} (hs : Accepting s) (h : s.replies = .ok u :: .ioFault landed :: more) :
    exec (.setaddr p) s =
      .next { (s.lowWritten p).writeFailed s.cfg.portWH (highByte p) landed with
        replies := more } :=
  (exec_setaddr_eq_run p hs).trans (run_setAddressPlan_of_high_fault s p [] h)

/-! ### The obligations -/

/-- Settles O26: the next state is that of the run with two Ok answers, and a u16 is its two bytes. -/
theorem setaddrWritesLowThenHigh : Obligations.SetaddrWritesLowThenHigh := by
  intro s p a b more hs hreplies
  exact ⟨exec_setaddr p hs hreplies, highByte_mul_add_lowByte p⟩

/-- Settles O27: a SETADDR ends in its failed write, the first or the second. -/
theorem faultedAddressWriteAborts : Obligations.FaultedAddressWriteAborts := by
  intro s p landed a more hs
  refine ⟨fun hreplies => ?_, fun hreplies => ?_⟩
  · rw [exec_setaddr_of_low_fault p hs hreplies]
    simp [State.writeFailed, State.abortedBy, Report.faultCause, hs.1]
  · rw [exec_setaddr_of_high_fault p hs hreplies]
    simp [State.writeFailed, State.abortedBy, State.lowWritten, Report.faultCause, hs.1]

/-- Settles O28: the completed SETADDR drives the lines; the bound on `p` is not needed, because the lines
take its low 13 bits whatever the others are. -/
theorem setaddrDrivesTheLines : Obligations.SetaddrDrivesTheLines := by
  intro s p a b more hs hreplies hports _ hdirLow hdirHigh
  exact ⟨_, exec_setaddr p hs hreplies, hs.1, hs.2, addressLines_addressed p hports hdirLow hdirHigh⟩

/-- Settles O30: the delay of SETTLE is one event. -/
theorem settleAppendsOneDelay : Obligations.SettleAppendsOneDelay := fun _ hs => exec_settle hs

end Sys2Proof.Machine

/-! ## Proofs of the family "bank switch": the trigger, the hotspot pulsed, and BANKSW (R110 to R118). -/

namespace Sys2Proof.Machine

open Sys2Proof

/-! ### The trigger (R113) -/

theorem romOffset_le_realAddress (a : Nat) (h : romOffset ≤ a) : romOffset ≤ realAddress a h :=
  Nat.le_add_left _ _

/-- R113 on the values of the translation: the first address of the window, and those after a hotspot. -/
theorem trigger_iff {m : BankSwitchMethod} (hm : m ≠ .none) (a : Nat) (h : romOffset ≤ a) :
    trigger a m h = true ↔
      realAddress a h = romOffset ∨ realAddress a h - 1 ∈ hotspots m := by
  unfold trigger
  split
  · exact absurd rfl hm
  · rw [Bool.or_eq_true, beq_iff_eq, List.contains_iff_mem]

theorem trigger_f8_iff (a : Nat) (h : romOffset ≤ a) :
    trigger a .f8 h = true ↔ realAddress a h ∈ [0x1000, 0x1FF9, 0x1FFA] := by
  have hlow : 0x1000 ≤ realAddress a h := romOffset_le_realAddress a h
  rw [trigger_iff (by decide)]
  simp only [romOffset, hotspots, List.mem_cons, List.not_mem_nil, or_false]
  omega

theorem trigger_f6_iff (a : Nat) (h : romOffset ≤ a) :
    trigger a .f6 h = true ↔ realAddress a h ∈ [0x1000, 0x1FF7, 0x1FF8, 0x1FF9, 0x1FFA] := by
  have hlow : 0x1000 ≤ realAddress a h := romOffset_le_realAddress a h
  rw [trigger_iff (by decide)]
  simp only [romOffset, hotspots, List.mem_cons, List.not_mem_nil, or_false]
  omega

/-- Settles O33: `None` has no trigger, and the other methods have one lemma each. -/
theorem triggerAddresses : Obligations.TriggerAddresses :=
  fun a h => ⟨rfl, trigger_f8_iff a h, trigger_f6_iff a h⟩

/-! ### The hotspot pulsed (R111, R113) -/

theorem pulsed_of_trigger {m : BankSwitchMethod} {a : Nat} {h : romOffset ≤ a}
    (htrigger : trigger a m h = true) : pulsed m a = (hotspots m)[bankNumber a h]? := by
  simp [pulsed, h, htrigger]

theorem pulsed_of_not_trigger {m : BankSwitchMethod} {a : Nat} {h : romOffset ≤ a}
    (htrigger : trigger a m h = false) : pulsed m a = none := by
  simp [pulsed, htrigger]

theorem mem_hotspots_of_pulsed {m : BankSwitchMethod} {a hotspot : Nat}
    (h : pulsed m a = some hotspot) : hotspot ∈ hotspots m := by
  by_cases ha : romOffset ≤ a
  · cases htrigger : trigger a m ha with
    | true => exact List.mem_of_getElem? ((pulsed_of_trigger htrigger).symm.trans h)
    | false =>
      rw [pulsed_of_not_trigger htrigger] at h
      cases h
  · simp [pulsed, ha] at h

/-- Every hotspot lies in the last page of the window, so its high byte is the same. -/
theorem highByte_hotspot {m : BankSwitchMethod} {hotspot : Nat} (h : hotspot ∈ hotspots m) :
    highByte (BitVec.ofNat 16 hotspot) = 0x1F#8 := by
  have hall : ∀ hotspot ∈ hotspots m, highByte (BitVec.ofNat 16 hotspot) = 0x1F#8 := by
    cases m <;> decide
  exact hall hotspot h

/-- The hotspots of F8 are consecutive addresses, in the order of the banks. -/
theorem getElem?_hotspots_f8 {bank : Nat} (h : bank < 2) :
    (hotspots .f8)[bank]? = some (0x1FF8 + bank) := by
  have hall : ∀ bank < 2, (hotspots .f8)[bank]? = some (0x1FF8 + bank) := by decide
  exact hall bank h

/-- The hotspots of F6 are consecutive addresses, in the order of the banks. -/
theorem getElem?_hotspots_f6 {bank : Nat} (h : bank < 4) :
    (hotspots .f6)[bank]? = some (0x1FF6 + bank) := by
  have hall : ∀ bank < 4, (hotspots .f6)[bank]? = some (0x1FF6 + bank) := by decide
  exact hall bank h

/-- The pulse before an offset of a scan, in terms of the trigger at that offset. -/
theorem pulsed_add_romOffset (m : BankSwitchMethod) (x : Nat) :
    pulsed m (x + romOffset) =
      if trigger (x + romOffset) m (Nat.le_add_left romOffset x) then (hotspots m)[x / 4096]?
      else none := by
  cases htrigger : trigger (x + romOffset) m (Nat.le_add_left romOffset x) with
  | true => rw [if_pos rfl, pulsed_of_trigger htrigger, bankNumber_add_romOffset, bankWindow]
  | false => exact pulsed_of_not_trigger htrigger

/-- Settles O41: the offsets that trigger are those of `trigger_f8_iff` and `trigger_f6_iff`, counted from
the start of the window, and the bank of each stands in the hotspot list. -/
theorem scanPulsesTheScannedBank : Obligations.ScanPulsesTheScannedBank := by
  intro x
  refine ⟨fun hx => ?_, fun hx => ?_⟩
  · rw [pulsed_add_romOffset, getElem?_hotspots_f8 (by omega)]
    refine if_congr ?_ rfl rfl
    rw [trigger_f8_iff, realAddress_add_romOffset]
    simp only [romOffset, bankWindow, List.mem_cons, List.not_mem_nil, or_false]
    omega
  · rw [pulsed_add_romOffset, getElem?_hotspots_f6 (by omega)]
    refine if_congr ?_ rfl rfl
    rw [trigger_f6_iff, realAddress_add_romOffset]
    simp only [romOffset, bankWindow, List.mem_cons, List.not_mem_nil, or_false]
    omega

/-! ### What BANKSW asks for (R114, R116) -/

theorem bankSwitch_none (a : Nat) : bankSwitch .none a = .ok [] := rfl

theorem bankSwitch_of_lt {m : BankSwitchMethod} (hm : m ≠ .none) {a : Nat} (h : a < romOffset) :
    bankSwitch m a = .error (.configuration .operand) := by
  simp [bankSwitch, hm, Nat.not_le_of_lt h]

theorem bankSwitch_of_no_bank {m : BankSwitchMethod} (hm : m ≠ .none) {a : Nat} {h : romOffset ≤ a}
    (htrigger : trigger a m h = true) (hbank : (hotspots m).length ≤ bankNumber a h) :
    bankSwitch m a = .error (.configuration .bank) := by
  simp [bankSwitch, hm, h, htrigger, List.getElem?_eq_none hbank]

/-- The bank of a scanned offset is one of those the size implies (R112). -/
theorem div_bankWindow_lt_banksImplied {x size : Nat} (h : x < size) :
    x / bankWindow < banksImplied size := by
  simp only [banksImplied, bankWindow]
  omega

/-- Settles O34: where BANKSW triggers, the bank of the offset is below the banks the size implies, and the
method has a hotspot for each of those. -/
theorem consistentScanNeverLacksAHotspot : Obligations.ConsistentScanNeverLacksAHotspot := by
  intro size x m hconsistent hx
  have ha : romOffset ≤ x + romOffset := Nat.le_add_left _ _
  cases htrigger : trigger (x + romOffset) m ha with
  | false => exact ⟨[], bankSwitch_of_not_trigger ha htrigger⟩
  | true =>
    have hm : m ≠ .none := by
      rintro rfl
      cases htrigger
    have hbanks : banksImplied size ≤ (hotspots m).length := by
      simpa [consistent, hm] using hconsistent
    have hbank : bankNumber (x + romOffset) ha < (hotspots m).length := by
      rw [bankNumber_add_romOffset]
      exact Nat.lt_of_lt_of_le (div_bankWindow_lt_banksImplied hx) hbanks
    have hpulsed : pulsed m (x + romOffset) = some _ :=
      (pulsed_of_trigger htrigger).trans (List.getElem?_eq_getElem hbank)
    exact ⟨_, bankSwitch_of_pulsed hpulsed⟩

/-! ### BANKSW without a pulse (R114, R116) -/

/-- Settles O35: the method `None` has no pulse. -/
theorem bankswNoneIsANoOp : Obligations.BankswNoneIsANoOp :=
  fun _ a hs => exec_bankSwitch_of_no_pulse hs (bankSwitch_none a)

theorem exec_bankSwitch_of_not_trigger {s : State} {m : BankSwitchMethod} {a : Nat} {h : romOffset ≤ a}
    (hs : Accepting s) (htrigger : trigger a m h = false) :
    exec (CallForm.bankSwitch a m).instr s = .next s :=
  exec_bankSwitch_of_no_pulse hs (bankSwitch_of_not_trigger h htrigger)

/-- Settles O38: the listed addresses are those that trigger. -/
theorem bankswWithoutTriggerDoesNothing : Obligations.BankswWithoutTriggerDoesNothing := by
  intro s a h hs
  refine ⟨fun hf8 => ?_, fun hf6 => ?_⟩
  · exact exec_bankSwitch_of_not_trigger (m := .f8) hs
      (Bool.eq_false_iff.mpr (mt (trigger_f8_iff a h).mp hf8))
  · exact exec_bankSwitch_of_not_trigger (m := .f6) hs
      (Bool.eq_false_iff.mpr (mt (trigger_f6_iff a h).mp hf6))

/-! ### BANKSW outside its domain (R116, R207) -/

/-- A BANKSW with a ConfigurationFault raises it and does nothing else. -/
theorem exec_bankSwitch_of_error {s : State} {m : BankSwitchMethod} {a : Nat}
    {cause : ConfigurationCause} (hs : Accepting s)
    (h : bankSwitch m a = .error (.configuration cause)) :
    exec (CallForm.bankSwitch a m).instr s = .next { s with
      st := .aborted, fc := .configurationFault, own := false
      tr := s.tr ++ [.report (.configuration cause), .rel] } := by
  have hstop (s' : State) :
      perform (.bankSwitch m a) s' = .stop (s'.raise (.configuration cause)) := by
    simp only [perform, h]
  rw [exec_bankSwitch m a hs, drive, bankSwitchPlan, advance_stop _ (hstop _), andThen_next,
    run_done _ rfl]
  simp [State.raise, State.emit, Report.faultCause, hs.1]

/-- Settles O39: `bankSwitch_of_lt` and `bankSwitch_of_no_bank` give the two causes. -/
theorem bankswOutsideItsDomainFaults : Obligations.BankswOutsideItsDomainFaults := by
  intro s a hs
  refine ⟨fun hlt => ⟨?_, ?_⟩, fun h htrigger hbank => ?_, fun h htrigger hbank => ?_⟩
  · exact exec_bankSwitch_of_error (m := .f8) hs (bankSwitch_of_lt (by decide) hlt)
  · exact exec_bankSwitch_of_error (m := .f6) hs (bankSwitch_of_lt (by decide) hlt)
  · exact exec_bankSwitch_of_error (m := .f8) hs (bankSwitch_of_no_bank (by decide) htrigger hbank)
  · exact exec_bankSwitch_of_error (m := .f6) hs (bankSwitch_of_no_bank (by decide) htrigger hbank)

/-! ### BANKSW with a pulse (R114, R202) -/

/-- A BANKSW with a pulse is the run of the pulse's tasks. -/
theorem exec_bankSwitch_eq_run {s : State} {m : BankSwitchMethod} {a : Nat} {p : Half}
    (hs : Accepting s) (h : bankSwitch m a = .ok (setAddressPlan p ++ settlePlan)) :
    exec (CallForm.bankSwitch a m).instr s =
      run s.replies { s with work := setAddressPlan p ++ settlePlan } := by
  have hwait (s' : State) :
      perform (.bankSwitch m a) s' = .wait (setAddressPlan p ++ settlePlan) s' := by
    simp only [perform, h]
    rfl
  rw [exec_bankSwitch m a hs, drive, bankSwitchPlan, advance_wait _ (hwait _), andThen_next,
    List.append_nil]

/-- What BANKSW does when it pulses, for every method: both writes and the delay, or the abort at the first
or at the second write. -/
theorem exec_bankSwitch_of_pulsed {s : State} {m : BankSwitchMethod} {a hotspot : Nat}
    (hs : Accepting s) (hpulsed : pulsed m a = some hotspot) (u v : Byte) (landed : Bool)
    (more : List Reply) :
    let p := BitVec.ofNat 16 hotspot
    (s.replies = .ok u :: .ok v :: more →
      exec (CallForm.bankSwitch a m).instr s = .next { s with
        tr := s.tr ++ setAddressTrace s.cfg p ++ [.delay .addr]
        env := (s.env.write s.cfg (gpioReg s.cfg.portWL) (lowByte p)).write
          s.cfg (gpioReg s.cfg.portWH) 0x1F#8
        replies := more }) ∧
    (s.replies = .ioFault landed :: more →
      exec (CallForm.bankSwitch a m).instr s =
        .next { s.writeFailed s.cfg.portWL (lowByte p) landed with replies := more }) ∧
    (s.replies = .ok u :: .ioFault landed :: more →
      exec (CallForm.bankSwitch a m).instr s = .next
        { (s.lowWritten p).writeFailed s.cfg.portWH 0x1F#8 landed with replies := more }) := by
  intro p
  have hplan : bankSwitch m a = .ok (setAddressPlan p ++ settlePlan) := bankSwitch_of_pulsed hpulsed
  have hhigh : highByte p = 0x1F#8 := highByte_hotspot (mem_hotspots_of_pulsed hpulsed)
  rw [← hhigh]
  refine ⟨fun hreplies => ?_, fun hreplies => ?_, fun hreplies => ?_⟩
  · exact exec_bankSwitch_of_pulse hs hreplies hplan
  · rw [exec_bankSwitch_eq_run hs hplan, run_setAddressPlan_of_low_fault s p settlePlan hreplies]
  · rw [exec_bankSwitch_eq_run hs hplan, run_setAddressPlan_of_high_fault s p settlePlan hreplies]

/-- Settles O36: the operand triggers and its bank has a hotspot, so BANKSW pulses that hotspot. -/
theorem bankswF8PulsesItsHotspot : Obligations.BankswF8PulsesItsHotspot := by
  intro s a h hotspot hs haddress hbank
  have hpulsed : pulsed .f8 a = some hotspot :=
    (pulsed_of_trigger ((trigger_f8_iff a h).mpr haddress)).trans hbank
  exact exec_bankSwitch_of_pulsed hs hpulsed

/-- Settles O37: the operand triggers and its bank has a hotspot, so BANKSW pulses that hotspot. -/
theorem bankswF6PulsesItsHotspot : Obligations.BankswF6PulsesItsHotspot := by
  intro s a h hotspot hs haddress hbank
  have hpulsed : pulsed .f6 a = some hotspot :=
    (pulsed_of_trigger ((trigger_f6_iff a h).mpr haddress)).trans hbank
  exact exec_bankSwitch_of_pulsed hs hpulsed

end Sys2Proof.Machine

/-! ## Proofs of the family "readers": RDBYTE and RDFAST (R130 to R135). -/

namespace Sys2Proof.Machine

open Sys2Proof

/-! ### Actions and the model's own fields

No action looks at `work` or `replies`, so a plan can be followed task by task, whatever these fields
hold. -/

/-- Two of the model's own fields replaced in the state an action leads to; an action that ends the
operation sets `work` itself. -/
def Progress.withOwn (work : List Task) (replies : List Reply) : Progress → Progress
  | .go s => .go { s with work := work, replies := replies }
  | .wait tasks s => .wait tasks { s with work := work, replies := replies }
  | .stop s => .stop { s with replies := replies }
  | .noValue r => .noValue r

theorem State.raise_withOwn (s : State) (r : Report) (work : List Task) (replies : List Reply) :
    State.raise { s with work := work, replies := replies } r =
      { s.raise r with replies := replies } := by
  cases r <;> rfl

theorem perform_withOwn (a : Action) (s : State) (work : List Task) (replies : List Reply) :
    perform a { s with work := work, replies := replies } = (perform a s).withOwn work replies := by
  cases a with
  | delay _ | beginRead | beginFast | beginValidating | beginScanning => rfl
  | bankSwitch m a =>
    simp only [perform]
    rcases bankSwitch_cases m a with h | ⟨_, _, h⟩ | ⟨cause, h⟩ <;> rw [h] <;> rfl
  | fastLoop =>
    simp only [perform, performFastLoop]
    split_ifs <;> rfl
  | fastJudge =>
    simp only [perform, performFastJudge]
    cases s.d with
    | none => rfl
    | some v => dsimp only; split_ifs <;> rfl
  | storeSample i =>
    simp only [perform, performStoreSample]
    cases s.d <;> rfl
  | runChecks =>
    simp only [perform, performChecks]
    cases sampleBytes s.sample with
    | none => rfl
    | some bytes => dsimp only; cases checks s.cfg.checkAllOnes bytes <;> rfl
  | beginScan =>
    simp only [perform, performBeginScan]
    split_ifs <;> rfl
  | verdict =>
    obtain ⟨_, _, _, _, _, _, _, _, _, _, _, v, vc, _⟩ := s
    rcases v with _ | _ | _
    · rfl
    · rcases vc with _ | _ | _ <;> rfl
    · rfl
  | scanLoop =>
    simp only [perform, performScanLoop]
    split_ifs
    · cases bankSwitch (effectiveMethod s.cfg) (s.x + romOffset) with
      | ok pulse => rfl
      | error r => simp [Progress.withOwn, State.raise_withOwn]
    · rfl
  | storeByte =>
    simp only [perform, performStoreByte]
    cases s.d <;> rfl

theorem advance_withOwn (tasks : List Task) (s : State) (work : List Task) (replies : List Reply) :
    advance tasks { s with work := work, replies := replies } =
      andThen (advance tasks s) fun t => .next { t with replies := replies } := by
  induction tasks generalizing s work with
  | nil => rfl
  | cons task rest ih =>
    cases task with
    | bus t => rfl
    | act a =>
      have hp := perform_withOwn a s work replies
      cases h : perform a s with
      | go s' => rw [h] at hp; rw [advance_go rest hp, advance_go rest h]; exact ih s' work
      | wait tasks s' => rw [h] at hp; rw [advance_wait rest hp, advance_wait rest h]; rfl
      | stop s' => rw [h] at hp; rw [advance_stop rest hp, advance_stop rest h]; rfl
      | noValue r => rw [h] at hp; rw [advance_noValue rest hp, advance_noValue rest h]; rfl

/-- `advance_withOwn` where nothing is replaced: the answers to come are those of `s`. -/
theorem advance_eq_andThen (tasks : List Task) (s : State) :
    advance tasks s = andThen (advance tasks s) fun t => .next { t with replies := s.replies } :=
  advance_withOwn tasks s s.work s.replies

/-- `advance` performs the tasks given to it, not those in `work`. -/
theorem advance_work (tasks : List Task) (s : State) (work : List Task) :
    advance tasks { s with work := work } = advance tasks s :=
  (advance_withOwn tasks s work s.replies).trans (advance_eq_andThen tasks s).symm

/-- The block's own actions use no answer (R47). -/
theorem advance_replies {tasks : List Task} {s t : State} (h : advance tasks s = .next t) :
    t.replies = s.replies := by
  have h' := advance_eq_andThen tasks s
  rw [h, andThen_next] at h'
  injection h' with h'
  rw [h']

/-! ### Tasks and the answers to them (R47, R52) -/

/-- The block performs these tasks from `s`, the bus answering with `replies`. -/
def proceed (tasks : List Task) (replies : List Reply) (s : State) :
    Host.Outcome State Fault Refusal :=
  andThen (advance tasks s) (run replies)

/-- An accepted command is its plan, performed with the answers placed (R161). -/
theorem exec_eq_proceed (i : Instr) {s : State} (hs : Accepting s) :
    exec i s = proceed (planOf i) s.replies s := by
  rw [exec_eq_issue, issue_accepted _ hs.1 hs.2, drive, advance_work, proceed]
  cases h : advance (planOf i) s with
  | next t => rw [andThen_next, andThen_next, advance_replies h]
  | fault r => rfl
  | refused r => rfl

theorem proceed_work (tasks : List Task) (replies : List Reply) (s : State) (work : List Task) :
    proceed tasks replies { s with work := work } = proceed tasks replies s := by
  rw [proceed, advance_work, proceed]

theorem proceed_nil (replies : List Reply) (s : State) :
    proceed [] replies s = .next { s with work := [], replies := replies } :=
  run_done (s := { s with work := [] }) replies rfl

theorem proceed_bus_nil (t : Transaction) (rest : List Task) (s : State) :
    proceed (.bus t :: rest) [] s = .next { s with work := .bus t :: rest, replies := [] } := rfl

theorem proceed_go {a : Action} {s s' : State} (rest : List Task) (replies : List Reply)
    (h : perform a s = .go s') :
    proceed (.act a :: rest) replies s = proceed rest replies s' := by
  rw [proceed, advance_go rest h, proceed]

theorem proceed_wait {a : Action} {s s' : State} {t : Transaction} {tasks : List Task}
    (rest : List Task) (replies : List Reply) (h : perform a s = .wait (.bus t :: tasks) s') :
    proceed (.act a :: rest) replies s = proceed (.bus t :: (tasks ++ rest)) replies s' := by
  rw [proceed, advance_wait rest h]
  rfl

theorem proceed_stop {a : Action} {s s' : State} (rest : List Task) (replies : List Reply)
    (h : perform a s = .stop s') :
    proceed (.act a :: rest) replies s = .next { s' with work := [], replies := replies } := by
  rw [proceed, advance_stop rest h]
  exact run_done replies rfl

theorem answer_work (s : State) (t : Transaction) (rest : List Task) (reply : Reply)
    (work : List Task) :
    State.answer { s with work := work } t rest reply = s.answer t rest reply := by
  cases t with
  | direction _ | addrLow _ | addrHigh _ => cases reply <;> rfl
  | read =>
    cases reply with
    | ok v => rfl
    | ioFault landed =>
      simp only [State.answer, Transaction.value?, State.finishRead]
      split_ifs <;> rfl

theorem proceed_bus (t : Transaction) (rest : List Task) (reply : Reply) (replies : List Reply)
    (s : State) :
    proceed (.bus t :: rest) (reply :: replies) s =
      proceed (s.answer t rest reply).work replies (s.answer t rest reply) := by
  rw [proceed, advance_bus, andThen_next, run_bus reply replies rfl, answer_work, proceed]

/-! ### The answers a trace records (R47) -/

theorem answers_wr_iff (chip reg val : Byte) (res : WriteResult) (rest : List Event)
    (replies : List Reply) :
    answers (.wr chip reg val res :: rest) replies = true ↔
      ∃ reply more, replies = reply :: more ∧ writeResult reply = res ∧ answers rest more = true := by
  rcases replies with _ | ⟨_ | _, more⟩ <;> cases res <;> simp [answers, writeResult]

theorem answers_rd_ok_iff (chip reg v : Byte) (rest : List Event) (replies : List Reply) :
    answers (.rd chip reg (.ok v) :: rest) replies = true ↔
      ∃ more, replies = .ok v :: more ∧ answers rest more = true := by
  rcases replies with _ | ⟨w | _, more⟩ <;> simp [answers, eq_comm (a := v)]

theorem answers_rd_ioFault_iff (chip reg : Byte) (rest : List Event) (replies : List Reply) :
    answers (.rd chip reg .ioFault :: rest) replies = true ↔
      ∃ landed more, replies = .ioFault landed :: more ∧ answers rest more = true := by
  rcases replies with _ | ⟨_ | _, more⟩ <;> simp [answers]

/-- The answers to a trace are those to its two parts, one after the other. -/
theorem answers_append_iff (before after : List Event) (replies : List Reply) :
    answers (before ++ after) replies = true ↔
      ∃ used more, replies = used ++ more ∧ answers before used = true ∧
        answers after more = true := by
  induction before generalizing replies with
  | nil => simp [answers]
  | cons e before ih =>
    rw [List.cons_append]
    cases e with
    | delay _ | progress _ | report _ | out _ | rel => exact ih replies
    | wr chip reg val res =>
      simp only [answers_wr_iff, ih]
      constructor
      · rintro ⟨reply, _, rfl, hres, used, more, rfl, hused, hmore⟩
        exact ⟨reply :: used, more, rfl, ⟨reply, used, rfl, hres, hused⟩, hmore⟩
      · rintro ⟨_, more, rfl, ⟨reply, used, rfl, hres, hused⟩, hmore⟩
        exact ⟨reply, used ++ more, rfl, hres, used, more, rfl, hused, hmore⟩
    | rd chip reg res =>
      cases res with
      | ok v =>
        simp only [answers_rd_ok_iff, ih]
        constructor
        · rintro ⟨_, rfl, used, more, rfl, hused, hmore⟩
          exact ⟨.ok v :: used, more, rfl, ⟨used, rfl, hused⟩, hmore⟩
        · rintro ⟨_, more, rfl, ⟨used, rfl, hused⟩, hmore⟩
          exact ⟨used ++ more, rfl, used, more, rfl, hused, hmore⟩
      | ioFault =>
        simp only [answers_rd_ioFault_iff, ih]
        constructor
        · rintro ⟨landed, _, rfl, used, more, rfl, hused, hmore⟩
          exact ⟨.ioFault landed :: used, more, rfl, ⟨landed, used, rfl, hused⟩, hmore⟩
        · rintro ⟨_, more, rfl, ⟨landed, used, rfl, hused⟩, hmore⟩
          exact ⟨landed, used ++ more, rfl, used, more, rfl, hused, hmore⟩

/-- The answers to `n` retried attempts are `n` faults (R130). -/
theorem exists_faults_of_answers_retries {cfg : Cfg} {n : Nat} {replies : List Reply}
    (h : answers (List.replicate n (retryTrace cfg)).flatten replies = true) :
    ∃ faults : List Bool, faults.length = n ∧ replies = faults.map .ioFault := by
  induction n generalizing replies with
  | zero => exact ⟨[], rfl, List.isEmpty_iff.mp h⟩
  | succ n ih =>
    rw [List.replicate_succ, List.flatten_cons, retryTrace, List.cons_append, List.cons_append,
      answers_rd_ioFault_iff] at h
    obtain ⟨landed, more, rfl, h⟩ := h
    obtain ⟨faults, rfl, rfl⟩ := ih h
    exact ⟨landed :: faults, rfl, rfl⟩

/-- The answers to a RDBYTE that returns are its faults and then its byte (R130). -/
theorem exists_faults_of_answers_sampleTrace {cfg : Cfg} {r : Sample} {replies : List Reply}
    (h : answers (sampleTrace cfg r) replies = true) :
    ∃ faults : List Bool, faults.length = r.faults ∧ replies = faults.map .ioFault ++ [.ok r.byte] := by
  obtain ⟨_, _, rfl, hretries, hread⟩ := (answers_append_iff _ _ _).mp h
  obtain ⟨faults, hlength, rfl⟩ := exists_faults_of_answers_retries hretries
  obtain ⟨more, rfl, hmore⟩ := (answers_rd_ok_iff _ _ _ _ _).mp hread
  obtain rfl : more = [] := List.isEmpty_iff.mp hmore
  exact ⟨faults, hlength, rfl⟩

/-- The answers to a RDBYTE whose attempts all fault are `MaxRetries + 1` faults (R130). -/
theorem exists_faults_of_answers_failedTrace {cfg : Cfg} {replies : List Reply}
    (h : answers (failedTrace cfg) replies = true) :
    ∃ faults : List Bool, faults.length = cfg.maxRetries + 1 ∧ replies = faults.map .ioFault := by
  obtain ⟨_, _, rfl, hretries, hread⟩ := (answers_append_iff _ _ _).mp h
  obtain ⟨faults, hlength, rfl⟩ := exists_faults_of_answers_retries hretries
  obtain ⟨landed, more, rfl, hmore⟩ := (answers_rd_ioFault_iff _ _ _ _).mp hread
  obtain rfl : more = [] := List.isEmpty_iff.mp hmore
  exact ⟨faults ++ [landed], by simp [hlength], by simp⟩

/-! ### The attempts of RDBYTE (R130) -/

theorem proceed_read_ok (s : State) (rest : List Task) (v : Byte) (replies : List Reply) :
    proceed (.bus .read :: rest) (.ok v :: replies) s =
      proceed rest replies { s with d := some v, tr := s.tr ++ readTrace s.cfg v } :=
  (proceed_bus ..).trans (proceed_work rest replies
    { s with d := some v, tr := s.tr ++ readTrace s.cfg v } rest)

theorem proceed_read_retry {s : State} (hrc : s.rc < s.cfg.maxRetries) (rest : List Task)
    (landed : Bool) (replies : List Reply) :
    proceed (.bus .read :: rest) (.ioFault landed :: replies) s =
      proceed (.bus .read :: rest) replies
        { s with rc := s.rc + 1, tr := s.tr ++ retryTrace s.cfg } := by
  have hanswer : s.answer .read rest (.ioFault landed) =
      { s with
        rc := s.rc + 1, tr := s.tr ++ retryTrace s.cfg, work := .bus .read :: rest } := by
    have htr : s.tr ++ retryTrace s.cfg =
        s.tr ++ [.rd s.cfg.portRD.chip (gpioOf s.cfg.portRD.bank) .ioFault] ++ [.delay .retry] := by
      simp [retryTrace]
    rw [htr]
    exact if_pos hrc
  rw [proceed_bus, hanswer]
  exact proceed_work (.bus .read :: rest) replies
    { s with rc := s.rc + 1, tr := s.tr ++ retryTrace s.cfg } (.bus .read :: rest)

theorem proceed_read_fatal {s : State} (hrc : ¬ s.rc < s.cfg.maxRetries) (rest : List Task)
    (landed : Bool) (replies : List Reply) :
    proceed (.bus .read :: rest) (.ioFault landed :: replies) s =
      .next { s.abortedBy (.fatalTransport .read)
          [.rd s.cfg.portRD.chip (gpioOf s.cfg.portRD.bank) .ioFault] with replies := replies } := by
  have hanswer : s.answer .read rest (.ioFault landed) = s.abortedBy (.fatalTransport .read)
      [.rd s.cfg.portRD.chip (gpioOf s.cfg.portRD.bank) .ioFault] := by
    rw [State.abortedBy, List.append_cons _ (Event.report _)]
    exact if_neg hrc
  rw [proceed_bus, hanswer]
  exact proceed_nil replies _

/-- The state after faulted attempts that are retried (R130). -/
def State.retried (s : State) (n : Nat) : State :=
  { s with rc := s.rc + n, tr := s.tr ++ (List.replicate n (retryTrace s.cfg)).flatten }

theorem proceed_read_retries (s : State) (faults : List Bool) (rest : List Task)
    (more : List Reply) (h : s.rc + faults.length ≤ s.cfg.maxRetries) :
    proceed (.bus .read :: rest) (faults.map .ioFault ++ more) s =
      proceed (.bus .read :: rest) more (s.retried faults.length) := by
  induction faults generalizing s with
  | nil => simp [State.retried]
  | cons landed faults ih =>
    rw [List.length_cons] at h
    have hrc : s.rc < s.cfg.maxRetries := by omega
    rw [List.map_cons, List.cons_append, proceed_read_retry hrc, ih _ (by dsimp only; omega)]
    simp [State.retried, List.replicate_succ, Nat.add_comm, Nat.add_left_comm]

/-- The state after a RDBYTE that returns (R130). -/
def State.sampleRead (s : State) (r : Sample) : State :=
  { s with d := some r.byte, rc := r.faults, tr := s.tr ++ sampleTrace s.cfg r }

/-- A RDBYTE that returns after at most `MaxRetries` faults (R130). -/
theorem proceed_sample (s : State) (faults : List Bool) (v : Byte) (rest : List Task)
    (more : List Reply) (h : faults.length ≤ s.cfg.maxRetries) :
    proceed (.bus .read :: rest) (faults.map .ioFault ++ .ok v :: more) { s with rc := 0 } =
      proceed rest more (s.sampleRead ⟨faults.length, v⟩) := by
  rw [proceed_read_retries _ faults rest _ (by simpa using h), proceed_read_ok]
  simp [State.retried, State.sampleRead, sampleTrace]

/-- A RDBYTE whose `MaxRetries + 1` attempts fault is fatal, whatever would follow it (R201). -/
theorem proceed_failed_sample (s : State) (faults : List Bool) (rest : List Task)
    (more : List Reply) (h : faults.length = s.cfg.maxRetries + 1) :
    proceed (.bus .read :: rest) (faults.map .ioFault ++ more) { s with rc := 0 } =
      .next { s.readFailed with replies := more } := by
  rcases List.eq_nil_or_concat' faults with rfl | ⟨retried, landed, rfl⟩
  · cases h
  · have hlength : retried.length = s.cfg.maxRetries := by simpa using h
    rw [List.map_append, List.append_assoc, proceed_read_retries _ retried rest _ (by simp [hlength]),
      List.map_singleton, List.singleton_append, proceed_read_fatal (by simp [State.retried, hlength])]
    simp [State.retried, State.readFailed, State.abortedBy, failedTrace, hlength]

/-! ### RDBYTE (R130, R131) -/

theorem exec_rdbyte {s : State} {replies : List Reply} (hs : Accepting s)
    (hreplies : s.replies = replies) :
    exec .rdbyte s = proceed [.bus .read] replies { s with rc := 0 } :=
  (exec_eq_proceed .rdbyte hs).trans <| hreplies ▸ proceed_go [.bus .read] s.replies rfl

theorem exec_rdbyte_of_sample {s : State} (hs : Accepting s) {faults : List Bool} {v : Byte}
    {more : List Reply} (hfaults : faults.length ≤ s.cfg.maxRetries)
    (hreplies : s.replies = faults.map .ioFault ++ .ok v :: more) :
    exec .rdbyte s = .next { s.sampleRead ⟨faults.length, v⟩ with replies := more } := by
  rw [exec_rdbyte hs hreplies, proceed_sample s faults v [] more hfaults, proceed_nil, ← hs.1]
  rfl

theorem exec_rdbyte_of_failed_sample {s : State} (hs : Accepting s) {faults : List Bool}
    {more : List Reply} (hfaults : faults.length = s.cfg.maxRetries + 1)
    (hreplies : s.replies = faults.map .ioFault ++ more) :
    exec .rdbyte s = .next { s.readFailed with replies := more } := by
  rw [exec_rdbyte hs hreplies, proceed_failed_sample s faults [] more hfaults]

theorem exec_rdbyte_of_no_answer {s : State} (hs : Accepting s) {faults : List Bool}
    (hfaults : faults.length ≤ s.cfg.maxRetries) (hreplies : s.replies = faults.map .ioFault) :
    exec .rdbyte s = .next { State.retried { s with rc := 0 } faults.length with
      work := [.bus .read], replies := [] } := by
  rw [exec_rdbyte hs hreplies, ← List.append_nil (faults.map _),
    proceed_read_retries _ faults [] [] (by simpa using hfaults), proceed_bus_nil]

/-- Settles O43: the faults are retried and the byte is read. -/
theorem rdbyteRetriesThenReturnsTheByte : Obligations.RdbyteRetriesThenReturnsTheByte := by
  intro s faults v more hs hfaults hreplies
  rw [exec_rdbyte_of_sample hs hfaults hreplies]
  simp [State.sampleRead, sampleTrace]

/-- Settles O44: the last of the faults finds `RC` at `MaxRetries`. -/
theorem rdbyteExhaustedRetriesAreFatal : Obligations.RdbyteExhaustedRetriesAreFatal := by
  intro s faults more hs hfaults hreplies
  rw [exec_rdbyte_of_failed_sample hs hfaults hreplies]
  simp [State.readFailed, State.abortedBy, failedTrace, Report.faultCause, hs.1]

/-- What the answers to come mean for a RDBYTE with `n` retries: it returns, is fatal, or waits. -/
theorem replies_cases (n : Nat) (replies : List Reply) :
    (∃ (faults : List Bool) (v : Byte) (more : List Reply), faults.length ≤ n ∧
      replies = faults.map .ioFault ++ .ok v :: more) ∨
    (∃ (faults : List Bool) (more : List Reply), faults.length = n + 1 ∧
      replies = faults.map .ioFault ++ more) ∨
    (∃ faults : List Bool, faults.length ≤ n ∧ replies = faults.map .ioFault) := by
  induction replies generalizing n with
  | nil => exact .inr (.inr ⟨[], Nat.zero_le n, rfl⟩)
  | cons reply replies ih =>
    cases reply with
    | ok v => exact .inl ⟨[], v, replies, Nat.zero_le n, rfl⟩
    | ioFault landed =>
      cases n with
      | zero => exact .inr (.inl ⟨[landed], replies, rfl, rfl⟩)
      | succ n =>
        rcases ih n with ⟨faults, v, more, hlength, rfl⟩ | ⟨faults, more, hlength, rfl⟩ |
          ⟨faults, hlength, rfl⟩
        · exact .inl ⟨landed :: faults, v, more, Nat.succ_le_succ hlength, rfl⟩
        · exact .inr (.inl ⟨landed :: faults, more, congrArg Nat.succ hlength, rfl⟩)
        · exact .inr (.inr ⟨landed :: faults, Nat.succ_le_succ hlength, rfl⟩)

/-! ### Counting events (R131, R133, R172) -/

theorem readCount_append (before after : List Event) :
    readCount (before ++ after) = readCount before + readCount after :=
  List.countP_append

theorem delayCount_append (k : DelayKind) (before after : List Event) :
    delayCount k (before ++ after) = delayCount k before + delayCount k after :=
  List.count_append

theorem readCount_retries (cfg : Cfg) (n : Nat) :
    readCount (List.replicate n (retryTrace cfg)).flatten = n := by
  induction n with
  | zero => rfl
  | succ n ih =>
    rw [List.replicate_succ, List.flatten_cons, readCount_append, ih]
    exact Nat.add_comm 1 n

theorem delayCount_retries (cfg : Cfg) (k : DelayKind) (n : Nat) :
    delayCount k (List.replicate n (retryTrace cfg)).flatten = if k = .retry then n else 0 := by
  induction n with
  | zero => simp [delayCount]
  | succ n ih =>
    rw [List.replicate_succ, List.flatten_cons, delayCount_append, ih]
    cases k <;> simp [delayCount, retryTrace, Nat.add_comm]

theorem readCount_sampleTrace (cfg : Cfg) (r : Sample) :
    readCount (sampleTrace cfg r) = r.faults + 1 := by
  rw [sampleTrace, readCount_append, readCount_retries]
  rfl

theorem delayCount_sampleTrace (cfg : Cfg) (k : DelayKind) (r : Sample) :
    delayCount k (sampleTrace cfg r) = if k = .retry then r.faults else 0 := by
  rw [sampleTrace, delayCount_append, delayCount_retries]
  simp [delayCount, readTrace]

theorem readCount_failedTrace (cfg : Cfg) : readCount (failedTrace cfg) = cfg.maxRetries + 1 := by
  rw [failedTrace, readCount_append, readCount_retries]
  rfl

theorem delayCount_failedTrace (cfg : Cfg) (k : DelayKind) :
    delayCount k (failedTrace cfg) = if k = .retry then cfg.maxRetries else 0 := by
  rw [failedTrace, delayCount_append, delayCount_retries]
  simp [delayCount]

/-- Settles O45: whatever the answers, RDBYTE leads to one of three states (`replies_cases`), and
the events it appended are counted. -/
theorem rdbyteIsBounded : Obligations.RdbyteIsBounded := by
  intro s t hs ht
  rcases replies_cases s.cfg.maxRetries s.replies with ⟨faults, v, more, hlength, hreplies⟩ |
    ⟨faults, more, hlength, hreplies⟩ | ⟨faults, hlength, hreplies⟩
  · rw [exec_rdbyte_of_sample hs hlength hreplies] at ht
    cases ht
    refine ⟨_, rfl, ?_, ?_, fun _ => ?_, fun _ => hs.1⟩
    · simpa [readCount_sampleTrace] using hlength
    · simpa [allDelays, delayCount_sampleTrace] using hlength
    · simp [readCount_sampleTrace]
  · rw [exec_rdbyte_of_failed_sample hs hlength hreplies] at ht
    cases ht
    refine ⟨_, List.append_assoc .., ?_, ?_, fun _ => ?_, fun _ => rfl⟩
    · rw [readCount_append, readCount_failedTrace]
      exact Nat.le_refl _
    · have hend (k : DelayKind) : delayCount k [.report (.fatalTransport .read), .rel] = 0 := by
        simp [delayCount]
      simp [allDelays, delayCount_append, delayCount_failedTrace, hend]
    · rw [readCount_append, readCount_failedTrace]
      omega
  · rw [exec_rdbyte_of_no_answer hs hlength hreplies] at ht
    cases ht
    refine ⟨_, rfl, ?_, ?_, nofun, fun hanswered => ?_⟩
    · rw [readCount_retries]
      omega
    · simpa [allDelays, delayCount_retries] using hlength
    · rw [hreplies, List.length_map] at hanswered
      omega

/-! ### Matches and stable runs (R20, R132) -/

theorem matchesOf_concat (bytes : List Byte) (v : Byte) :
    matchesOf (bytes ++ [v]) = if bytes.getLast? = some v then matchesOf bytes + 1 else 0 := by
  rcases List.eq_nil_or_concat' bytes with rfl | ⟨earlier, w, rfl⟩
  · rfl
  · by_cases h : w = v <;> simp [matchesOf, h]

/-- `n + 1` equal samples stand at the end exactly if the last sample has `n` matches. -/
theorem replicate_suffix_iff (v : Byte) (n : Nat) (bytes : List Byte) :
    List.replicate (n + 1) v <:+ bytes ↔ bytes.getLast? = some v ∧ n ≤ matchesOf bytes := by
  induction bytes using List.reverseRecOn generalizing n with
  | nil => simp
  | append_singleton earlier w ih =>
    have hlast : List.replicate (n + 1) v <:+ earlier ++ [w] ↔
        List.replicate n v <:+ earlier ∧ v = w := by
      rw [List.replicate_succ', List.suffix_append_inj_of_length_eq (s₁ := [v]) (s₂ := [w]) rfl,
        List.singleton_inj]
    rw [hlast, List.getLast?_concat, Option.some_inj, eq_comm (a := w), and_comm]
    refine and_congr_right fun hv => ?_
    cases n with
    | zero => simp
    | succ n =>
      rw [ih, matchesOf_concat, hv]
      split <;> simp_all

theorem hasStableRun_concat_iff (bytes : List Byte) (v : Byte) :
    HasStableRun (bytes ++ [v]) ↔
      HasStableRun bytes ∨ stableCount ≤ matchesOf (bytes ++ [v]) := by
  have hiff (l : List Byte) : HasStableRun l ↔ ∃ w, List.replicate (stableCount + 1) w <:+: l := by
    simp only [HasStableRun, List.IsInfix, eq_comm, exists_comm (α := Byte)]
  simp only [hiff, List.infix_concat_iff, replicate_suffix_iff, List.getLast?_concat]
  simp [exists_or, or_comm]

theorem not_hasStableRun_nil : ¬ HasStableRun [] := by
  rintro ⟨before, v, after, h⟩
  simp at h

theorem HasStableRun.of_dropLast {bytes : List Byte} (h : HasStableRun bytes.dropLast) :
    HasStableRun bytes := by
  rcases List.eq_nil_or_concat' bytes with rfl | ⟨earlier, v, rfl⟩
  · exact h
  · rw [List.dropLast_concat] at h
    exact (hasStableRun_concat_iff earlier v).mpr (.inl h)

theorem matchesOf_lt_of_not_stable {bytes : List Byte} (h : ¬ HasStableRun bytes) :
    matchesOf bytes < stableCount := by
  rcases List.eq_nil_or_concat' bytes with rfl | ⟨earlier, v, rfl⟩
  · decide
  · rw [hasStableRun_concat_iff] at h
    omega

/-- At the end of the first stable run there are exactly as many matches as it takes. -/
theorem matchesOf_of_stabilizes {bytes : List Byte} (h : Stabilizes bytes) :
    matchesOf bytes = stableCount := by
  obtain ⟨hstable, hbefore⟩ := h
  rcases List.eq_nil_or_concat' bytes with rfl | ⟨earlier, v, rfl⟩
  · exact absurd hstable hbefore
  · rw [List.dropLast_concat] at hbefore
    have hge := ((hasStableRun_concat_iff earlier v).mp hstable).resolve_left hbefore
    have hlt := matchesOf_lt_of_not_stable hbefore
    have hstep : matchesOf (earlier ++ [v]) ≤ matchesOf earlier + 1 := by
      rw [matchesOf_concat]
      split <;> omega
    omega

/-- The stable run stands at the end (R133). -/
theorem exists_replicate_suffix_of_stabilizes {bytes : List Byte} (h : Stabilizes bytes) :
    ∃ v, bytes.getLast? = some v ∧ List.replicate (stableCount + 1) v <:+ bytes := by
  rcases List.eq_nil_or_concat' bytes with rfl | ⟨earlier, v, rfl⟩
  · exact absurd h.1 h.2
  · have hlast : (earlier ++ [v]).getLast? = some v := List.getLast?_concat
    exact ⟨v, hlast, (replicate_suffix_iff v _ _).mpr ⟨hlast, (matchesOf_of_stabilizes h).ge⟩⟩

/-- The stable run stands nowhere else (R133). -/
theorem eq_nil_of_stabilizes {bytes taken rest : List Byte} {w : Byte} (h : Stabilizes bytes)
    (hrun : bytes = taken ++ List.replicate (stableCount + 1) w ++ rest) : rest = [] := by
  by_contra hrest
  refine h.2 ⟨taken, w, rest.dropLast, ?_⟩
  rw [hrun, List.dropLast_append_of_ne_nil hrest]

theorem bytesOf_concat (samples : List Sample) (r : Sample) :
    bytesOf (samples ++ [r]) = bytesOf samples ++ [r.byte] :=
  List.map_append

theorem getLast?_bytesOf (samples : List Sample) :
    (bytesOf samples).getLast? = samples.getLast?.map Sample.byte :=
  List.getLast?_map

/-! ### The samples of RDFAST (R132) -/

/-- The delay after a sample that differs from the one before it (R132). -/
def romDelay (last : Option Byte) (v : Byte) : List Event :=
  if last.isSome && last != some v then [.delay .rom] else []

theorem answers_romDelay (last : Option Byte) (v : Byte) (replies : List Reply) :
    answers (romDelay last v) replies = replies.isEmpty := by
  unfold romDelay
  split <;> rfl

theorem fastTrace_cons (cfg : Cfg) (last : Option Byte) (r : Sample) (samples : List Sample) :
    fastTrace cfg last (r :: samples) =
      sampleTrace cfg r ++ romDelay last r.byte ++ fastTrace cfg (some r.byte) samples := rfl

/-- The trace of samples grows by that of the last one (R132). -/
theorem fastTrace_concat (cfg : Cfg) (last : Option Byte) (samples : List Sample) (r : Sample) :
    fastTrace cfg last (samples ++ [r]) = fastTrace cfg last samples ++ sampleTrace cfg r ++
      romDelay ((bytesOf samples).getLast?.or last) r.byte := by
  induction samples generalizing last with
  | nil => simp [fastTrace, romDelay, bytesOf]
  | cons q samples ih =>
    have hlast : (bytesOf (q :: samples)).getLast?.or last =
        (bytesOf samples).getLast?.or (some q.byte) := by
      rw [bytesOf, List.map_cons, List.getLast?_cons, bytesOf]
      cases (samples.map Sample.byte).getLast? <;> rfl
    rw [List.cons_append, fastTrace_cons, fastTrace_cons, ih, hlast]
    simp only [List.append_assoc]

/-- The state at the loop test of a RDFAST after these samples (R132). -/
def State.fastRead (s : State) (samples : List Sample) : State :=
  { s.sampled samples with rc := (samples.getLast?.map Sample.faults).getD s.rc }

/-- What the last sample changes (R132). -/
theorem fastRead_concat (s : State) (samples : List Sample) (r : Sample) :
    s.fastRead (samples ++ [r]) =
      { (s.fastRead samples).sampleRead r with
        lb := some r.byte
        mc := if (bytesOf samples).getLast? = some r.byte then matchesOf (bytesOf samples) + 1 else 0
        ac := samples.length + 1
        tr := s.tr ++ fastTrace s.cfg none samples ++ sampleTrace s.cfg r ++
          romDelay (bytesOf samples).getLast? r.byte } := by
  simp [State.fastRead, State.sampled, State.sampleRead, bytesOf_concat, matchesOf_concat,
    fastTrace_concat]

/-- Judging the sample just read counts it among the samples (R132). -/
theorem perform_fastJudge (s : State) (samples : List Sample) (r : Sample) :
    perform .fastJudge ((s.fastRead samples).sampleRead r) = .go (s.fastRead (samples ++ [r])) := by
  rw [fastRead_concat]
  simp only [perform, performFastJudge, State.sampleRead, State.fastRead, State.sampled,
    ← getLast?_bytesOf]
  cases hlast : (bytesOf samples).getLast? with
  | none => simp [romDelay]
  | some w =>
    by_cases h : w = r.byte
    · simp [romDelay, h]
    · simp [romDelay, h, State.delay, State.emit]

theorem proceed_fastLoop_done {s : State} (h : stableCount ≤ s.mc) (rest : List Task)
    (replies : List Reply) :
    proceed (.act .fastLoop :: rest) replies s = proceed rest replies s := by
  have hgo : perform .fastLoop s = .go s := by
    simp [perform, performFastLoop, Nat.not_lt_of_le h]
  exact proceed_go rest replies hgo

theorem proceed_fastLoop_timeout {s : State} (h : s.mc < stableCount)
    (hceiling : s.cfg.stabilizeCeiling = some s.ac) (rest : List Task) (replies : List Reply) :
    proceed (.act .fastLoop :: rest) replies s =
      .next { s.abortedBy .stabilizationTimeout [] with replies := replies } := by
  have hstop : perform .fastLoop s = .stop (s.raise .stabilizationTimeout) := by
    simp [perform, performFastLoop, h, hceiling]
  rw [proceed_stop rest replies hstop]
  simp [State.raise, State.emit, State.abortedBy]

theorem proceed_fastLoop_wait {s : State} (h : s.mc < stableCount)
    (hceiling : s.cfg.stabilizeCeiling ≠ some s.ac) (rest : List Task) (replies : List Reply) :
    proceed (.act .fastLoop :: rest) replies s =
      proceed (.bus .read :: .act .fastJudge :: .act .fastLoop :: rest) replies
        { s with rc := 0 } := by
  have hwait : perform .fastLoop s =
      .wait [.bus .read, .act .fastJudge, .act .fastLoop] { s with rc := 0 } := by
    simp [perform, performFastLoop, h, hceiling]
  exact proceed_wait rest replies hwait

/-- One more sample of a RDFAST that has no stable run yet and is below its ceiling (R132). -/
theorem proceed_fastLoop_sample {s : State} {samples : List Sample}
    (hstable : ¬ HasStableRun (bytesOf samples))
    (hceiling : s.cfg.stabilizeCeiling ≠ some samples.length) {faults : List Bool} (v : Byte)
    (hfaults : faults.length ≤ s.cfg.maxRetries) (rest : List Task) (more : List Reply) :
    proceed (.act .fastLoop :: rest) (faults.map .ioFault ++ .ok v :: more) (s.fastRead samples) =
      proceed (.act .fastLoop :: rest) more (s.fastRead (samples ++ [⟨faults.length, v⟩])) := by
  rw [proceed_fastLoop_wait (matchesOf_lt_of_not_stable hstable) hceiling,
    proceed_sample (s.fastRead samples) faults v _ more hfaults,
    proceed_go _ _ (perform_fastJudge s samples _)]

theorem recovers_concat {cfg : Cfg} {samples : List Sample} {r : Sample} :
    recovers cfg (samples ++ [r]) = true ↔ recovers cfg samples = true ∧ r.faults ≤ cfg.maxRetries := by
  simp [recovers]

/-- The answers to samples are those to all but the last, then the faults and the byte of the last. -/
theorem exists_faults_of_answers_fastTrace_concat {cfg : Cfg} {samples : List Sample} {r : Sample}
    {replies : List Reply} (h : answers (fastTrace cfg none (samples ++ [r])) replies = true) :
    ∃ used, answers (fastTrace cfg none samples) used = true ∧ ∃ faults : List Bool,
      faults.length = r.faults ∧ replies = used ++ (faults.map .ioFault ++ [.ok r.byte]) := by
  rw [fastTrace_concat, List.append_assoc, answers_append_iff] at h
  obtain ⟨used, _, rfl, hused, h⟩ := h
  obtain ⟨_, more, rfl, hsample, hmore⟩ := (answers_append_iff _ _ _).mp h
  obtain ⟨faults, hfaults, rfl⟩ := exists_faults_of_answers_sampleTrace hsample
  rw [answers_romDelay] at hmore
  obtain rfl : more = [] := List.isEmpty_iff.mp hmore
  exact ⟨used, hused, faults, hfaults, by rw [List.append_nil]⟩

/-- A RDFAST comes to its loop test after any samples without a stable run before the last of them and
are not more than its ceiling (R132). -/
theorem proceed_fastLoop {s : State} {samples : List Sample} {replies : List Reply}
    (hrecovers : recovers s.cfg samples = true)
    (hstable : ¬ HasStableRun (bytesOf samples).dropLast)
    (hceiling : ∀ c, s.cfg.stabilizeCeiling = some c → samples.length ≤ c)
    (hanswers : answers (fastTrace s.cfg none samples) replies = true)
    (rest : List Task) (more : List Reply) :
    proceed (.act .fastLoop :: rest) (replies ++ more) (s.fastRead []) =
      proceed (.act .fastLoop :: rest) more (s.fastRead samples) := by
  induction samples using List.reverseRecOn generalizing replies more with
  | nil =>
    obtain rfl : replies = [] := List.isEmpty_iff.mp hanswers
    rfl
  | append_singleton samples r ih =>
    obtain ⟨used, hused, faults, hfaults, rfl⟩ := exists_faults_of_answers_fastTrace_concat hanswers
    rw [recovers_concat] at hrecovers
    rw [bytesOf_concat, List.dropLast_concat] at hstable
    have hbelow (c : Nat) (hc : s.cfg.stabilizeCeiling = some c) : samples.length < c := by
      simpa using hceiling c hc
    have hnext := proceed_fastLoop_sample hstable (s := s) (fun hc => (hbelow _ hc).ne rfl) r.byte
      (hfaults.trans_le hrecovers.2) rest more
    rw [hfaults] at hnext
    rw [List.append_assoc, ih hrecovers.1 (fun h => hstable h.of_dropLast)
      (fun c hc => (hbelow c hc).le) hused, List.append_assoc]
    exact hnext

/-! ### RDFAST (R132, R134, R135) -/

theorem exec_rdfast {s : State} {replies : List Reply} (hs : Accepting s)
    (hreplies : s.replies = replies) :
    exec .rdfast s = proceed [.act .fastLoop] replies (s.fastRead []) := by
  have hbegin : perform .beginFast s = .go (s.fastRead []) := by
    simp [perform, State.fastRead, State.sampled, fastTrace, bytesOf, matchesOf]
  rw [exec_eq_proceed .rdfast hs, hreplies]
  exact proceed_go _ replies hbegin

/-- Settles O46: at the loop test after the samples there are enough matches. -/
theorem rdfastReturnsAStableSample : Obligations.RdfastReturnsAStableSample := by
  intro s samples last replies more hs hrecovers hstable hceiling hlast hanswers hreplies
  have hmatches := matchesOf_of_stabilizes hstable
  rw [exec_rdfast hs hreplies, proceed_fastLoop hrecovers hstable.2 hceiling hanswers,
    proceed_fastLoop_done hmatches.ge, proceed_nil]
  simp [State.fastRead, State.sampled, hlast, hmatches, hs.1, stableCount]

/-- Settles O48: at the loop test after the samples there are too few matches and no ceiling, so RDFAST
asks for another sample, and no answer is left. -/
theorem rdfastHangsWithoutAStableRun : Obligations.RdfastHangsWithoutAStableRun := by
  intro s samples hs hceiling hrecovers hstable hanswers
  have hwaits : exec .rdfast s = .next { s.sampled samples with
      rc := 0, work := [.bus .read, .act .fastJudge, .act .fastLoop], replies := [] } := by
    rw [exec_rdfast hs (List.append_nil _).symm,
      proceed_fastLoop hrecovers (fun h => hstable h.of_dropLast) (by simp [hceiling]) hanswers,
      proceed_fastLoop_wait (matchesOf_lt_of_not_stable hstable)
        (by simp [State.fastRead, State.sampled, hceiling]), proceed_bus_nil]
    rfl
  exact ⟨_, hwaits, by simp, rfl, rfl⟩

/-- Settles O49: at the loop test after the samples there are too few matches; the ceiling is reached,
or another sample is asked for and all its attempts fault. -/
theorem rdfastWithoutAStableRunFaults : Obligations.RdfastWithoutAStableRunFaults := by
  intro s samples replies more hs hrecovers hstable hreplies
  have hmatches := matchesOf_lt_of_not_stable hstable
  have hbefore : ¬ HasStableRun (bytesOf samples).dropLast := fun h => hstable h.of_dropLast
  refine ⟨fun hceiling hanswers => ⟨?_, hmatches⟩, fun hceiling hanswers => ?_⟩
  · rw [exec_rdfast hs hreplies, proceed_fastLoop hrecovers hbefore (by simp [hceiling]) hanswers,
      proceed_fastLoop_timeout hmatches hceiling]
    rfl
  · obtain ⟨used, _, rfl, hused, hfailed⟩ := (answers_append_iff _ _ _).mp hanswers
    obtain ⟨faults, hlength, rfl⟩ := exists_faults_of_answers_failedTrace hfailed
    rw [exec_rdfast hs hreplies, List.append_assoc,
      proceed_fastLoop hrecovers hbefore (fun c hc => (hceiling c hc).le) hused,
      proceed_fastLoop_wait (s := s.fastRead samples) hmatches fun hc => (hceiling _ hc).ne rfl,
      proceed_failed_sample (s.fastRead samples) faults _ more hlength]
    rfl

/-! ### Whatever the bus answers (R133) -/

/-- A RDFAST that returns has taken samples that stabilize, and stands at its loop test after them. -/
theorem exists_samples_of_fastLoop_returns {s t : State} {samples : List Sample}
    {replies : List Reply} (hstable : ¬ HasStableRun (bytesOf samples).dropLast)
    (h : proceed [.act .fastLoop] replies (s.fastRead samples) = .next t) (hwork : t.work = [])
    (hst : t.st = .idle) :
    ∃ samples' more, Stabilizes (bytesOf samples') ∧
      proceed [] more (s.fastRead samples') = .next t := by
  by_cases hdone : HasStableRun (bytesOf samples)
  · have hmatches := matchesOf_of_stabilizes ⟨hdone, hstable⟩
    rw [proceed_fastLoop_done hmatches.ge] at h
    exact ⟨samples, replies, ⟨hdone, hstable⟩, h⟩
  have hmatches := matchesOf_lt_of_not_stable hdone
  by_cases hceiling : s.cfg.stabilizeCeiling = some samples.length
  · rw [proceed_fastLoop_timeout hmatches hceiling] at h
    cases h
    cases hst
  rcases replies_cases s.cfg.maxRetries replies with ⟨faults, v, more, hlength, hreplies⟩ |
    ⟨faults, more, hlength, hreplies⟩ | ⟨faults, hlength, hreplies⟩
  · rw [hreplies, proceed_fastLoop_sample hdone hceiling v hlength] at h
    have hnext : ¬ HasStableRun (bytesOf (samples ++ [⟨faults.length, v⟩])).dropLast := by
      rwa [bytesOf_concat, List.dropLast_concat]
    exact exists_samples_of_fastLoop_returns hnext h hwork hst
  · rw [hreplies, proceed_fastLoop_wait hmatches hceiling,
      proceed_failed_sample (s.fastRead samples) faults _ more hlength] at h
    cases h
    cases hst
  · rw [hreplies, proceed_fastLoop_wait hmatches hceiling, ← List.append_nil (faults.map _),
      proceed_read_retries _ faults _ [] ((Nat.zero_add _).trans_le hlength), proceed_bus_nil] at h
    cases h
    cases hwork
termination_by replies.length
decreasing_by simp [hreplies]; omega

/-! ### The reads and delays of a RDFAST (R132, R133) -/

theorem okReads_append (before after : List Event) :
    okReads (before ++ after) = okReads before ++ okReads after := by
  induction before with
  | nil => rfl
  | cons e before ih =>
    cases e with
    | rd chip reg res =>
      cases res with
      | ok v => exact congrArg (v :: ·) ih
      | ioFault => exact ih
    | wr _ _ _ _ | delay _ | progress _ | report _ | out _ | rel => exact ih

theorem okReads_retries (cfg : Cfg) (n : Nat) :
    okReads (List.replicate n (retryTrace cfg)).flatten = [] := by
  induction n with
  | zero => rfl
  | succ n ih => exact ih

theorem okReads_sampleTrace (cfg : Cfg) (r : Sample) : okReads (sampleTrace cfg r) = [r.byte] := by
  rw [sampleTrace, okReads_append, okReads_retries]
  rfl

theorem okReads_romDelay (last : Option Byte) (v : Byte) : okReads (romDelay last v) = [] := by
  unfold romDelay
  split <;> rfl

theorem okReads_fastTrace (cfg : Cfg) (last : Option Byte) (samples : List Sample) :
    okReads (fastTrace cfg last samples) = bytesOf samples := by
  induction samples generalizing last with
  | nil => rfl
  | cons r samples ih =>
    rw [fastTrace_cons, okReads_append, okReads_append, okReads_sampleTrace, okReads_romDelay, ih]
    rfl

theorem delayCount_romDelay_some (w v : Byte) :
    delayCount .rom (romDelay (some w) v) = if w = v then 0 else 1 := by
  by_cases h : w = v <;> simp [romDelay, delayCount, h]

theorem delayCount_rom_fastTrace_some (cfg : Cfg) (w : Byte) (samples : List Sample) :
    delayCount .rom (fastTrace cfg (some w) samples) = changes (w :: bytesOf samples) := by
  induction samples generalizing w with
  | nil => rfl
  | cons r samples ih =>
    rw [fastTrace_cons, delayCount_append, delayCount_append, delayCount_sampleTrace,
      delayCount_romDelay_some, ih, if_neg (by decide), Nat.zero_add]
    rfl

/-- There is one `Delay(Rom)` for each sample that differs from the one before it (R132). -/
theorem delayCount_rom_fastTrace (cfg : Cfg) (samples : List Sample) :
    delayCount .rom (fastTrace cfg none samples) = changes (bytesOf samples) := by
  cases samples with
  | nil => rfl
  | cons r samples =>
    rw [fastTrace_cons, delayCount_append, delayCount_append, delayCount_sampleTrace,
      delayCount_rom_fastTrace_some, if_neg (by decide), Nat.zero_add]
    exact Nat.zero_add _

/-- Settles O47: the samples RDFAST took stabilize, and its reads and delays are those of their
trace. -/
theorem rdfastReturnsOnlyStableValues : Obligations.RdfastReturnsOnlyStableValues := by
  intro s t hs ht hwork hst
  rw [exec_rdfast hs rfl] at ht
  obtain ⟨samples, more, hstable, hend⟩ :=
    exists_samples_of_fastLoop_returns (samples := []) not_hasStableRun_nil ht hwork hst
  rw [proceed_nil] at hend
  cases hend
  obtain ⟨v, hlast, before, hbefore⟩ := exists_replicate_suffix_of_stabilizes hstable
  rw [getLast?_bytesOf] at hlast
  refine ⟨fastTrace s.cfg none samples, before, v, rfl, ?_, hlast, ?_,
    matchesOf_of_stabilizes hstable, ?_, fun taken rest w hrun => ?_, ?_⟩
  · rw [okReads_fastTrace]
    exact hbefore.symm
  · simp [State.fastRead, State.sampled, hlast]
  · simp [okReads_fastTrace, State.fastRead, State.sampled, bytesOf]
  · exact eq_nil_of_stabilizes hstable (hbefore.symm.trans hrun)
  · rw [okReads_fastTrace, delayCount_rom_fastTrace]

end Sys2Proof.Machine

/-! ## Proofs of the family "validator": CHKROM and its checks (R150 to R153). -/

namespace Sys2Proof.Machine

open Sys2Proof

/-! ### The checks on a sample (R151 to R153) -/

/-- Equal bytes are equal in pairs, which is why the not-all-ones check adds nothing (R153). -/
theorem allPairsEqual_of_all_eq {v : Byte} {sample : List Byte} (h : sample.all (· == v) = true) :
    allPairsEqual sample = true := by
  induction sample using allPairsEqual.induct with
  | case1 a b rest ih =>
    simp only [List.all_cons, Bool.and_eq_true, beq_iff_eq] at h
    obtain ⟨ha, hb, hrest⟩ := h
    simp [allPairsEqual, ha, hb, ih hrest]
  | case2 sample hshort =>
    rw [allPairsEqual]
    exact hshort

theorem allPairsEqual_flatMap_pair (pairs : List Byte) :
    allPairsEqual (pairs.flatMap fun b => [b, b]) = true := by
  induction pairs with
  | nil => rfl
  | cons b pairs ih => simpa [allPairsEqual] using ih

/-- The verdict is that of the not-all-zeros check and the pairs check, with the not-all-ones check and
without it. -/
theorem checks_eq (checkAllOnes : Bool) (sample : List Byte) :
    checks checkAllOnes sample =
      if sample.all (· == 0x00#8) then some .absent
      else if allPairsEqual sample then some .miswired else none := by
  cases checkAllOnes with
  | false => rfl
  | true =>
    unfold checks
    by_cases hones : sample.all (· == 0xFF#8) = true
    · simp [hones, allPairsEqual_of_all_eq hones]
    · simp [hones]

theorem checks_of_pairs {sample : List Byte} (checkAllOnes : Bool)
    (hzeros : ¬ sample.all (· == 0x00#8) = true) (hpairs : allPairsEqual sample = true) :
    checks checkAllOnes sample = some .miswired := by
  rw [checks_eq, if_neg hzeros, if_pos hpairs]

/-- Settles O52: neither verdict depends on the check, whatever the length of the sample. -/
theorem notAllOnesCheckIsRedundant : Obligations.NotAllOnesCheckIsRedundant := by
  intro sample _
  rw [checks_eq, checks_eq]

/-- A sample of duplicated pairs is all zero only if the pairs are. -/
theorem eq_replicate_of_all_zero_flatMap_pair {pairs : List Byte}
    (h : (pairs.flatMap fun b => [b, b]).all (· == 0x00#8) = true) :
    pairs = List.replicate pairs.length 0x00#8 := by
  refine List.eq_replicate_of_mem fun b hb => ?_
  rw [List.all_eq_true] at h
  exact beq_iff_eq.mp (h b (List.mem_flatMap.mpr ⟨b, hb, List.mem_cons_self⟩))

/-- Settles O51: sixteen `FF` and the duplicated pairs fail the pairs check. -/
theorem sourceValidatorOutcomes : Obligations.SourceValidatorOutcomes := by
  intro allOnes
  refine ⟨?_, ?_, ?_, fun pairs hlength hpairs => ?_⟩
  · rw [checks_eq]
    rfl
  · exact checks_of_pairs allOnes (by decide) (allPairsEqual_of_all_eq (v := 0xFF#8) (by decide))
  · rw [checks_eq]
    decide
  · refine checks_of_pairs allOnes (fun hzeros => hpairs ?_) (allPairsEqual_flatMap_pair pairs)
    rw [eq_replicate_of_all_zero_flatMap_pair hzeros, hlength]

/-! ### The sample registers (R22, R150) -/

@[simp] theorem storeAll_nil (sample : Vector (Option Byte) 16) : storeAll sample [] = sample := by
  ext i hi
  simp [storeAll]

/-- The byte stored next stands just after those stored before it. -/
theorem set_storeAll (sample : Vector (Option Byte) 16) {bytes : List Byte} {i : Fin 16} (v : Byte)
    (h : bytes.length = i.val) :
    (storeAll sample bytes).set i.val (some v) = storeAll sample (bytes ++ [v]) := by
  ext1 j hj
  simp only [storeAll, Vector.getElem_set, Vector.getElem_ofFn, List.length_append,
    List.length_singleton, h]
  rcases Nat.lt_trichotomy i.val j with hlt | rfl | hgt
  · simp [hlt.ne, Nat.not_lt_of_lt hlt, Nat.not_lt_of_le hlt]
  · simp [← h]
  · have hlast : j < bytes.length := h ▸ hgt
    simp [hgt.ne', hgt, Nat.lt_succ_of_lt hgt, List.getElem?_append_left hlast]

theorem sampleBytes_storeAll (sample : Vector (Option Byte) 16) {bytes : List Byte}
    (h : bytes.length = 16) : sampleBytes (storeAll sample bytes) = some bytes := by
  have hlist : (storeAll sample bytes).toList = bytes.map some := by
    refine List.ext_getElem (by simp [h]) fun i hi hi' => ?_
    have hlt : i < bytes.length := by simpa using hi'
    simp [storeAll, hlt]
  rw [sampleBytes, hlist, List.mapM_map]
  exact (List.mapM_pure (m := Option) (f := id)).trans (congrArg some bytes.map_id)

/-! ### The trace of the probes (R150) -/

/-- The address CHKROM probes for sample number `i` (R150). -/
def probeAddress (i : Nat) : Half := BitVec.ofNat 16 (romOffset + i)

/-- The events of one probe (R150). -/
def probeTrace (cfg : Cfg) (i : Nat) (r : Sample) : List Event :=
  setAddressTrace cfg (probeAddress i) ++ [.delay .addr] ++ sampleTrace cfg r

/-- The trace of the probes grows by that of the last one. -/
theorem probesTrace_concat (cfg : Cfg) (i : Nat) (probes : List Sample) (r : Sample) :
    probesTrace cfg i (probes ++ [r]) =
      probesTrace cfg i probes ++ probeTrace cfg (i + probes.length) r := by
  induction probes generalizing i with
  | nil => simp [probesTrace, probeTrace, probeAddress]
  | cons q probes ih => simp [probesTrace, ih, Nat.add_assoc, Nat.add_comm 1]

theorem afterWrites_append (cfg : Cfg) (e : Env) (before after : List Event) :
    e.afterWrites cfg (before ++ after) = (e.afterWrites cfg before).afterWrites cfg after := by
  induction before generalizing e with
  | nil => rfl
  | cons event before ih =>
    cases event with
    | wr chip reg val res => cases res <;> exact ih _
    | _ => exact ih e

theorem afterWrites_retries (cfg : Cfg) (e : Env) (n : Nat) :
    e.afterWrites cfg (List.replicate n (retryTrace cfg)).flatten = e := by
  induction n with
  | zero => rfl
  | succ n ih =>
    rw [List.replicate_succ, List.flatten_cons, afterWrites_append]
    exact ih

/-- A read changes nothing in the environment, however often it is tried (R50). -/
theorem afterWrites_sampleTrace (cfg : Cfg) (e : Env) (r : Sample) :
    e.afterWrites cfg (sampleTrace cfg r) = e := by
  rw [sampleTrace, afterWrites_append, afterWrites_retries]
  rfl

/-- The writes of a probe are those of its SETADDR. -/
theorem afterWrites_probeTrace (s : State) (i : Nat) (r : Sample) :
    s.env.afterWrites s.cfg (probeTrace s.cfg i r) = (s.addressed (probeAddress i)).env := by
  rw [probeTrace, afterWrites_append, afterWrites_sampleTrace]
  rfl

/-- The answers to a SETADDR that succeeds are two Ok answers, and those to what follows it. -/
theorem exists_oks_of_answers_setAddressTrace {cfg : Cfg} {p : Half} {rest : List Event}
    {replies : List Reply} (h : answers (setAddressTrace cfg p ++ rest) replies = true) :
    ∃ u v more, replies = .ok u :: .ok v :: more ∧ answers rest more = true := by
  have hok {reply : Reply} (hres : writeResult reply = .ok) : ∃ u, reply = .ok u := by
    cases reply with
    | ok u => exact ⟨u, rfl⟩
    | ioFault _ => cases hres
  obtain ⟨low, _, rfl, hlow, h⟩ := (answers_wr_iff _ _ _ _ _ _).mp h
  obtain ⟨high, more, rfl, hhigh, h⟩ := (answers_wr_iff _ _ _ _ _ _).mp h
  obtain ⟨u, rfl⟩ := hok hlow
  obtain ⟨v, rfl⟩ := hok hhigh
  exact ⟨u, v, more, rfl, h⟩

/-- The answers to a probe are two Ok answers, then the faults and the byte of its read. -/
theorem exists_faults_of_answers_probeTrace {cfg : Cfg} {i : Nat} {r : Sample}
    {replies : List Reply} (h : answers (probeTrace cfg i r) replies = true) :
    ∃ (u v : Byte) (faults : List Bool), faults.length = r.faults ∧
      replies = .ok u :: .ok v :: (faults.map .ioFault ++ [.ok r.byte]) := by
  rw [probeTrace, List.append_assoc] at h
  obtain ⟨u, v, more, rfl, h⟩ := exists_oks_of_answers_setAddressTrace h
  obtain ⟨faults, hfaults, rfl⟩ := exists_faults_of_answers_sampleTrace h
  exact ⟨u, v, faults, hfaults, rfl⟩

/-! ### SETADDR within a plan (R100, R202) -/

theorem proceed_setAddress (s : State) (p : Half) (rest : List Task) (u v : Byte)
    (more : List Reply) :
    proceed (setAddressPlan p ++ rest) (.ok u :: .ok v :: more) s =
      proceed rest more (s.addressed p) := by
  calc proceed (setAddressPlan p ++ rest) (.ok u :: .ok v :: more) s
      = run (.ok u :: .ok v :: more) { s with work := setAddressPlan p ++ rest } := rfl
    _ = proceed rest more { s.addressed p with work := rest } := run_setAddressPlan s p rest rfl
    _ = proceed rest more (s.addressed p) := proceed_work rest more (s.addressed p) rest

theorem proceed_setAddress_of_low_fault (s : State) (p : Half) (rest : List Task) (landed : Bool)
    (more : List Reply) :
    proceed (setAddressPlan p ++ rest) (.ioFault landed :: more) s =
      .next { s.writeFailed s.cfg.portWL (lowByte p) landed with replies := more } :=
  run_setAddressPlan_of_low_fault s p rest rfl

theorem proceed_setAddress_of_high_fault (s : State) (p : Half) (rest : List Task) (u : Byte)
    (landed : Bool) (more : List Reply) :
    proceed (setAddressPlan p ++ rest) (.ok u :: .ioFault landed :: more) s =
      .next { (s.lowWritten p).writeFailed s.cfg.portWH (highByte p) landed with
        replies := more } :=
  run_setAddressPlan_of_high_fault s p rest rfl

/-! ### One probe (R150) -/

/-- What a probe does after its SETADDR. -/
def probeReadPlan (i : Fin 16) : List Task := settlePlan ++ readBytePlan ++ [.act (.storeSample i)]

theorem probePlan_append (i : Fin 16) (rest : List Task) :
    probePlan i ++ rest = setAddressPlan (probeAddress i) ++ (probeReadPlan i ++ rest) := by
  simp [probePlan, probeReadPlan, probeAddress]

/-- A probe comes to its read when both writes succeed. -/
theorem proceed_probe_read (s : State) (i : Fin 16) (rest : List Task) (u v : Byte)
    (more : List Reply) :
    proceed (probePlan i ++ rest) (.ok u :: .ok v :: more) s =
      proceed (.bus .read :: .act (.storeSample i) :: rest) more
        { (s.addressed (probeAddress i)).delay .addr with rc := 0 } := by
  rw [probePlan_append, proceed_setAddress]
  exact (proceed_go _ more rfl).trans (proceed_go _ more rfl)

theorem probed_nil (s : State) : s.probed [] = s := by
  simp [State.probed, probesTrace, Env.afterWrites, bytesOf]

/-- What the last probe changes. -/
theorem probed_concat (s : State) (probes : List Sample) (r : Sample) {i : Fin 16}
    (h : probes.length = i.val) :
    s.probed (probes ++ [r]) =
      { (((s.probed probes).addressed (probeAddress i)).delay .addr).sampleRead r with
        sample := (s.probed probes).sample.set i.val (some r.byte) } := by
  have hbytes : (bytesOf probes).length = i.val := by simpa [bytesOf] using h
  have htr : s.tr ++ probesTrace s.cfg 0 (probes ++ [r]) =
      (((s.probed probes).addressed (probeAddress i)).delay .addr).tr ++ sampleTrace s.cfg r := by
    simp [probesTrace_concat, probeTrace, h, State.addressed, State.probed, probeAddress]
  have henv : s.env.afterWrites s.cfg (probesTrace s.cfg 0 (probes ++ [r])) =
      ((s.probed probes).addressed (probeAddress i)).env := by
    rw [probesTrace_concat, afterWrites_append, h, Nat.zero_add]
    exact afterWrites_probeTrace (s.probed probes) i r
  rw [State.probed, htr, henv, bytesOf_concat, ← set_storeAll _ r.byte hbytes]
  simp [State.sampleRead, State.probed, State.addressed, State.delay, State.emit]

/-- A probe that succeeds, after at most `MaxRetries` faulted attempts at its read. -/
theorem proceed_probe (s : State) {probes : List Sample} {i : Fin 16} (h : probes.length = i.val)
    (rest : List Task) (u v b : Byte) {faults : List Bool}
    (hfaults : faults.length ≤ s.cfg.maxRetries) (more : List Reply) :
    proceed (probePlan i ++ rest) (.ok u :: .ok v :: (faults.map .ioFault ++ .ok b :: more))
        (s.probed probes) =
      proceed rest more (s.probed (probes ++ [⟨faults.length, b⟩])) := by
  rw [proceed_probe_read, probed_concat s probes _ h]
  refine (proceed_sample _ faults b _ more ?_).trans ?_
  · exact hfaults
  · exact proceed_go rest more rfl

/-! ### The probes of CHKROM (R150) -/

/-- The probes from sample number `i` on. -/
def probesPlan (i : Nat) : List Task := ((List.finRange 16).drop i).flatMap probePlan

theorem checkRomPlan_eq : checkRomPlan = probesPlan 0 ++ [.act .runChecks] := rfl

theorem probesPlan_of_lt {i : Nat} (h : i < 16) :
    probesPlan i = probePlan ⟨i, h⟩ ++ probesPlan (i + 1) := by
  have hdrop : (List.finRange 16).drop i = ⟨i, h⟩ :: (List.finRange 16).drop (i + 1) := by
    rw [List.drop_eq_getElem_cons (by simpa using h), List.getElem_finRange]
    rfl
  rw [probesPlan, hdrop, List.flatMap_cons, probesPlan]

theorem probesPlan_sixteen : probesPlan 16 = [] := rfl

/-- The first probes succeed, and the others are still to be done (R150). -/
theorem proceed_probes {s : State} {probes : List Sample} {replies : List Reply}
    (hlength : probes.length ≤ 16) (hrecovers : recovers s.cfg probes = true)
    (hanswers : answers (probesTrace s.cfg 0 probes) replies = true) (rest : List Task)
    (more : List Reply) :
    proceed (probesPlan 0 ++ rest) (replies ++ more) s =
      proceed (probesPlan probes.length ++ rest) more (s.probed probes) := by
  induction probes using List.reverseRecOn generalizing replies more with
  | nil =>
    obtain rfl : replies = [] := List.isEmpty_iff.mp hanswers
    rw [probed_nil]
    rfl
  | append_singleton probes r ih =>
    rw [probesTrace_concat, answers_append_iff] at hanswers
    obtain ⟨used, _, rfl, hused, hprobe⟩ := hanswers
    obtain ⟨u, v, faults, hfaults, rfl⟩ := exists_faults_of_answers_probeTrace hprobe
    rw [recovers_concat] at hrecovers
    rw [List.length_append, List.length_singleton] at hlength
    have hnext := proceed_probe s (i := ⟨probes.length, hlength⟩) rfl
      (probesPlan (probes.length + 1) ++ rest) u v r.byte (hfaults.trans_le hrecovers.2) more
    rw [hfaults] at hnext
    rw [List.append_assoc, ih (Nat.le_of_lt hlength) hrecovers.1 hused, probesPlan_of_lt hlength,
      List.append_assoc, List.length_append, List.length_singleton, ← hnext]
    simp

/-! ### CHKROM (R150, R151) -/

/-- The state after the checks of a complete sample (R151): the verdict, and the report of a failure. -/
def State.checked (s : State) (verdict : Option ValidationCause) : State :=
  { s with
    v := some (verdict == none)
    vc := some verdict
    tr := s.tr ++
      (match verdict with
       | none => []
       | some cause => [.report (.validation cause)]) }

theorem perform_runChecks {s : State} {bytes : List Byte} (h : sampleBytes s.sample = some bytes) :
    perform .runChecks s = .go (s.checked (checks s.cfg.checkAllOnes bytes)) := by
  simp only [perform, performChecks, h]
  cases checks s.cfg.checkAllOnes bytes with
  | none => simp [State.checked]
  | some cause => rfl

/-- Sixteen probes that succeed, and the checks of their bytes. -/
theorem proceed_checkRom {s : State} {probes : List Sample} {replies : List Reply}
    (hlength : probes.length = 16) (hrecovers : recovers s.cfg probes = true)
    (hanswers : answers (probesTrace s.cfg 0 probes) replies = true) (rest : List Task)
    (more : List Reply) :
    proceed (checkRomPlan ++ rest) (replies ++ more) s =
      proceed rest more
        ((s.probed probes).checked (checks s.cfg.checkAllOnes (bytesOf probes))) := by
  have hbytes : sampleBytes (s.probed probes).sample = some (bytesOf probes) :=
    sampleBytes_storeAll s.sample (by simpa [bytesOf] using hlength)
  rw [checkRomPlan_eq, List.append_assoc, proceed_probes hlength.le hrecovers hanswers, hlength,
    probesPlan_sixteen, List.nil_append]
  exact proceed_go rest more (perform_runChecks hbytes)

theorem proceed_nil_of_done {s : State} (h : s.work = []) (replies : List Reply) :
    proceed [] replies s = .next { s with replies := replies } := by
  rw [proceed, advance_nil, State.with_work_nil h]
  exact run_done replies h

/-- After the first probes CHKROM performs the next one, whatever is to follow it. -/
theorem proceed_checkRom_of_lt {s : State} {probes : List Sample} {replies : List Reply}
    (hlength : probes.length < 16) (hrecovers : recovers s.cfg probes = true)
    (hanswers : answers (probesTrace s.cfg 0 probes) replies = true) (rest : List Task)
    (more : List Reply) :
    ∃ later, proceed (checkRomPlan ++ rest) (replies ++ more) s =
      proceed (probePlan ⟨probes.length, hlength⟩ ++ later) more (s.probed probes) := by
  refine ⟨probesPlan (probes.length + 1) ++ ([.act .runChecks] ++ rest), ?_⟩
  rw [checkRomPlan_eq, List.append_assoc, proceed_probes hlength.le hrecovers hanswers,
    probesPlan_of_lt hlength, List.append_assoc]

/-- An accepted CHKROM is its plan, performed with the answers placed. -/
theorem exec_chkrom {s : State} {replies : List Reply} (hs : Accepting s)
    (hreplies : s.replies = replies) :
    exec .chkrom s = proceed (checkRomPlan ++ []) replies s := by
  rw [exec_eq_proceed .chkrom hs, hreplies, List.append_nil]
  rfl

/-- Settles O50: the probes lead to the checks, or the next probe aborts at its first write, at its second
one or at its read. -/
theorem chkromSamplesAndChecks : Obligations.ChkromSamplesAndChecks := by
  intro s probes replies more hs hrecovers hanswers
  refine ⟨fun hlength hreplies => ?_, fun hlength => ?_⟩
  · rw [exec_chkrom hs hreplies, proceed_checkRom hlength hrecovers hanswers]
    exact proceed_nil_of_done (s := (s.probed probes).checked _) hs.1 more
  · intro p a b landed
    have hnext (replies' : List Reply) (hreplies : s.replies = replies ++ replies') :
        ∃ later, exec .chkrom s =
          proceed (probePlan ⟨probes.length, hlength⟩ ++ later) replies' (s.probed probes) := by
      rw [exec_chkrom hs hreplies]
      exact proceed_checkRom_of_lt hlength hrecovers hanswers [] replies'
    refine ⟨fun hreplies => ?_, fun hreplies => ?_, fun faults hfaults hreplies => ?_⟩
    · obtain ⟨later, hexec⟩ := hnext _ hreplies
      rw [hexec, probePlan_append, proceed_setAddress_of_low_fault]
      rfl
    · obtain ⟨later, hexec⟩ := hnext _ hreplies
      rw [hexec, probePlan_append, proceed_setAddress_of_high_fault]
      rfl
    · rw [List.append_assoc] at hreplies
      obtain ⟨later, hexec⟩ := hnext _ hreplies
      rw [hexec, List.cons_append, List.cons_append, proceed_probe_read]
      exact proceed_failed_sample _ faults _ more hfaults

end Sys2Proof.Machine

/-! ## Proofs of the family "scanner": how commands are accepted and performed (R161), the transitions of
`ST` (R169), CONFIG and SCAN (R160 to R172). -/

namespace Sys2Proof.Machine

open Sys2Proof

/-! ### What an action does to `ST` and to the trace (R52, R169, R170) -/

/-- An event that is no bus transaction. -/
def Event.internal : Event → Bool
  | .wr _ _ _ _ => false
  | .rd _ _ _ => false
  | _ => true

/-- The sequencer state an action of SCAN enters (R163 to R165). -/
def Action.entered : Action → Option SeqState
  | .beginScan => some .configuring
  | .beginValidating => some .validating
  | .beginScanning => some .scanning
  | _ => none

theorem outputs_append (before after : List Event) :
    outputs (before ++ after) = outputs before ++ outputs after := by
  induction before with
  | nil => rfl
  | cons e before ih =>
    cases e with
    | out bytes => exact congrArg (bytes :: ·) ih
    | wr _ _ _ _ | rd _ _ _ | delay _ | progress _ | report _ | rel => exact ih

/-- The action `a` led from `s` to `s'`: it appended no transaction, and either it flushed nothing and `ST`
stayed, went to `Aborted` or is what `a` enters, or it was the end of the run and flushed `BUF`. -/
def Action.Led (a : Action) (s s' : State) : Prop :=
  ∃ events, s'.tr = s.tr ++ events ∧ events.all Event.internal = true ∧
    ((s'.st = s.st ∨ s'.st = .aborted ∨ a.entered = some s'.st) ∧ outputs events = [] ∨
      a = .scanLoop ∧ s'.st = .finalized ∧ outputs events = [s'.buf])

theorem Action.Led.of_same {a : Action} {s s' : State} (htr : s'.tr = s.tr) (hst : s'.st = s.st) :
    a.Led s s' := ⟨[], by simp [htr], rfl, .inl ⟨.inl hst, rfl⟩⟩

theorem Action.Led.of_event {a : Action} {s s' : State} (e : Event) (he : e.internal = true)
    (hout : outputs [e] = []) (htr : s'.tr = s.tr ++ [e]) (hst : s'.st = s.st) : a.Led s s' :=
  ⟨[e], htr, by simp [he], .inl ⟨.inl hst, hout⟩⟩

theorem Action.Led.of_entered {a : Action} {s s' : State} (htr : s'.tr = s.tr)
    (hst : a.entered = some s'.st) : a.Led s s' := ⟨[], by simp [htr], rfl, .inl ⟨.inr (.inr hst), rfl⟩⟩

/-- Fault entry goes to `Aborted`, from whatever state with the same trace. -/
theorem Action.Led.of_raise {a : Action} {s s' : State} (r : Report) (htr : s'.tr = s.tr) :
    a.Led s (s'.raise r) :=
  ⟨r.events, by simp [htr], by cases r <;> rfl, .inl ⟨.inr (.inl (s'.raise_st r)), by cases r <;> rfl⟩⟩

theorem perform_led (a : Action) (s : State) : (perform a s).All (a.Led s) := by
  cases a with
  | delay k => exact .of_event (.delay k) rfl rfl rfl rfl
  | bankSwitch m a =>
    simp only [perform]
    rcases bankSwitch_cases m a with h | ⟨_, _, h⟩ | ⟨cause, h⟩ <;> rw [h]
    · exact .of_same rfl rfl
    · exact .of_same rfl rfl
    · exact .of_raise _ rfl
  | beginRead => exact .of_same rfl rfl
  | beginFast => exact .of_same rfl rfl
  | fastLoop =>
    simp only [perform]
    rcases performFastLoop_cases s with ⟨_, h⟩ | ⟨_, _, h⟩ | ⟨_, _, h⟩ <;> rw [h]
    · exact .of_same rfl rfl
    · exact .of_raise _ rfl
    · exact .of_same rfl rfl
  | fastJudge =>
    simp only [perform]
    rcases performFastJudge_cases s with ⟨_, h⟩ | ⟨v, _, _, h⟩ | ⟨v, _, _, h⟩ | ⟨v, w, _, _, _, h⟩ <;>
      rw [h]
    · trivial
    · exact .of_same rfl rfl
    · exact .of_same rfl rfl
    · exact .of_event (.delay .rom) rfl rfl rfl rfl
  | storeSample i =>
    simp only [perform]
    rcases performStoreSample_cases i s with ⟨_, h⟩ | ⟨v, _, h⟩ <;> rw [h]
    · trivial
    · exact .of_same rfl rfl
  | runChecks =>
    simp only [perform]
    rcases performChecks_cases s with ⟨_, h⟩ | ⟨_, _, _, h⟩ | ⟨_, cause, _, _, h⟩ <;> rw [h]
    · trivial
    · exact .of_same rfl rfl
    · exact .of_event (.report (.validation cause)) rfl rfl rfl rfl
  | beginScan =>
    simp only [perform]
    rcases performBeginScan_cases s with ⟨_, h⟩ | ⟨_, h⟩ <;> rw [h]
    · exact .of_entered rfl rfl
    · exact .of_raise (s' := { s with st := .configuring }) _ rfl
  | beginValidating => exact .of_entered rfl rfl
  | verdict =>
    simp only [perform]
    rcases performVerdict_cases s with ⟨_, h⟩ | ⟨_, _, _, h⟩ | ⟨_, h⟩ <;> rw [h]
    · exact .of_same rfl rfl
    · exact .of_raise _ rfl
    · trivial
  | beginScanning => exact .of_entered rfl rfl
  | scanLoop =>
    simp only [perform]
    rcases performScanLoop_cases s with ⟨_, h⟩ | ⟨_, _, _, h⟩ | ⟨_, _, _, h⟩ <;> rw [h]
    · exact ⟨[.out s.buf, .rel], s.finalize_tr, rfl, .inr ⟨rfl, rfl, rfl⟩⟩
    · exact .of_same rfl rfl
    · exact .of_raise _ rfl
  | storeByte =>
    simp only [perform]
    rcases performStoreByte_cases s with ⟨_, h⟩ | ⟨v, _, h⟩ <;> rw [h]
    · trivial
    · exact .of_event (.progress s.x) rfl rfl rfl rfl

/-- An answered transaction flushes nothing, and `ST` stays or goes to `Aborted`. -/
theorem answer_st_outputs (s : State) (t : Transaction) (rest : List Task) (reply : Reply) :
    ((s.answer t rest reply).st = s.st ∨ (s.answer t rest reply).st = .aborted) ∧
      outputs (s.answer t rest reply).tr = outputs s.tr := by
  rcases answer_cases s t rest reply with ⟨_, _, _, _, h⟩ | ⟨_, _, _, _, h⟩ | ⟨_, _, _, h⟩ |
    ⟨_, _, _, _, h⟩ | ⟨_, _, _, _, h⟩ <;> rw [h]
  · exact ⟨.inl rfl, by simp [outputs_append, outputs]⟩
  · exact ⟨.inr (State.raise_st _ _), by simp [outputs_append, outputs, Report.events]⟩
  · exact ⟨.inl rfl, by simp [outputs_append, outputs]⟩
  · exact ⟨.inl rfl, by simp [outputs_append, outputs]⟩
  · exact ⟨.inr (State.raise_st _ _), by simp [outputs_append, outputs, Report.events]⟩

/-! ### What every step keeps besides the invariant -/

/-- A relation of `ST`, the trace and `BUF` that actions and answers keep wherever the invariant holds is
kept by every step that is no reset. -/
theorem commandStep_keeps_of_inv {R : SeqState → List Event → List Byte → Prop}
    (haction : ∀ a rest s, InvWith (.act a :: rest) s → R s.st s.tr s.buf →
      (perform a s).All fun s' => R s'.st s'.tr s'.buf)
    (hanswer : ∀ t rest s reply, InvWith (.bus t :: rest) s → R s.st s.tr s.buf →
      R (s.answer t rest reply).st (s.answer t rest reply).tr (s.answer t rest reply).buf)
    {s t : State} (hinv : InvWith s.work s) (hs : R s.st s.tr s.buf) (h : commandStep s = .next t) :
    R t.st t.tr t.buf := by
  have hkept : KeptByActions fun tasks u => InvWith tasks u ∧ R u.st u.tr u.buf :=
    { go := fun a rest u u' hu hp =>
        ⟨invWith_keptByActions.go a rest u u' hu.1 hp,
          by simpa only [hp, Progress.All] using haction a rest u hu.1 hu.2⟩
      wait := fun a rest tasks u u' hu hp =>
        ⟨invWith_keptByActions.wait a rest tasks u u' hu.1 hp,
          by simpa only [hp, Progress.All] using haction a rest u hu.1 hu.2⟩
      stop := fun a rest u u' hu hp =>
        ⟨invWith_keptByActions.stop a rest u u' hu.1 hp,
          by simpa only [hp, Progress.All] using haction a rest u hu.1 hu.2⟩ }
  exact (commandStep_keeps (P := fun tasks u => InvWith tasks u ∧ R u.st u.tr u.buf)
    (fun tasks u work replies inputs hu => ⟨steady_invWith tasks u work replies inputs hu.1, hu.2⟩)
    hkept
    (fun u rest s' reply hu => ⟨answer_keeps u reply hu.1, hanswer u rest s' reply hu.1 hu.2⟩)
    (fun _ _ n hu => ⟨hu.1.draws n, hu.2⟩) (fun i _ hu hst => ⟨hu.1.plan i hst, hu.2⟩)
    ⟨hinv, hs⟩ h).2

theorem InvWith.not_terminal {task : Task} {rest : List Task} {s : State}
    (h : InvWith (task :: rest) s) : s.st.terminal = false := by
  rw [Bool.eq_false_iff]
  intro hst
  cases eq_nil_of_fits_terminal hst h.fit

theorem InvWith.st_of_scanLoop {rest : List Task} {s : State} (h : InvWith (.act .scanLoop :: rest) s) :
    s.st = .scanning := by
  have hfit := h.fit
  simp only [fits, Bool.and_eq_true, beq_iff_eq] at hfit
  exact hfit.1

/-! ### The transitions of `ST` (R169) -/

theorem transition_aborted {st : SeqState} (h : st.terminal = false) : transition st .aborted = true := by
  cases st with
  | finalized => cases h
  | _ => rfl

/-- The actions that enter a sequencer state do so along R169's table, where their tasks fit. -/
theorem transition_entered {a : Action} {rest : List Task} {st st' : SeqState} {k : Held}
    (hfit : fits st k (.act a :: rest) = true) (h : a.entered = some st') : transition st st' = true := by
  cases a <;> cases h <;> simp only [fits, Bool.and_eq_true, beq_iff_eq] at hfit <;> rw [hfit.1] <;> rfl

/-- Settles O20: an action or an answer leaves `ST`, aborts from a state that is not terminal, enters the
state of its action, or ends the scan. -/
theorem stepFollowsTheTransitionTable : Obligations.StepFollowsTheTransitionTable := by
  intro s t hinv hr hstep
  rw [step_of_no_reset hr] at hstep
  refine commandStep_keeps_of_inv
    (R := fun st _ _ => Relation.ReflTransGen (fun a b => transition a b = true) s.st st)
    (fun a rest u hu hreached => ?_) (fun u rest s' reply hu hreached => ?_)
    ((machineInv_iff s).mp hinv) .refl hstep
  · refine (perform_led a u).imp fun u' hled => ?_
    obtain ⟨_, _, _, ⟨hst | hst | hst, _⟩ | ⟨rfl, hst, _⟩⟩ := hled
    · rwa [hst]
    · exact hreached.tail (hst ▸ transition_aborted hu.not_terminal)
    · exact hreached.tail (transition_entered hu.fit hst)
    · rw [hu.st_of_scanLoop] at hreached
      exact hreached.tail (by rw [hst]; rfl)
  · rcases (answer_st_outputs s' u rest reply).1 with hst | hst <;> rw [hst]
    · exact hreached
    · exact hreached.tail (transition_aborted hu.not_terminal)

/-! ### The image flushed (R170, R208) -/

theorem ne_finalized_of_entered {a : Action} {st : SeqState} (h : a.entered = some st) :
    st ≠ .finalized := by
  cases a <;> cases h <;> nofun

theorem ne_finalized_of_not_terminal {st : SeqState} (h : st.terminal = false) : st ≠ .finalized := by
  rintro rfl
  cases h

/-- Settles O21: only the end of the run flushes an image, and it is `BUF`; a reset empties the trace. -/
theorem imageIsFlushedOnlyInFinalized : Obligations.ImageIsFlushedOnlyInFinalized := by
  intro s t hinv hs hstep
  by_cases hr : ResetComes s
  · obtain ⟨cfg, rest, hi⟩ := hr
    rw [step_of_reset hi] at hstep
    cases hstep
    rfl
  rw [step_of_no_reset hr] at hstep
  refine commandStep_keeps_of_inv
    (R := fun st tr buf => outputs tr = if st = .finalized then [buf] else [])
    (fun a rest u hu hflushed => ?_) (fun u rest s' reply hu hflushed => ?_)
    ((machineInv_iff s).mp hinv) hs hstep
  · have hbefore : outputs u.tr = [] := by
      rw [hflushed, if_neg (ne_finalized_of_not_terminal hu.not_terminal)]
    refine (perform_led a u).imp fun u' hled => ?_
    obtain ⟨events, htr, _, ⟨hst, hout⟩ | ⟨rfl, hst, hout⟩⟩ := hled
    · have hne : u'.st ≠ .finalized := by
        rcases hst with hst | hst | hst
        · rw [hst]; exact ne_finalized_of_not_terminal hu.not_terminal
        · rw [hst]; nofun
        · exact ne_finalized_of_entered hst
      rw [htr, outputs_append, hbefore, hout, if_neg hne, List.nil_append]
    · rw [htr, outputs_append, hbefore, hout, if_pos hst, List.nil_append]
  · have hbefore : outputs s'.tr = [] := by
      rw [hflushed, if_neg (ne_finalized_of_not_terminal hu.not_terminal)]
    obtain ⟨hst, hout⟩ := answer_st_outputs s' u rest reply
    have hne : (s'.answer u rest reply).st ≠ .finalized := by
      rcases hst with hst | hst <;> rw [hst]
      · exact ne_finalized_of_not_terminal hu.not_terminal
      · nofun
    rw [hout, hbefore, if_neg hne]

/-! ### Command acceptance (R161) -/

/-- Settles O6: the next input is a command word, so the step is no reset. -/
theorem stepRunsDecodedCommand : Obligations.StepRunsDecodedCommand := by
  intro s cw rest i hwork hinputs hdecode
  have hreset : ¬ ResetComes s := by
    rintro ⟨cfg, rest', hreset⟩
    rw [hinputs] at hreset
    cases hreset
  rw [step_of_no_reset hreset]
  simp only [commandStep, hwork, hinputs, hdecode]

/-- Settles O9: every command is its plan, issued, and `issue` refuses before it looks at the plan. -/
theorem commandsAreAcceptedOnlyInIdle : Obligations.CommandsAreAcceptedOnlyInIdle := by
  intro i s
  rw [exec_eq_issue, issue]
  exact ⟨fun hwork hst => by rw [if_neg (not_not.mpr hwork), if_pos hst], fun hwork => if_pos hwork⟩

/-- A run that ends has done the operation, or it waits and has used every answer (R47). -/
theorem run_done_or_waiting {replies : List Reply} {s t : State}
    (hs : s.work = [] ∨ ∃ u rest, s.work = .bus u :: rest) (h : run replies s = .next t) :
    t.work = [] ∨ Waiting t := by
  induction replies generalizing s with
  | nil =>
    cases h
    exact hs.imp_right fun hwaits => ⟨hwaits, rfl⟩
  | cons reply replies ih =>
    rcases hs with hdone | ⟨u, rest, hwaits⟩
    · rw [run_done _ hdone] at h
      cases h
      exact .inl hdone
    · rw [run_bus reply replies hwaits] at h
      obtain ⟨s', hnext, hrun⟩ := andThen_eq_next h
      exact ih (advance_head hnext) hrun

/-- Settles O11: the actions before the first transaction, then `run_done_or_waiting`. -/
theorem commandRunsToItsEndOrWaits : Obligations.CommandRunsToItsEndOrWaits := by
  intro i s t h
  rw [exec_eq_issue] at h
  obtain ⟨_, _, hdrive⟩ := issue_next h
  obtain ⟨s', hnext, hrun⟩ := drive_next hdrive
  exact run_done_or_waiting (advance_head hnext) hrun

/-! ### The host's inputs while a command is in progress (R52, R161) -/

/-- The host's inputs replaced in the state an action leads to. -/
def Progress.withInputs (inputs : List HostInput) : Progress → Progress
  | .go s => .go { s with inputs := inputs }
  | .wait tasks s => .wait tasks { s with inputs := inputs }
  | .stop s => .stop { s with inputs := inputs }
  | .noValue r => .noValue r

theorem State.raise_withInputs (s : State) (r : Report) (inputs : List HostInput) :
    State.raise { s with inputs := inputs } r = { s.raise r with inputs := inputs } := by
  cases r <;> rfl

/-- No action looks at what the host will do. -/
theorem perform_withInputs (a : Action) (s : State) (inputs : List HostInput) :
    perform a { s with inputs := inputs } = (perform a s).withInputs inputs := by
  cases a with
  | delay _ | beginRead | beginFast | beginValidating | beginScanning => rfl
  | bankSwitch m a =>
    simp only [perform]
    rcases bankSwitch_cases m a with h | ⟨_, _, h⟩ | ⟨cause, h⟩ <;> rw [h] <;> rfl
  | fastLoop =>
    simp only [perform, performFastLoop]
    split_ifs <;> rfl
  | fastJudge =>
    simp only [perform, performFastJudge]
    cases s.d with
    | none => rfl
    | some v => dsimp only; split_ifs <;> rfl
  | storeSample i =>
    simp only [perform, performStoreSample]
    cases s.d <;> rfl
  | runChecks =>
    simp only [perform, performChecks]
    cases sampleBytes s.sample with
    | none => rfl
    | some bytes => dsimp only; cases checks s.cfg.checkAllOnes bytes <;> rfl
  | beginScan =>
    simp only [perform, performBeginScan]
    split_ifs <;> rfl
  | verdict =>
    obtain ⟨_, _, _, _, _, _, _, _, _, _, _, v, vc, _⟩ := s
    rcases v with _ | _ | _
    · rfl
    · rcases vc with _ | _ | _ <;> rfl
    · rfl
  | scanLoop =>
    simp only [perform, performScanLoop]
    split_ifs
    · cases bankSwitch (effectiveMethod s.cfg) (s.x + romOffset) with
      | ok pulse => rfl
      | error r => simp [Progress.withInputs, State.raise_withInputs]
    · rfl
  | storeByte =>
    simp only [perform, performStoreByte]
    cases s.d <;> rfl

/-- The host's inputs replaced in the next state of an outcome. -/
def outcomeWithInputs (inputs : List HostInput) (o : Host.Outcome State Fault Refusal) :
    Host.Outcome State Fault Refusal :=
  andThen o fun t => .next { t with inputs := inputs }

theorem advance_withInputs (tasks : List Task) (s : State) (inputs : List HostInput) :
    advance tasks { s with inputs := inputs } = outcomeWithInputs inputs (advance tasks s) := by
  induction tasks generalizing s with
  | nil => rfl
  | cons task rest ih =>
    cases task with
    | bus t => rfl
    | act a =>
      have hp := perform_withInputs a s inputs
      cases h : perform a s with
      | go s' => rw [h] at hp; rw [advance_go rest hp, advance_go rest h]; exact ih s'
      | wait tasks s' => rw [h] at hp; rw [advance_wait rest hp, advance_wait rest h]; rfl
      | stop s' => rw [h] at hp; rw [advance_stop rest hp, advance_stop rest h]; rfl
      | noValue r => rw [h] at hp; rw [advance_noValue rest hp, advance_noValue rest h]; rfl

theorem answer_withInputs (s : State) (t : Transaction) (rest : List Task) (reply : Reply)
    (inputs : List HostInput) :
    State.answer { s with inputs := inputs } t rest reply =
      { s.answer t rest reply with inputs := inputs } := by
  cases t with
  | direction _ | addrLow _ | addrHigh _ => cases reply <;> rfl
  | read =>
    cases reply with
    | ok v => rfl
    | ioFault landed =>
      simp only [State.answer, Transaction.value?, State.finishRead]
      split_ifs <;> rfl

/-- What a plan begins with: nothing, an action or a transaction. -/
theorem tasks_cases (tasks : List Task) :
    tasks = [] ∨ (∃ a rest, tasks = .act a :: rest) ∨ ∃ t rest, tasks = .bus t :: rest := by
  rcases tasks with _ | ⟨t | a, rest⟩
  · exact .inl rfl
  · exact .inr (.inr ⟨t, rest, rfl⟩)
  · exact .inr (.inl ⟨a, rest, rfl⟩)

theorem run_withInputs (replies : List Reply) (s : State) (inputs : List HostInput) :
    run replies { s with inputs := inputs } = outcomeWithInputs inputs (run replies s) := by
  induction replies generalizing s with
  | nil => rfl
  | cons reply replies ih =>
    rcases tasks_cases s.work with hw | ⟨a, rest, hw⟩ | ⟨t, rest, hw⟩
    · rw [run_done _ hw, run_done (s := { s with inputs := inputs }) _ hw]
      rfl
    · rw [run_act _ hw, run_act (s := { s with inputs := inputs }) _ hw]
      rfl
    · rw [run_bus reply replies hw, run_bus (s := { s with inputs := inputs }) reply replies hw,
        answer_withInputs, advance_withInputs]
      cases advance (s.answer t rest reply).work (s.answer t rest reply) with
      | next s' => exact ih s'
      | fault _ => rfl
      | refused _ => rfl

theorem drive_withInputs (s : State) (inputs : List HostInput) :
    drive { s with inputs := inputs } = outcomeWithInputs inputs (drive s) := by
  rw [drive, advance_withInputs, drive]
  cases advance s.work s with
  | next s' => exact run_withInputs s'.replies s' inputs
  | fault _ => rfl
  | refused _ => rfl

/-- What drives a command on leaves the host's inputs. -/
theorem drive_inputs {s t : State} (h : drive s = .next t) : t.inputs = s.inputs := by
  have hsame : drive s = outcomeWithInputs s.inputs (drive s) := drive_withInputs s s.inputs
  rw [h, outcomeWithInputs, andThen_next] at hsame
  injection hsame with hsame
  rw [hsame]

theorem step_of_work {s : State} (hwork : s.work ≠ []) (hr : ¬ ResetComes s) :
    step s = drive s.withBusAnswer := by
  obtain ⟨task, rest, hw⟩ := List.exists_cons_of_ne_nil hwork
  rw [step_of_no_reset hr]
  simp only [commandStep, hw]

theorem State.withBusAnswer_inputs (s : State) : s.withBusAnswer.inputs = s.inputs := by
  unfold State.withBusAnswer
  split <;> rfl

theorem State.withBusAnswer_withInputs (s : State) (inputs : List HostInput) :
    State.withBusAnswer { s with inputs := inputs } = { s.withBusAnswer with inputs := inputs } := by
  by_cases hr : s.replies = []
  · rw [State.withBusAnswer_of_none hr,
      State.withBusAnswer_of_none (s := { s with inputs := inputs }) hr]
  · obtain ⟨r, rest, hr⟩ := List.exists_cons_of_ne_nil hr
    rw [State.withBusAnswer_of_reply hr,
      State.withBusAnswer_of_reply (s := { s with inputs := inputs }) hr]

/-- Settles O7: with a command in progress and no reset the step drives the command on, which neither looks
at the host's inputs nor takes one. -/
theorem commandsWaitForTheOneInProgress : Obligations.CommandsWaitForTheOneInProgress := by
  intro s t words hwork hr hstep
  rw [step_of_work hwork hr] at hstep
  have hno : ¬ ResetComes { s with inputs := words.map .command } := by
    rintro ⟨cfg, rest, hreset⟩
    cases words <;> cases hreset
  refine ⟨(drive_inputs hstep).trans s.withBusAnswer_inputs, ?_⟩
  rw [step_of_work (s := { s with inputs := words.map .command }) hwork hno,
    State.withBusAnswer_withInputs, drive_withInputs, hstep]
  rfl

/-! ### A command from `Idle` uses no register without a value (R31, R161) -/

/-- The tasks come to RDFAST's loop test without a fresh start of RDFAST before it. -/
def loopPending : List Task → Bool
  | [] => false
  | .act .beginFast :: _ => false
  | .act .fastLoop :: _ => true
  | _ :: rest => loopPending rest

/-- The part of the invariant that a command issued in any state establishes: the tasks fit, and a RDFAST in
progress that has its matches has read a byte. -/
structure Supplied (tasks : List Task) (s : State) : Prop where
  fit : fits s.st (held s) tasks = true
  sampled : loopPending tasks = true → stableCount ≤ s.mc → s.d ≠ none

theorem loopPending_pulse {m : BankSwitchMethod} {a : Nat} {pulse rest : List Task}
    (h : bankSwitch m a = .ok pulse) : loopPending (pulse ++ rest) = loopPending rest := by
  rcases pulse_cases h with rfl | ⟨p, rfl⟩ <;> rfl

theorem loopPending_targetPlan (cfg : Cfg) (x : Nat) :
    loopPending (targetPlan cfg x ++ [.act .scanLoop]) = false := by
  cases h : cfg.stabilize <;> simp only [targetPlan, fetchPlan, h] <;> rfl

theorem loopPending_planOf (i : Instr) : loopPending (planOf i) = false := by
  cases i with
  | chkrom => decide
  | scan => decide
  | _ => rfl

theorem Supplied.stopped {s : State} (h : s.st.terminal = true) : Supplied [] s :=
  ⟨by simp [fits, h], nofun⟩

theorem Supplied.raise (s : State) (r : Report) : Supplied [] (s.raise r) :=
  .stopped (by rw [State.raise_st]; rfl)

section

variable {rest : List Task} {s : State}

theorem performFastLoop_supplied (h : Supplied (.act .fastLoop :: rest) s) :
    (performFastLoop s).LeadsTo Supplied rest := by
  have hfit := h.fit
  simp only [fits, Bool.and_eq_true] at hfit
  obtain ⟨⟨hst, hj⟩, hrest⟩ := hfit
  rcases performFastLoop_cases s with ⟨hle, hp⟩ | ⟨_, _, hp⟩ | ⟨hlt, _, hp⟩ <;> rw [hp]
  · have hd : s.d ≠ none := h.sampled rfl hle
    have hheld : held s = { held s with d := true } := by
      simp [held, Option.isSome_iff_ne_none.mpr hd]
    exact ⟨hheld ▸ hrest, fun _ _ => hd⟩
  · exact .raise _ _
  · refine ⟨?_, fun _ hle => absurd hlt (Nat.not_lt_of_le hle)⟩
    have hst' : ((s.st == .idle || s.st == .validating) || s.st == .scanning) = true := by
      simp only [Bool.or_eq_true] at hst ⊢
      exact hst.imp_left .inl
    simp only [List.cons_append, List.nil_append, fits, Bool.and_eq_true]
    exact ⟨hst', ⟨⟨⟨hst, trivial⟩, by simpa [noJudge] using hj⟩, ⟨hst, hj⟩, hrest⟩⟩

theorem performFastJudge_supplied (h : Supplied (.act .fastJudge :: rest) s) :
    (performFastJudge s).LeadsTo Supplied rest := by
  have hfit := h.fit
  simp only [fits, Bool.and_eq_true] at hfit
  obtain ⟨⟨⟨_, hd⟩, _⟩, hrest⟩ := hfit
  have hread : s.d ≠ none := by simpa [Option.isSome_iff_ne_none] using hd
  rcases performFastJudge_cases s with
    ⟨hn, hp⟩ | ⟨_, _, _, hp⟩ | ⟨_, _, _, hp⟩ | ⟨_, _, _, _, _, hp⟩ <;> rw [hp]
  · exact hread hn
  all_goals exact ⟨hrest, fun _ _ => hread⟩

theorem performStoreSample_supplied {i : Fin 16} (h : Supplied (.act (.storeSample i) :: rest) s) :
    (performStoreSample i s).LeadsTo Supplied rest := by
  have hfit := h.fit
  simp only [fits, Bool.and_eq_true, decide_eq_true_eq] at hfit
  obtain ⟨⟨⟨hd, hi⟩, _⟩, hrest⟩ := hfit
  rcases performStoreSample_cases i s with ⟨hn, hp⟩ | ⟨v, _, hp⟩ <;> rw [hp]
  · simp [hn] at hd
  · have hle : Held.Le { held s with samples := max (held s).samples (i.val + 1) }
        (held { s with sample := s.sample.set i.val (some v) }) :=
      ⟨id, by simpa [Vector.toList_set] using leadingValues_set v (by simp) hi, id⟩
    exact ⟨fits_mono hle (held_samples_le _) hrest, h.sampled⟩

theorem performChecks_supplied (h : Supplied (.act .runChecks :: rest) s) :
    (performChecks s).LeadsTo Supplied rest := by
  have hfit := h.fit
  simp only [fits, Bool.and_eq_true, decide_eq_true_eq] at hfit
  obtain ⟨⟨hs, _⟩, hrest⟩ := hfit
  rcases performChecks_cases s with ⟨hn, hp⟩ | ⟨_, _, _, hp⟩ | ⟨_, cause, _, _, hp⟩ <;> rw [hp]
  · exact sampleBytes_ne_none hs hn
  all_goals exact ⟨hrest, h.sampled⟩

theorem performBeginScan_supplied (h : Supplied (.act .beginScan :: rest) s) :
    (performBeginScan s).LeadsTo Supplied rest := by
  have hfit := h.fit
  simp only [fits, Bool.and_eq_true] at hfit
  rcases performBeginScan_cases s with ⟨_, hp⟩ | ⟨_, hp⟩ <;> rw [hp]
  · exact ⟨hfit.2, h.sampled⟩
  · exact .raise _ _

theorem performVerdict_supplied (h : Supplied (.act .verdict :: rest) s) :
    (performVerdict s).LeadsTo Supplied rest := by
  have hfit := h.fit
  simp only [fits, Bool.and_eq_true] at hfit
  obtain ⟨⟨_, hv⟩, hrest⟩ := hfit
  rcases performVerdict_of_held hv with hp | ⟨cause, hp⟩ <;> rw [hp]
  · exact ⟨hrest, h.sampled⟩
  · exact .raise _ _

theorem performScanLoop_supplied (h : Supplied (.act .scanLoop :: rest) s) :
    (performScanLoop s).LeadsTo Supplied rest := by
  have hfit := h.fit
  simp only [fits, Bool.and_eq_true, beq_iff_eq, List.isEmpty_iff] at hfit
  obtain ⟨hst, rfl⟩ := hfit
  rcases performScanLoop_cases s with ⟨_, hp⟩ | ⟨pulse, _, hb, hp⟩ | ⟨r, _, _, hp⟩ <;> rw [hp]
  · exact .stopped rfl
  · rw [Progress.LeadsTo, List.append_nil, List.append_assoc]
    exact ⟨hst ▸ fits_pulse (.inr rfl) hb (fits_targetPlan _ _ _),
      by rw [loopPending_pulse hb, loopPending_targetPlan]; nofun⟩
  · exact .raise _ _

theorem performStoreByte_supplied (h : Supplied (.act .storeByte :: rest) s) :
    (performStoreByte s).LeadsTo Supplied rest := by
  have hfit := h.fit
  simp only [fits, Bool.and_eq_true, beq_iff_eq] at hfit
  obtain ⟨⟨hd, hst⟩, rfl⟩ := hfit
  rcases performStoreByte_cases s with ⟨hn, hp⟩ | ⟨v, _, hp⟩ <;> rw [hp]
  · simp [hn] at hd
  · exact ⟨by simp [fits, hst], nofun⟩

theorem perform_supplied (a : Action) (h : Supplied (.act a :: rest) s) :
    (perform a s).LeadsTo Supplied rest := by
  have hfit := h.fit
  cases a with
  | delay _ | beginRead | beginValidating =>
    simp only [fits, Bool.and_eq_true] at hfit
    exact ⟨hfit.2, h.sampled⟩
  | bankSwitch m a =>
    simp only [fits, Bool.and_eq_true, beq_iff_eq] at hfit
    obtain ⟨hst, hrest⟩ := hfit
    simp only [perform]
    cases hb : bankSwitch m a with
    | error r => exact .raise _ _
    | ok pulse =>
      have hwait : Supplied (pulse ++ rest) s :=
        ⟨fits_pulse (.inl hst) hb hrest, by rw [loopPending_pulse hb]; exact h.sampled⟩
      cases pulse with
      | nil => exact hwait
      | cons task pulse => exact hwait
  | beginFast =>
    simp only [fits, Bool.and_eq_true] at hfit
    exact ⟨hfit.2, fun _ hle => absurd hle (Nat.not_succ_le_zero 9)⟩
  | fastLoop => exact performFastLoop_supplied h
  | fastJudge => exact performFastJudge_supplied h
  | storeSample i => exact performStoreSample_supplied h
  | runChecks => exact performChecks_supplied h
  | beginScan => exact performBeginScan_supplied h
  | verdict => exact performVerdict_supplied h
  | beginScanning =>
    simp only [fits, Bool.and_eq_true, beq_iff_eq] at hfit
    obtain ⟨_, rfl⟩ := hfit
    exact ⟨rfl, nofun⟩
  | scanLoop => exact performScanLoop_supplied h
  | storeByte => exact performStoreByte_supplied h

theorem answer_supplied (t : Transaction) (reply : Reply) (h : Supplied (.bus t :: rest) s) :
    Supplied (s.answer t rest reply).work (s.answer t rest reply) := by
  rcases answer_cases s t rest reply with ⟨_, _, ht, _, hp⟩ | ⟨_, _, _, _, hp⟩ |
    ⟨v, rfl, _, hp⟩ | ⟨_, rfl, _, _, hp⟩ | ⟨_, rfl, _, _, hp⟩ <;> rw [hp]
  · exact ⟨fits_of_write ht h.fit, h.sampled⟩
  · rw [State.raise_work]
    exact .raise _ _
  · have hfit := h.fit
    simp only [fits, Bool.and_eq_true] at hfit
    exact ⟨hfit.2, fun _ _ => nofun⟩
  · exact ⟨h.fit, h.sampled⟩
  · rw [State.raise_work]
    exact .raise _ _

end

theorem supplied_keptByActions : KeptByActions Supplied where
  go a _ _ _ h hp := by simpa only [hp, Progress.LeadsTo] using perform_supplied a h
  wait a _ _ _ _ h hp := by simpa only [hp, Progress.LeadsTo] using perform_supplied a h
  stop a _ _ _ h hp := by simpa only [hp, Progress.LeadsTo] using perform_supplied a h

theorem perform_ne_noValue_of_supplied (a : Action) (rest : List Task) (s : State)
    (r : ValuelessRegister) (h : Supplied (.act a :: rest) s) : perform a s ≠ .noValue r := by
  intro hp
  simpa only [hp, Progress.LeadsTo] using perform_supplied a h

theorem supplied_planOf (i : Instr) {s : State} (hst : s.st = .idle) : Supplied (planOf i) s :=
  ⟨hst ▸ fits_planOf i s, by rw [loopPending_planOf]; nofun⟩

theorem drive_ne_refused (s : State) (r : Refusal) : drive s ≠ .refused r := by
  unfold drive
  cases h : advance s.work s with
  | next s' => exact run_ne_refused s'.replies s' r
  | fault _ => nofun
  | refused _ => exact absurd h (advance_ne_refused _ _ _)

/-- Settles O10: a running operation is never refused, and the plan of a command is `Supplied` in `Idle`,
whatever the registers hold, so it does not fault either. -/
theorem everyAcceptedCommandAnswersNext : Obligations.EveryAcceptedCommandAnswersNext := by
  intro i s hs
  rw [exec_eq_issue, issue_accepted _ hs.1 hs.2]
  cases h : drive { s with work := planOf i } with
  | next t => exact ⟨t, rfl⟩
  | refused r => exact absurd h (drive_ne_refused _ r)
  | fault f =>
    have hsupplied : Supplied (planOf i) { s with work := planOf i } := supplied_planOf i hs.2
    exact absurd h (drive_ne_fault (fun _ _ _ _ _ hp => { hp with }) supplied_keptByActions
      (fun t _ _ reply hp => answer_supplied t reply hp) perform_ne_noValue_of_supplied hsupplied f)

/-! ### Straight plans: writes and delays (R47, R100, R160) -/

/-- The state after these events, none of which is a read or a faulted write. -/
def State.after (s : State) (events : List Event) : State :=
  { s with tr := s.tr ++ events, env := s.env.afterWrites s.cfg events }

theorem State.after_nil (s : State) : s.after [] = s := by
  simp [State.after, Env.afterWrites]

theorem State.after_append (s : State) (before after : List Event) :
    s.after (before ++ after) = (s.after before).after after := by
  simp [State.after, afterWrites_append]

theorem State.after_cons (s : State) (e : Event) (events : List Event) :
    s.after (e :: events) = (s.after [e]).after events := s.after_append [e] events

/-- The plan consists of writes and delays, and these are its events when every write succeeds. -/
inductive Records (cfg : Cfg) : List Task → List Event → Prop
  | nil : Records cfg [] []
  | write {t : Transaction} {val : Byte} {plan : List Task} {events : List Event}
      (hval : t.value? = some val) (h : Records cfg plan events) :
      Records cfg (.bus t :: plan) (.wr (t.chip cfg) (t.reg cfg) val .ok :: events)
  | delay (k : DelayKind) {plan : List Task} {events : List Event} (h : Records cfg plan events) :
      Records cfg (.act (.delay k) :: plan) (.delay k :: events)

theorem Records.append {cfg : Cfg} {plan plan' : List Task} {events events' : List Event}
    (h : Records cfg plan events) (h' : Records cfg plan' events') :
    Records cfg (plan ++ plan') (events ++ events') := by
  induction h with
  | nil => exact h'
  | write hval _ ih => exact .write hval ih
  | delay k _ ih => exact .delay k ih

theorem records_configPlan (cfg : Cfg) : Records cfg configPlan (configTrace cfg) :=
  .write (t := .direction .writeLow) rfl (.write (t := .direction .writeHigh) rfl
    (.write (t := .direction .read) rfl .nil))

theorem records_settle (cfg : Cfg) (p : Half) :
    Records cfg (setAddressPlan p ++ settlePlan) (setAddressTrace cfg p ++ [.delay .addr]) :=
  .write (t := .addrLow p) rfl (.write (t := .addrHigh p) rfl (.delay .addr .nil))

theorem proceed_write_ok {t : Transaction} {val : Byte} (hval : t.value? = some val)
    (rest : List Task) (u : Byte) (more : List Reply) (s : State) :
    proceed (.bus t :: rest) (.ok u :: more) s =
      proceed rest more (s.after [.wr (t.chip s.cfg) (t.reg s.cfg) val .ok]) := by
  cases t with
  | read => cases hval
  | _ =>
    cases hval
    exact (proceed_bus ..).trans (proceed_work rest more (s.after _) rest)

/-- A faulted write is fatal at once, whatever was to follow it (R202). -/
theorem proceed_write_fault {t : Transaction} {val : Byte} (hval : t.value? = some val)
    (rest : List Task) (landed : Bool) (more : List Reply) (s : State) :
    proceed (.bus t :: rest) (.ioFault landed :: more) s =
      .next { s.abortedBy (.fatalTransport .write)
          [.wr (t.chip s.cfg) (t.reg s.cfg) val .ioFault] with
        env := s.env.answered s.cfg (location (t.chip s.cfg) (t.reg s.cfg)) val (.ioFault landed)
        replies := more } := by
  have hanswer : s.answer t rest (.ioFault landed) =
      { s.abortedBy (.fatalTransport .write)
          [.wr (t.chip s.cfg) (t.reg s.cfg) val .ioFault] with
        env := s.env.answered s.cfg (location (t.chip s.cfg) (t.reg s.cfg)) val
          (.ioFault landed) } := by
    rw [State.abortedBy, List.append_cons _ (Event.report _)]
    cases t with
    | read => cases hval
    | _ => cases hval; rfl
  rw [proceed_bus, hanswer]
  exact proceed_nil more _

/-- A straight plan whose writes succeed. -/
theorem proceed_records {s : State} {plan : List Task} {events : List Event} {replies : List Reply}
    (h : Records s.cfg plan events) (hanswers : answers events replies = true) (rest : List Task)
    (more : List Reply) :
    proceed (plan ++ rest) (replies ++ more) s = proceed rest more (s.after events) := by
  induction plan generalizing s events replies with
  | nil =>
    cases h
    obtain rfl : replies = [] := List.isEmpty_iff.mp hanswers
    rw [State.after_nil]
    rfl
  | cons task plan ih =>
    cases h with
    | @write t val _ events hval h =>
      obtain ⟨reply, replies, rfl, hres, hanswers⟩ := (answers_wr_iff _ _ _ _ _ _).mp hanswers
      cases reply with
      | ioFault _ => cases hres
      | ok u =>
        rw [List.cons_append, List.cons_append, proceed_write_ok hval,
          ih (s := s.after _) h hanswers, ← State.after_cons]
    | @delay k _ events h =>
      rw [List.cons_append, proceed_go _ _ rfl, ih (s := s.delay k) h hanswers, State.after_cons]
      rfl

/-- The state after a straight plan was aborted by a write that faulted, `before` standing before it. -/
def State.writeAborted (s : State) (before : List Event) (chip reg val : Byte) (landed : Bool) : State :=
  { s.abortedBy (.fatalTransport .write) (before ++ [.wr chip reg val .ioFault]) with
    env := (s.env.afterWrites s.cfg before).answered s.cfg (location chip reg) val (.ioFault landed) }

theorem writeAborted_after (s : State) (events before : List Event) (chip reg val : Byte)
    (landed : Bool) :
    (s.after events).writeAborted before chip reg val landed =
      s.writeAborted (events ++ before) chip reg val landed := by
  simp [State.writeAborted, State.after, State.abortedBy, afterWrites_append]

/-- A straight plan one of whose writes faults (R202). -/
theorem proceed_records_fault {s : State} {plan : List Task} {events before after : List Event}
    {chip reg val : Byte} {replies : List Reply} (h : Records s.cfg plan events)
    (hcut : events = before ++ .wr chip reg val .ok :: after)
    (hanswers : answers before replies = true) (rest : List Task) (landed : Bool)
    (more : List Reply) :
    proceed (plan ++ rest) (replies ++ .ioFault landed :: more) s =
      .next { s.writeAborted before chip reg val landed with replies := more } := by
  induction plan generalizing s events before replies with
  | nil =>
    cases h
    simp at hcut
  | cons task plan ih =>
    cases h with
    | @write t w _ events hval h =>
      cases before with
      | nil =>
        obtain rfl : replies = [] := List.isEmpty_iff.mp hanswers
        rw [List.nil_append] at hcut
        cases hcut
        exact proceed_write_fault hval _ landed more s
      | cons e before =>
        rw [List.cons_append] at hcut
        cases hcut
        obtain ⟨reply, replies, rfl, hres, hanswers⟩ := (answers_wr_iff _ _ _ _ _ _).mp hanswers
        cases reply with
        | ioFault _ => cases hres
        | ok u =>
          rw [List.cons_append, List.cons_append, proceed_write_ok hval,
            ih (s := s.after _) h rfl hanswers, writeAborted_after, List.singleton_append]
    | @delay k _ events h =>
      cases before with
      | nil =>
        rw [List.nil_append] at hcut
        cases hcut
      | cons e before =>
        rw [List.cons_append] at hcut
        cases hcut
        have hdelay : s.delay k = s.after [.delay k] := rfl
        rw [List.cons_append, proceed_go _ _ rfl, hdelay, ih (s := s.after _) h rfl hanswers,
          writeAborted_after, List.singleton_append]

/-! ### CONFIG (R160) -/

theorem exec_config {s : State} {replies : List Reply} (hs : Accepting s)
    (hreplies : s.replies = replies) :
    exec .config s = proceed (configPlan ++ []) replies s := by
  rw [exec_eq_proceed .config hs, hreplies]
  rfl

/-- The environment after CONFIG (R160). -/
def Env.configured (cfg : Cfg) (e : Env) : Env :=
  ((e.write cfg (iodirReg cfg.portWL) 0x00#8).write cfg (iodirReg cfg.portWH) 0x00#8).write cfg
    (iodirReg cfg.portRD) 0xFF#8

theorem afterWrites_configTrace (cfg : Cfg) (e : Env) :
    e.afterWrites cfg (configTrace cfg) = e.configured cfg := rfl

theorem exec_config_of_oks {s : State} {a b c : Byte} {more : List Reply} (hs : Accepting s)
    (hreplies : s.replies = .ok a :: .ok b :: .ok c :: more) :
    exec .config s = .next { s with
      tr := s.tr ++ configTrace s.cfg, env := s.env.configured s.cfg, replies := more } := by
  have hanswers : answers (configTrace s.cfg) [.ok a, .ok b, .ok c] = true := rfl
  exact (exec_config hs hreplies).trans <|
    (proceed_records (records_configPlan s.cfg) hanswers [] more).trans <|
      proceed_nil_of_done (s := s.after (configTrace s.cfg)) hs.1 more

theorem Memory.read_write (m : Memory) (loc loc' : Nat) (v : Byte) :
    Memory.read (Memory.write m loc v) loc' = if loc' = loc then some v else Memory.read m loc' := by
  split
  · next h => rw [h, Memory.read_write_same]
  · next h => exact Memory.read_write_other m v h

theorem Memory.read_eq_none {m : Memory} {loc : Nat} (h : ∀ c ∈ m, loc < c.1) :
    Memory.read m loc = none := by
  cases hread : Memory.read m loc with
  | none => rfl
  | some v => exact absurd (h _ (Memory.mem_of_read hread)) (Nat.lt_irrefl loc)

/-- Register spaces in canonical form with the same known contents are the same list. -/
theorem Memory.eq_of_read_eq {m m' : Memory} (hm : Memory.wf m = true) (hm' : Memory.wf m' = true)
    (h : ∀ loc, Memory.read m loc = Memory.read m' loc) : m = m' := by
  induction m generalizing m' with
  | nil =>
    cases m' with
    | nil => rfl
    | cons c rest => simpa [Memory.read] using h c.1
  | cons c rest ih =>
    obtain ⟨a, b⟩ := c
    cases m' with
    | nil => simpa [Memory.read] using h a
    | cons c' rest' =>
      obtain ⟨a', b'⟩ := c'
      obtain ⟨_, hlt, hrest⟩ := (Memory.wf_cons_iff a b rest).mp hm
      obtain ⟨_, hlt', hrest'⟩ := (Memory.wf_cons_iff a' b' rest').mp hm'
      have hfirst : a = a' := by
        have ha := Memory.mem_of_read ((h a).symm.trans (if_pos rfl))
        have ha' := Memory.mem_of_read ((h a').trans (if_pos rfl))
        rcases List.mem_cons.mp ha with heq | hmem
        · exact congrArg Prod.fst heq
        rcases List.mem_cons.mp ha' with heq | hmem'
        · exact (congrArg Prod.fst heq).symm
        · exact absurd (hlt _ hmem') (Nat.lt_asymm (hlt' _ hmem))
      subst hfirst
      have hbyte : b = b' := by simpa [Memory.read] using h a
      subst hbyte
      rw [ih hrest hrest' fun loc => ?_]
      by_cases hloc : a = loc
      · rw [← hloc, Memory.read_eq_none hlt, Memory.read_eq_none hlt']
      · simpa [Memory.read, hloc] using h loc

theorem wf_configured (cfg : Cfg) {e : Env} (h : Memory.wf e.regs = true) :
    Memory.wf (e.configured cfg).regs = true :=
  Env.wf_write _ (location_lt _ _) (Env.wf_write _ (location_lt _ _) (Env.wf_write _ (location_lt _ _) h))

/-- What the registers hold after CONFIG; where ports share a direction register the last write stands. -/
theorem read_configured (cfg : Cfg) (e : Env) (loc : Nat) :
    Memory.read (e.configured cfg).regs loc =
      if loc = iodirReg cfg.portRD then some 0xFF#8
      else if loc = iodirReg cfg.portWH then some 0x00#8
      else if loc = iodirReg cfg.portWL then some 0x00#8
      else Memory.read e.regs loc := by
  simp only [Env.configured, Env.write_regs, Memory.read_write]

/-- A second CONFIG writes what the registers hold, or overwrites it again. -/
theorem configured_configured_regs (cfg : Cfg) {e : Env} (h : Memory.wf e.regs = true) :
    ((e.configured cfg).configured cfg).regs = (e.configured cfg).regs := by
  refine Memory.eq_of_read_eq (wf_configured cfg (wf_configured cfg h)) (wf_configured cfg h)
    fun loc => ?_
  rw [read_configured cfg (e.configured cfg), read_configured]
  split_ifs <;> rfl

/-- Writing the byte a register holds changes nothing while the lines are known (R160 (d)). -/
theorem Env.write_of_held {cfg : Cfg} {e : Env} {loc : Nat} {v : Byte} {address : Lines}
    (hwf : Memory.wf e.regs = true) (hheld : Memory.read e.regs loc = some v)
    (hlines : addressLines cfg e.regs = some address) : e.write cfg loc v = e := by
  have hsame := Memory.write_of_read hwf hheld
  rw [Env.write_of_same_lines hlines (by rwa [hsame]), hsame]

/-- Known lines show that both write ports are outputs (R28). -/
theorem outputs_of_addressLines {cfg : Cfg} {regs : Memory} {address : Lines}
    (h : addressLines cfg regs = some address) :
    Memory.read regs (iodirReg cfg.portWL) = some 0x00#8 ∧
      Memory.read regs (iodirReg cfg.portWH) = some 0x00#8 := by
  unfold addressLines at h
  split at h
  · next hdirections => exact hdirections
  · cases h

/-- A second CONFIG leaves the latch: with unknown lines it is unspecified after both, and with known ones no
write of the second changes anything. -/
theorem configured_configured_latch (cfg : Cfg) {e : Env} (h : Memory.wf e.regs = true) :
    ((e.configured cfg).configured cfg).latch = (e.configured cfg).latch := by
  have hregs := configured_configured_regs cfg h
  have hwf := wf_configured cfg h
  cases hlines : addressLines cfg (e.configured cfg).regs with
  | none =>
    exact (Env.write_latch_of_no_lines (hregs ▸ hlines :
      addressLines cfg ((e.configured cfg).configured cfg).regs = none)).trans
        (Env.write_latch_of_no_lines hlines).symm
  | some address =>
    obtain ⟨hlow, hhigh⟩ := outputs_of_addressLines hlines
    have hread : Memory.read (e.configured cfg).regs (iodirReg cfg.portRD) = some 0xFF#8 := by
      rw [read_configured, if_pos rfl]
    rw [Env.configured, Env.write_of_held hwf hlow hlines, Env.write_of_held hwf hhigh hlines,
      Env.write_of_held hwf hread hlines]

/-- Settles O24: the three writes succeed, and those of a second CONFIG leave the registers and the latch. -/
theorem configProgramsThreeDirections : Obligations.ConfigProgramsThreeDirections := by
  intro s a b c more hs hreplies
  have hfirst := exec_config_of_oks hs hreplies
  refine ⟨hfirst, fun d e f rest hmore hwf =>
    ⟨_, _, hfirst, exec_config_of_oks hs hmore, hs.1, hs.2, ?_, ?_⟩⟩
  · exact configured_configured_regs s.cfg hwf
  · exact configured_configured_latch s.cfg hwf

/-- CONFIG aborts at the write that faults. -/
theorem exec_config_of_fault {s : State} {before after : List Event} {chip reg val : Byte}
    {landed : Bool} {replies more : List Reply} (hs : Accepting s)
    (hcut : configTrace s.cfg = before ++ .wr chip reg val .ok :: after)
    (hanswers : answers before replies = true) (hreplies : s.replies = replies ++ .ioFault landed :: more) :
    exec .config s = .next { s.writeAborted before chip reg val landed with replies := more } :=
  (exec_config hs hreplies).trans
    (proceed_records_fault (records_configPlan s.cfg) hcut hanswers [] landed more)

/-- Settles O25: the three places at which the trace of CONFIG can be cut. -/
theorem faultedDirectionWriteAborts : Obligations.FaultedDirectionWriteAborts := by
  intro s landed a b more hs wl wh rd failed
  refine ⟨fun hreplies => ?_, fun hreplies => ?_, fun hreplies => ?_⟩
  · rw [exec_config_of_fault (before := []) (replies := []) hs rfl rfl hreplies]
    simp [State.writeAborted, State.abortedBy, Env.afterWrites, Report.faultCause, iodirReg, wl,
      failed, hs.1]
  · rw [exec_config_of_fault (replies := [.ok a]) hs (before := [_]) rfl rfl hreplies]
    simp [State.writeAborted, State.abortedBy, Env.afterWrites, Report.faultCause, iodirReg, wl, wh,
      failed, hs.1]
  · rw [exec_config_of_fault (replies := [.ok a, .ok b]) hs (before := [_, _]) rfl rfl hreplies]
    simp [State.writeAborted, State.abortedBy, Env.afterWrites, Report.faultCause, iodirReg, wl, wh, rd,
      failed, hs.1]

/-! ### SCAN before its loop (R163, R164) -/

/-- Settles O54: the first action of SCAN finds the size inconsistent and raises the fault. -/
theorem inconsistentScanFaultsBeforeTheBus : Obligations.InconsistentScanFaultsBeforeTheBus := by
  intro s hs hmethod hbanks
  have hinconsistent : consistent s.cfg.romSize (effectiveMethod s.cfg) = false := by
    simp [consistent, hmethod, hbanks]
  have hstop : perform .beginScan s =
      .stop (State.raise { s with st := .configuring } (.configuration .size)) := by
    simp [perform, performBeginScan, hinconsistent]
  rw [exec_eq_proceed .scan hs]
  refine (proceed_stop _ _ hstop).trans ?_
  simp [State.raise, State.emit, Report.faultCause, hs.1]

/-- What SCAN does after its CONFIG. -/
def validatePlan : List Task := checkRomPlan ++ [.act .verdict, .act .beginScanning, .act .scanLoop]

theorem scanPlan_eq :
    scanPlan = .act .beginScan :: (configPlan ++ .act .beginValidating :: validatePlan) := by
  simp [scanPlan, validatePlan]

theorem exec_scan {s : State} {replies : List Reply} (hs : Accepting s) (hreplies : s.replies = replies) :
    exec .scan s = proceed scanPlan replies s := by
  rw [exec_eq_proceed .scan hs, hreplies]
  rfl

/-- A consistent SCAN performs CONFIG in `Configuring` (R163). -/
theorem proceed_scanPlan {s : State} (hconsistent : consistent s.cfg.romSize (effectiveMethod s.cfg) = true)
    (replies : List Reply) :
    proceed scanPlan replies s =
      proceed (configPlan ++ .act .beginValidating :: validatePlan) replies
        { s with st := .configuring } := by
  have hbegin : perform .beginScan s = .go { s with st := .configuring } := by
    simp [perform, performBeginScan, hconsistent]
  rw [scanPlan_eq, proceed_go _ _ hbegin]

/-- The state in which SCAN comes to CHKROM (R164). -/
def State.validating (s : State) : State := { s.after (configTrace s.cfg) with st := .validating }

theorem proceed_scanPlan_config {s : State} {replies : List Reply}
    (hconsistent : consistent s.cfg.romSize (effectiveMethod s.cfg) = true)
    (hanswers : answers (configTrace s.cfg) replies = true) (more : List Reply) :
    proceed scanPlan (replies ++ more) s = proceed validatePlan more s.validating := by
  rw [proceed_scanPlan hconsistent,
    proceed_records (s := { s with st := .configuring }) (records_configPlan s.cfg) hanswers]
  exact proceed_go _ _ rfl

/-- A run that left `done` in the trace up to `u` and was aborted there. -/
theorem EndsAborted.of_abortedBy {s u t : State} {done events : List Event} {r : Report}
    (htr : u.tr = s.tr ++ done)
    (ht : t = { u.abortedBy r events with env := t.env, rc := t.rc, replies := t.replies }) :
    EndsAborted s t r (done ++ events) u.x u.buf := by
  rw [ht]
  exact ⟨rfl, rfl, rfl, rfl, rfl, rfl, by simp [State.abortedBy, htr]⟩

/-- A sample that fails the checks aborts SCAN after its last probe (R164, R205). -/
theorem proceed_verdict_of_cause (s : State) (cause : ValidationCause) (rest : List Task)
    (more : List Reply) :
    proceed (.act .verdict :: rest) more (s.checked (some cause)) =
      .next { (s.checked (some cause)).raise (.validation cause) with work := [], replies := more } :=
  proceed_stop rest more rfl

/-- Where a list in two parts is cut at an element: in the first part, or in the second. -/
theorem cut_append {l₁ l₂ before after : List Event} {e : Event}
    (h : l₁ ++ l₂ = before ++ e :: after) :
    (∃ later, l₁ = before ++ e :: later) ∨
      ∃ before', l₁ ++ before' = before ∧ l₂ = before' ++ e :: after := by
  rcases List.append_eq_append_iff.mp h with ⟨before', hbefore, hl₂⟩ | ⟨later, hl₁, hcut⟩
  · exact .inr ⟨before', hbefore.symm, hl₂⟩
  · cases later with
    | nil => exact .inr ⟨[], by simpa using hl₁, hcut.symm⟩
    | cons e' later =>
      rw [List.cons_append] at hcut
      cases hcut
      exact .inl ⟨later, hl₁⟩

theorem write_notMem_sampleTrace (cfg : Cfg) (r : Sample) (chip reg val : Byte) (res : WriteResult) :
    Event.wr chip reg val res ∉ sampleTrace cfg r := by
  simp [sampleTrace, retryTrace, readTrace]

/-- A write in the trace of probes is one of the SETADDR of a probe. -/
theorem cut_probesTrace {cfg : Cfg} {i : Nat} {probes : List Sample} {before after : List Event}
    {chip reg val : Byte}
    (h : probesTrace cfg i probes = before ++ .wr chip reg val .ok :: after) :
    ∃ done r later before' after', probes = done ++ r :: later ∧
      before = probesTrace cfg i done ++ before' ∧
      setAddressTrace cfg (probeAddress (i + done.length)) ++ [.delay .addr] =
        before' ++ .wr chip reg val .ok :: after' := by
  induction probes generalizing i before with
  | nil => simp [probesTrace] at h
  | cons r probes ih =>
    rw [probesTrace, List.append_assoc] at h
    rcases cut_append h with ⟨after', hcut⟩ | ⟨before', rfl, hread⟩
    · exact ⟨[], r, probes, before, after', rfl, rfl, hcut⟩
    rcases cut_append hread with ⟨later, hcut⟩ | ⟨before'', rfl, hprobes⟩
    · exact absurd (hcut ▸ List.mem_append_right _ List.mem_cons_self)
        (write_notMem_sampleTrace cfg r chip reg val .ok)
    obtain ⟨done, r', later, before', after', rfl, rfl, hcut⟩ := ih hprobes
    refine ⟨r :: done, r', later, before', after', rfl, ?_, ?_⟩
    · simp [probesTrace]
    · rw [← hcut, List.length_cons, Nat.add_assoc, Nat.add_comm 1]

/-- What a probe does after its settled address. -/
theorem probePlan_append_settled (i : Fin 16) (rest : List Task) :
    probePlan i ++ rest = (setAddressPlan (probeAddress i) ++ settlePlan) ++
      (readBytePlan ++ .act (.storeSample i) :: rest) := by
  simp [probePlan, probeAddress]

theorem recovers_append {cfg : Cfg} {samples samples' : List Sample} :
    recovers cfg (samples ++ samples') = true ↔
      recovers cfg samples = true ∧ recovers cfg samples' = true := by
  simp only [recovers, List.all_append, Bool.and_eq_true]

/-- The state after CONFIG and the first probes of SCAN. -/
theorem probed_validating_tr (s : State) (probes : List Sample) :
    (s.validating.probed probes).tr = s.tr ++ (configTrace s.cfg ++ probesTrace s.cfg 0 probes) :=
  List.append_assoc ..

/-- SCAN is aborted by a write of CONFIG or of a probe that faults (R202). -/
theorem proceed_scanPlan_of_write_fault {s : State} {probes : List Sample}
    {before after : List Event} {chip reg val : Byte} {landed : Bool} {replies : List Reply}
    (hconsistent : consistent s.cfg.romSize (effectiveMethod s.cfg) = true)
    (hrecovers : recovers s.cfg probes = true) (hlength : probes.length = 16)
    (hcut : configTrace s.cfg ++ probesTrace s.cfg 0 probes = before ++ .wr chip reg val .ok :: after)
    (hanswers : answers before replies = true) (more : List Reply) :
    ∃ t, proceed scanPlan (replies ++ .ioFault landed :: more) s = .next t ∧ t.v = s.v ∧ t.vc = s.vc ∧
      EndsAborted s t (.fatalTransport .write) (before ++ [.wr chip reg val .ioFault]) s.x s.buf ∧
      t.replies = more := by
  rcases cut_append hcut with ⟨later, hconfig⟩ | ⟨before', rfl, hprobes⟩
  · rw [proceed_scanPlan hconsistent, proceed_records_fault (s := { s with st := .configuring })
      (records_configPlan s.cfg) hconfig hanswers]
    exact ⟨_, rfl, rfl, rfl,
      .of_abortedBy (u := { s with st := .configuring }) (done := []) (List.append_nil _).symm rfl, rfl⟩
  · obtain ⟨done, r, later, before'', after', rfl, rfl, hprobe⟩ := cut_probesTrace hprobes
    obtain ⟨used, _, rfl, hused, hrest⟩ := (answers_append_iff _ _ _).mp hanswers
    obtain ⟨used', replies, rfl, hused', hreplies⟩ := (answers_append_iff _ _ _).mp hrest
    have hlt : done.length < 16 := by
      rw [← hlength, List.length_append, List.length_cons]
      omega
    obtain ⟨rest, hnext⟩ := proceed_checkRom_of_lt (s := s.validating) hlt
      (recovers_append.mp hrecovers).1 hused' [.act .verdict, .act .beginScanning, .act .scanLoop]
      (replies ++ .ioFault landed :: more)
    rw [Nat.zero_add] at hprobe
    rw [List.append_assoc, proceed_scanPlan_config hconsistent hused, validatePlan, List.append_assoc,
      hnext, probePlan_append_settled, proceed_records_fault (s := s.validating.probed done)
        (records_settle s.cfg (probeAddress done.length)) hprobe hreplies]
    refine ⟨_, rfl, rfl, rfl, ?_, rfl⟩
    rw [← List.append_assoc, List.append_assoc]
    exact .of_abortedBy (u := s.validating.probed done) (probed_validating_tr s done) rfl

/-- SCAN is aborted by a read of a probe whose attempts all fault (R201). -/
theorem proceed_scanPlan_of_read_fault {s : State} {probes : List Sample} {replies : List Reply}
    (hconsistent : consistent s.cfg.romSize (effectiveMethod s.cfg) = true)
    (hrecovers : recovers s.cfg probes = true) (hlength : probes.length < 16)
    (hanswers : answers (configTrace s.cfg ++ probesTrace s.cfg 0 probes ++
      (setAddressTrace s.cfg (probeAddress probes.length) ++ [.delay .addr] ++ failedTrace s.cfg))
      replies = true) (more : List Reply) :
    proceed scanPlan (replies ++ more) s = .next
      { (((s.validating.probed probes).addressed (probeAddress probes.length)).delay .addr).readFailed
        with replies := more } := by
  rw [List.append_assoc] at hanswers
  obtain ⟨used, _, rfl, hused, hrest⟩ := (answers_append_iff _ _ _).mp hanswers
  obtain ⟨used', _, rfl, hused', hfailed⟩ := (answers_append_iff _ _ _).mp hrest
  rw [List.append_assoc] at hfailed
  obtain ⟨u, v, _, rfl, hfailed⟩ := exists_oks_of_answers_setAddressTrace hfailed
  obtain ⟨faults, hfaults, rfl⟩ := exists_faults_of_answers_failedTrace hfailed
  obtain ⟨rest, hnext⟩ := proceed_checkRom_of_lt (s := s.validating) hlength hrecovers hused'
    [.act .verdict, .act .beginScanning, .act .scanLoop]
    (.ok u :: .ok v :: (faults.map .ioFault ++ more))
  have hassoc : used ++ (used' ++ Reply.ok u :: .ok v :: faults.map .ioFault) ++ more =
      used ++ (used' ++ .ok u :: .ok v :: (faults.map .ioFault ++ more)) := by simp
  rw [hassoc, proceed_scanPlan_config hconsistent hused, validatePlan, hnext, proceed_probe_read]
  exact proceed_failed_sample _ faults _ more hfaults

/-- Settles O55: CHKROM fails, a write of CONFIG or of a probe faults, or the read of a probe does. -/
theorem scanAbortsBeforeItsLoop : Obligations.ScanAbortsBeforeItsLoop := by
  intro s probes replies more hs hconsistent hrecovers
  refine ⟨fun cause hlength hcause hanswers hreplies => ?_,
    fun before after chip reg val landed hlength hcut hanswers hreplies => ?_,
    fun hlength => ?_⟩
  · obtain ⟨used, used', rfl, hused, hused'⟩ := (answers_append_iff _ _ _).mp hanswers
    have hchecks := proceed_checkRom (s := s.validating) hlength hrecovers hused'
      [.act .verdict, .act .beginScanning, .act .scanLoop] more
    rw [show s.validating.cfg = s.cfg from rfl, hcause] at hchecks
    rw [exec_scan hs hreplies, List.append_assoc, proceed_scanPlan_config hconsistent hused,
      validatePlan, hchecks, proceed_verdict_of_cause]
    refine ⟨_, rfl, rfl, rfl, ⟨rfl, rfl, rfl, rfl, rfl, rfl, ?_⟩, rfl⟩
    simp [State.checked, State.probed, State.validating, State.after, Report.events]
  · rw [exec_scan hs hreplies]
    exact proceed_scanPlan_of_write_fault hconsistent hrecovers hlength hcut hanswers more
  · intro events hanswers hreplies
    have hevents : events = configTrace s.cfg ++ probesTrace s.cfg 0 probes ++
        (setAddressTrace s.cfg (probeAddress probes.length) ++ [.delay .addr] ++ failedTrace s.cfg) := by
      simp [events, probeAddress]
    rw [exec_scan hs hreplies,
      proceed_scanPlan_of_read_fault hconsistent hrecovers hlength (hevents ▸ hanswers)]
    refine ⟨_, rfl, rfl, rfl, rfl, ⟨rfl, rfl, rfl, rfl, rfl, rfl, ?_⟩, rfl⟩
    simp [hevents, State.readFailed, State.abortedBy, State.addressed, State.probed, State.validating,
      State.after]

/-! ### The read of one offset (R166) -/

/-- The state after the samples of one read of the scan (R166). -/
def State.fetched (s : State) (samples : List Sample) : State :=
  { s with
    d := (samples.getLast?.map Sample.byte).or s.d
    rc := (samples.getLast?.map Sample.faults).getD s.rc
    lb := if s.cfg.stabilize then samples.getLast?.map Sample.byte else s.lb
    mc := if s.cfg.stabilize then matchesOf (bytesOf samples) else s.mc
    ac := if s.cfg.stabilize then samples.length else s.ac
    tr := s.tr ++ fetchTrace s.cfg samples }

theorem fetched_of_stabilize {s : State} (h : s.cfg.stabilize = true) (samples : List Sample) :
    s.fetched samples = s.fastRead samples := by
  simp [State.fetched, State.fastRead, State.sampled, fetchTrace, h]

theorem fetched_nil_of_plain {s : State} (h : s.cfg.stabilize = false) : s.fetched [] = s := by
  simp [State.fetched, fetchTrace, h]

theorem fetched_singleton_of_plain {s : State} (h : s.cfg.stabilize = false) (r : Sample) :
    s.fetched [r] = s.sampleRead r := by
  simp [State.fetched, State.sampleRead, fetchTrace, h]

theorem proceed_fetchPlan_of_plain {s : State} (h : s.cfg.stabilize = false) (rest : List Task)
    (replies : List Reply) :
    proceed (fetchPlan s.cfg ++ rest) replies s =
      proceed (.bus .read :: rest) replies { s with rc := 0 } := by
  have hplan : fetchPlan s.cfg = readBytePlan := by simp [fetchPlan, h]
  rw [hplan]
  exact proceed_go _ _ rfl

theorem proceed_fetchPlan_of_stabilize {s : State} (h : s.cfg.stabilize = true) (rest : List Task)
    (replies : List Reply) :
    proceed (fetchPlan s.cfg ++ rest) replies s =
      proceed (.act .fastLoop :: rest) replies (s.fastRead []) := by
  have hplan : fetchPlan s.cfg = readByteFastPlan := by simp [fetchPlan, h]
  have hbegin : perform .beginFast s = .go (s.fastRead []) := by
    simp [perform, State.fastRead, State.sampled, fastTrace, bytesOf, matchesOf]
  rw [hplan]
  exact proceed_go _ _ hbegin

/-- What `Fetches` says with the stabilizing reader. -/
theorem Fetches.stabilizes {cfg : Cfg} {samples : List Sample} (h : Fetches cfg samples)
    (hst : cfg.stabilize = true) :
    Stabilizes (bytesOf samples) ∧ ∀ c, cfg.stabilizeCeiling = some c → samples.length ≤ c := by
  simpa [Fetches, hst] using h.2

theorem Fetches.length_of_plain {cfg : Cfg} {samples : List Sample} (h : Fetches cfg samples)
    (hst : cfg.stabilize = false) : samples.length = 1 := by
  simpa [Fetches, hst] using h.2

/-- A read that returns took a sample. -/
theorem Fetches.exists_getLast? {cfg : Cfg} {samples : List Sample} (h : Fetches cfg samples) :
    ∃ r, samples.getLast? = some r := by
  have hne : samples ≠ [] := by
    rintro rfl
    cases hst : cfg.stabilize with
    | true => exact not_hasStableRun_nil (h.stabilizes hst).1.1
    | false => cases h.length_of_plain hst
  exact ⟨_, List.getLast?_eq_some_getLast hne⟩

/-- The read of one offset returns, with either reader. -/
theorem proceed_fetch {s : State} {samples : List Sample} {replies : List Reply}
    (hfetches : Fetches s.cfg samples) (hanswers : answers (fetchTrace s.cfg samples) replies = true)
    (rest : List Task) (more : List Reply) :
    proceed (fetchPlan s.cfg ++ rest) (replies ++ more) s = proceed rest more (s.fetched samples) := by
  cases hst : s.cfg.stabilize with
  | true =>
    obtain ⟨hstable, hceiling⟩ := hfetches.stabilizes hst
    rw [fetchTrace, if_pos hst] at hanswers
    rw [proceed_fetchPlan_of_stabilize hst, proceed_fastLoop hfetches.1 hstable.2 hceiling hanswers,
      proceed_fastLoop_done (matchesOf_of_stabilizes hstable).ge, fetched_of_stabilize hst]
  | false =>
    obtain ⟨r, rfl⟩ := List.length_eq_one_iff.mp (hfetches.length_of_plain hst)
    have hfaults : r.faults ≤ s.cfg.maxRetries := by simpa [recovers] using hfetches.1
    have hsample : answers (sampleTrace s.cfg r) replies = true := by
      simpa [fetchTrace, hst] using hanswers
    obtain ⟨faults, hlength, rfl⟩ := exists_faults_of_answers_sampleTrace hsample
    rw [proceed_fetchPlan_of_plain hst, List.append_assoc, List.singleton_append,
      proceed_sample s faults r.byte rest more (hlength.trans_le hfaults), hlength,
      fetched_singleton_of_plain hst]

/-- The samples of a read that has not returned: none with the plain reader; with the stabilizing one no
eleven equal in a row (R132). -/
def Unfinished (cfg : Cfg) (samples : List Sample) : Prop :=
  recovers cfg samples = true ∧
    if cfg.stabilize then
      ¬ HasStableRun (bytesOf samples) ∧ ∀ c, cfg.stabilizeCeiling = some c → samples.length < c
    else samples = []

/-- The next sample of a read that has not returned fails (R201). -/
theorem proceed_fetch_failed {s : State} {samples : List Sample} {replies : List Reply}
    (hsamples : Unfinished s.cfg samples)
    (hanswers : answers (fetchTrace s.cfg samples ++ failedTrace s.cfg) replies = true)
    (rest : List Task) (more : List Reply) :
    proceed (fetchPlan s.cfg ++ rest) (replies ++ more) s =
      .next { (s.fetched samples).readFailed with replies := more } := by
  obtain ⟨hrecovers, hsamples⟩ := hsamples
  obtain ⟨used, _, rfl, hused, hfailed⟩ := (answers_append_iff _ _ _).mp hanswers
  obtain ⟨faults, hlength, rfl⟩ := exists_faults_of_answers_failedTrace hfailed
  cases hst : s.cfg.stabilize with
  | true =>
    rw [if_pos hst] at hsamples
    obtain ⟨hstable, hceiling⟩ := hsamples
    rw [fetchTrace, if_pos hst] at hused
    rw [proceed_fetchPlan_of_stabilize hst, List.append_assoc,
      proceed_fastLoop hrecovers (fun h => hstable h.of_dropLast) (fun c hc => (hceiling c hc).le) hused,
      proceed_fastLoop_wait (s := s.fastRead samples) (matchesOf_lt_of_not_stable hstable)
        fun hc => (hceiling _ hc).ne rfl,
      proceed_failed_sample (s.fastRead samples) faults _ more hlength, fetched_of_stabilize hst]
  | false =>
    obtain rfl : samples = [] := by simpa [hst] using hsamples
    obtain rfl : used = [] := by simpa [fetchTrace, hst, answers] using hused
    rw [proceed_fetchPlan_of_plain hst, List.nil_append, proceed_failed_sample s faults _ more hlength,
      fetched_nil_of_plain hst]

/-- The stabilizing reader has taken as many samples as its ceiling allows (R134). -/
theorem proceed_fetch_timeout {s : State} {samples : List Sample} {replies : List Reply}
    (hrecovers : recovers s.cfg samples = true) (hst : s.cfg.stabilize = true)
    (hstable : ¬ HasStableRun (bytesOf samples))
    (hceiling : s.cfg.stabilizeCeiling = some samples.length)
    (hanswers : answers (fetchTrace s.cfg samples) replies = true) (rest : List Task)
    (more : List Reply) :
    proceed (fetchPlan s.cfg ++ rest) (replies ++ more) s =
      .next { (s.fetched samples).abortedBy .stabilizationTimeout [] with replies := more } := by
  rw [fetchTrace, if_pos hst] at hanswers
  rw [proceed_fetchPlan_of_stabilize hst,
    proceed_fastLoop hrecovers (fun h => hstable h.of_dropLast) (by simp [hceiling]) hanswers,
    proceed_fastLoop_timeout (s := s.fastRead samples) (matchesOf_lt_of_not_stable hstable) hceiling,
    fetched_of_stabilize hst]

/-! ### One offset of the scan loop (R166) -/

theorem proceed_wait_append {a : Action} {s s' : State} {tasks : List Task} (rest : List Task)
    (replies : List Reply) (h : perform a s = .wait tasks s') :
    proceed (.act a :: rest) replies s = proceed (tasks ++ rest) replies s' := by
  obtain ⟨t, tasks, rfl⟩ := perform_wait_head h
  exact proceed_wait rest replies h

/-- The pulse of BANKSW is a straight plan with the events of R114. -/
theorem records_pulse (cfg : Cfg) {m : BankSwitchMethod} {a : Nat} {pulse : List Task}
    (ha : romOffset ≤ a) (h : bankSwitch m a = .ok pulse) : Records cfg pulse (pulseTrace cfg m a) := by
  cases hpulsed : pulsed m a with
  | some hotspot =>
    rw [bankSwitch_of_pulsed hpulsed] at h
    cases h
    rw [pulseTrace, hpulsed]
    exact records_settle cfg _
  | none =>
    rw [pulseTrace, hpulsed]
    cases htrigger : trigger a m ha with
    | false =>
      rw [bankSwitch_of_not_trigger ha htrigger] at h
      cases h
      exact .nil
    | true =>
      have hm : m ≠ .none := by
        rintro rfl
        cases htrigger
      rw [pulsed_of_trigger htrigger, List.getElem?_eq_none_iff] at hpulsed
      rw [bankSwitch_of_no_bank hm htrigger hpulsed] at h
      cases h

/-- One offset of a consistent scan: writes and delays, the read, and the storing of the byte. -/
theorem proceed_scanLoop_of_lt {s : State}
    (hconsistent : consistent s.cfg.romSize (effectiveMethod s.cfg) = true) (hx : s.x < s.cfg.romSize) :
    ∃ plan, Records s.cfg plan (targetTrace s.cfg s.x) ∧ ∀ replies,
      proceed [.act .scanLoop] replies s =
        proceed (plan ++ (fetchPlan s.cfg ++ [.act .storeByte, .act .scanLoop])) replies s := by
  obtain ⟨pulse, hpulse⟩ :=
    consistentScanNeverLacksAHotspot s.cfg.romSize s.x (effectiveMethod s.cfg) hconsistent hx
  have hwait : perform .scanLoop s = .wait (pulse ++ targetPlan s.cfg s.x ++ [.act .scanLoop]) s := by
    simp [perform, performScanLoop, hx, hpulse]
  refine ⟨pulse ++ (setAddressPlan (BitVec.ofNat 16
    (realAddress (s.x + romOffset) (Nat.le_add_left romOffset s.x))) ++ settlePlan), ?_,
    fun replies => (proceed_wait_append [] replies hwait).trans ?_⟩
  · rw [targetTrace, List.append_assoc]
    exact (records_pulse s.cfg (Nat.le_add_left _ _) hpulse).append (records_settle s.cfg _)
  · simp [targetPlan]

/-- The state after one offset (R166, R168). -/
def State.stored (s : State) (samples : List Sample) : State :=
  { (s.after (targetTrace s.cfg s.x)).fetched samples with
    buf := s.buf ++ imageOf [samples]
    tr := s.tr ++ targetTrace s.cfg s.x ++ fetchTrace s.cfg samples ++ [.progress s.x]
    x := s.x + 1 }

theorem imageOf_singleton {samples : List Sample} {r : Sample} (h : samples.getLast? = some r) :
    imageOf [samples] = [r.byte] := by
  simp [imageOf, h]

theorem imageOf_concat (reads : List (List Sample)) (samples : List Sample) :
    imageOf (reads ++ [samples]) = imageOf reads ++ imageOf [samples] :=
  List.filterMap_append

theorem perform_storeByte {s : State} {samples : List Sample} {r : Sample}
    (h : samples.getLast? = some r) :
    perform .storeByte ((s.after (targetTrace s.cfg s.x)).fetched samples) = .go (s.stored samples) := by
  simp [perform, performStoreByte, State.fetched, State.after, State.stored, imageOf_singleton h, h,
    State.emit]

/-- An offset whose writes succeed and whose read returns. -/
theorem proceed_scanLoop_stored {s : State} {samples : List Sample} {replies : List Reply}
    (hconsistent : consistent s.cfg.romSize (effectiveMethod s.cfg) = true) (hx : s.x < s.cfg.romSize)
    (hfetches : Fetches s.cfg samples)
    (hanswers : answers (targetTrace s.cfg s.x ++ fetchTrace s.cfg samples) replies = true)
    (more : List Reply) :
    proceed [.act .scanLoop] (replies ++ more) s = proceed [.act .scanLoop] more (s.stored samples) := by
  obtain ⟨plan, hplan, hloop⟩ := proceed_scanLoop_of_lt hconsistent hx
  obtain ⟨r, hr⟩ := hfetches.exists_getLast?
  obtain ⟨used, used', rfl, hused, hused'⟩ := (answers_append_iff _ _ _).mp hanswers
  rw [hloop, List.append_assoc, proceed_records hplan hused]
  exact (proceed_fetch (s := s.after (targetTrace s.cfg s.x)) hfetches hused' _ more).trans
    (proceed_go _ more (perform_storeByte hr))

/-! ### The scan loop (R166) -/

theorem bytesTrace_concat (cfg : Cfg) (x : Nat) (reads : List (List Sample)) (samples : List Sample) :
    bytesTrace cfg x (reads ++ [samples]) = bytesTrace cfg x reads ++
      (targetTrace cfg (x + reads.length) ++ fetchTrace cfg samples ++ [.progress (x + reads.length)]) := by
  induction reads generalizing x with
  | nil => simp [bytesTrace]
  | cons q reads ih => simp [bytesTrace, ih, Nat.add_assoc, Nat.add_comm 1]

theorem afterWrites_fastTrace (cfg : Cfg) (e : Env) (last : Option Byte) (samples : List Sample) :
    e.afterWrites cfg (fastTrace cfg last samples) = e := by
  induction samples generalizing last with
  | nil => rfl
  | cons r samples ih =>
    have hdelay : e.afterWrites cfg (romDelay last r.byte) = e := by
      unfold romDelay
      split <;> rfl
    rw [fastTrace_cons, afterWrites_append, afterWrites_append, afterWrites_sampleTrace, hdelay, ih]

/-- A read changes nothing in the environment, with either reader (R50). -/
theorem afterWrites_fetchTrace (cfg : Cfg) (e : Env) (samples : List Sample) :
    e.afterWrites cfg (fetchTrace cfg samples) = e := by
  unfold fetchTrace
  split
  · exact afterWrites_fastTrace cfg e none samples
  · induction samples with
    | nil => rfl
    | cons r samples ih => rw [List.flatMap_cons, afterWrites_append, afterWrites_sampleTrace, ih]

/-- The state at the loop test of a scan after these reads, `s` being the state with which the loop began
(R166). -/
def State.scanned (s : State) (reads : List (List Sample)) : State :=
  { s with
    x := reads.length
    buf := imageOf reads
    d := (imageOf reads).getLast?.or s.d
    rc := (reads.flatten.getLast?.map Sample.faults).getD s.rc
    lb := if s.cfg.stabilize ∧ reads ≠ [] then (imageOf reads).getLast? else s.lb
    mc := if s.cfg.stabilize ∧ reads ≠ [] then stableCount else s.mc
    ac := if s.cfg.stabilize ∧ reads ≠ [] then (reads.getLast?.map List.length).getD s.ac else s.ac
    tr := s.tr ++ bytesTrace s.cfg 0 reads
    env := s.env.afterWrites s.cfg (bytesTrace s.cfg 0 reads) }

theorem scanned_nil {s : State} (hx : s.x = 0) (hbuf : s.buf = []) : s.scanned [] = s := by
  obtain ⟨_, _, x, buf, _⟩ := s
  cases hx
  cases hbuf
  simp [State.scanned, imageOf, bytesTrace, Env.afterWrites]

/-- What the last read changes. -/
theorem scanned_concat (s : State) (reads : List (List Sample)) {samples : List Sample}
    (h : Fetches s.cfg samples) : s.scanned (reads ++ [samples]) = (s.scanned reads).stored samples := by
  obtain ⟨r, hr⟩ := h.exists_getLast?
  have htr : s.tr ++ bytesTrace s.cfg 0 (reads ++ [samples]) =
      s.tr ++ bytesTrace s.cfg 0 reads ++ targetTrace s.cfg reads.length ++ fetchTrace s.cfg samples ++
        [.progress reads.length] := by
    simp [bytesTrace_concat]
  have henv : s.env.afterWrites s.cfg (bytesTrace s.cfg 0 (reads ++ [samples])) =
      (s.env.afterWrites s.cfg (bytesTrace s.cfg 0 reads)).afterWrites s.cfg
        (targetTrace s.cfg reads.length) := by
    simp [bytesTrace_concat, afterWrites_append, afterWrites_fetchTrace, Env.afterWrites]
  rw [State.scanned, htr, henv, imageOf_concat, imageOf_singleton hr]
  cases hst : s.cfg.stabilize with
  | true =>
    simp [State.stored, State.fetched, State.after, State.scanned, imageOf_singleton hr, hr, hst,
      matchesOf_of_stabilizes (h.stabilizes hst).1]
  | false =>
    simp [State.stored, State.fetched, State.after, State.scanned, imageOf_singleton hr, hr, hst]

/-- A scan comes to its loop test after any reads that return. -/
theorem proceed_scanLoop {s : State} {reads : List (List Sample)} {replies : List Reply}
    (hconsistent : consistent s.cfg.romSize (effectiveMethod s.cfg) = true)
    (hlength : reads.length ≤ s.cfg.romSize) (hfetches : ∀ samples ∈ reads, Fetches s.cfg samples)
    (hanswers : answers (bytesTrace s.cfg 0 reads) replies = true) (more : List Reply) :
    proceed [.act .scanLoop] (replies ++ more) (s.scanned []) =
      proceed [.act .scanLoop] more (s.scanned reads) := by
  induction reads using List.reverseRecOn generalizing replies more with
  | nil =>
    obtain rfl : replies = [] := List.isEmpty_iff.mp hanswers
    rfl
  | append_singleton reads samples ih =>
    rw [bytesTrace_concat, answers_append_iff] at hanswers
    obtain ⟨used, _, rfl, hused, hlast⟩ := hanswers
    obtain ⟨used', _, rfl, hused', hprogress⟩ := (answers_append_iff _ _ _).mp hlast
    obtain rfl := List.isEmpty_iff.mp hprogress
    rw [List.length_append, List.length_singleton] at hlength
    rw [Nat.zero_add] at hused'
    have hsamples : Fetches s.cfg samples := hfetches samples (by simp)
    rw [List.append_nil, List.append_assoc,
      ih (Nat.le_of_lt hlength) (fun q hq => hfetches q (List.mem_append_left _ hq)) hused,
      proceed_scanLoop_stored (s := s.scanned reads) hconsistent hlength hsamples hused',
      scanned_concat s reads hsamples]

/-! ### SCAN (R162) -/

/-- A sample with which a scan comes to its loop (R163, R164). -/
structure Passes (cfg : Cfg) (probes : List Sample) : Prop where
  consistent : consistent cfg.romSize (effectiveMethod cfg) = true
  length : probes.length = 16
  recovers : recovers cfg probes = true
  checks : checks cfg.checkAllOnes (bytesOf probes) = none

/-- The state in which the loop of SCAN begins (R165). -/
def State.scanStart (s : State) (probes : List Sample) : State :=
  { (s.validating.probed probes).checked none with st := .scanning, x := 0, buf := [] }

/-- A scan whose sample passes comes to its loop test after any reads that return. -/
theorem proceed_scanPlan_loop {s : State} {probes : List Sample} {reads : List (List Sample)}
    {replies : List Reply} (hpasses : Passes s.cfg probes) (hlength : reads.length ≤ s.cfg.romSize)
    (hfetches : ∀ samples ∈ reads, Fetches s.cfg samples)
    (hanswers : answers (loopTrace s.cfg probes reads) replies = true) (more : List Reply) :
    proceed scanPlan (replies ++ more) s =
      proceed [.act .scanLoop] more ((s.scanStart probes).scanned reads) := by
  rw [loopTrace, List.append_assoc] at hanswers
  obtain ⟨used, _, rfl, hused, hrest⟩ := (answers_append_iff _ _ _).mp hanswers
  obtain ⟨used', used'', rfl, hused', hused''⟩ := (answers_append_iff _ _ _).mp hrest
  have hchecks := proceed_checkRom (s := s.validating) hpasses.length hpasses.recovers hused'
    [.act .verdict, .act .beginScanning, .act .scanLoop] (used'' ++ more)
  rw [show s.validating.cfg = s.cfg from rfl, hpasses.checks] at hchecks
  have hbegin : proceed [.act .verdict, .act .beginScanning, .act .scanLoop] (used'' ++ more)
      ((s.validating.probed probes).checked none) =
      proceed [.act .scanLoop] (used'' ++ more) (s.scanStart probes) :=
    (proceed_go _ _ rfl).trans (proceed_go _ _ rfl)
  have hloop := proceed_scanLoop (s := s.scanStart probes) hpasses.consistent hlength hfetches hused'' more
  rw [scanned_nil rfl rfl] at hloop
  rw [List.append_assoc, proceed_scanPlan_config hpasses.consistent hused, validatePlan,
    List.append_assoc, hchecks, hbegin, hloop]

theorem scanned_scanStart_tr (s : State) (probes : List Sample) (reads : List (List Sample)) :
    ((s.scanStart probes).scanned reads).tr = s.tr ++ loopTrace s.cfg probes reads := by
  simp [State.scanned, State.scanStart, State.checked, State.probed, State.validating, State.after,
    loopTrace]

theorem scanned_scanStart_env (s : State) (probes : List Sample) (reads : List (List Sample)) :
    ((s.scanStart probes).scanned reads).env = s.env.afterWrites s.cfg (loopTrace s.cfg probes reads) := by
  rw [loopTrace, afterWrites_append, afterWrites_append]
  rfl

/-- With every offset read the scan ends (R170). -/
theorem proceed_scanLoop_done {s : State} (hx : s.cfg.romSize ≤ s.x) (more : List Reply) :
    proceed [.act .scanLoop] more s = .next { s.finalize with replies := more } := by
  have hstop : perform .scanLoop s = .stop s.finalize := by
    simp [perform, performScanLoop, Nat.not_lt_of_le hx]
  exact proceed_stop [] more hstop

/-- A whole scan (R162). -/
theorem proceed_scanPlan_done {s : State} {probes : List Sample} {reads : List (List Sample)}
    {replies : List Reply} (hpasses : Passes s.cfg probes) (hlength : reads.length = s.cfg.romSize)
    (hfetches : ∀ samples ∈ reads, Fetches s.cfg samples)
    (hanswers : answers (scanTrace s.cfg probes reads) replies = true) (more : List Reply) :
    proceed scanPlan (replies ++ more) s =
      .next { ((s.scanStart probes).scanned reads).finalize with replies := more } := by
  obtain ⟨used, _, rfl, hused, hend⟩ := (answers_append_iff _ _ _).mp hanswers
  obtain rfl := List.isEmpty_iff.mp hend
  rw [List.append_nil, proceed_scanPlan_loop hpasses hlength.le hfetches hused,
    proceed_scanLoop_done hlength.ge]

theorem length_imageOf {cfg : Cfg} {reads : List (List Sample)}
    (h : ∀ samples ∈ reads, Fetches cfg samples) : (imageOf reads).length = reads.length := by
  induction reads with
  | nil => rfl
  | cons samples reads ih =>
    obtain ⟨r, hr⟩ := (h samples List.mem_cons_self).exists_getLast?
    have hrest := ih fun q hq => h q (List.mem_cons_of_mem _ hq)
    simpa [imageOf, hr] using hrest

theorem finalize_scanned_tr (s : State) (probes : List Sample) (reads : List (List Sample)) :
    ((s.scanStart probes).scanned reads).finalize.tr = s.tr ++ scanTrace s.cfg probes reads := by
  rw [State.finalize_tr, scanned_scanStart_tr, scanTrace, List.append_assoc]
  rfl

/-- Settles O56: the fields of the state in which the loop ends, and of the end of the run. -/
theorem scanProducesTheImage : Obligations.ScanProducesTheImage := by
  intro s probes reads replies more hs hconsistent hprobes hrecovers hchecks hlength hfetches hanswers
    hreplies
  have hpasses : Passes s.cfg probes := ⟨hconsistent, hprobes, hrecovers, hchecks⟩
  have hne : probes ≠ [] := by
    rintro rfl
    cases hprobes
  have hr := List.getLast?_eq_some_getLast hne
  refine ⟨{ ((s.scanStart probes).scanned reads).finalize with replies := more },
    (exec_scan hs hreplies).trans (proceed_scanPlan_done hpasses hlength hfetches hanswers more),
    rfl, rfl, hlength, rfl, (length_imageOf hfetches).trans hlength, rfl, rfl, ?_, ?_, ?_, rfl, rfl,
    ?_, ?_, finalize_scanned_tr s probes reads, ?_, rfl, rfl, rfl⟩
  · simp [State.scanned, State.scanStart, State.checked, State.probed, bytesOf, hr]
  · cases h : reads.flatten.getLast? <;>
      simp [State.scanned, State.scanStart, State.checked, State.probed, hr, h]
  · exact sampleBytes_storeAll s.sample (by simpa [bytesOf] using hprobes)
  · intro hnone
    have hnot : ¬ (s.cfg.stabilize = true ∧ reads ≠ []) := by
      rintro ⟨hst, hne⟩
      exact hnone.elim (fun hplain => by rw [hst] at hplain; cases hplain) hne
    exact ⟨if_neg hnot, if_neg hnot, if_neg hnot⟩
  · rintro ⟨hst, hne⟩
    refine ⟨if_pos ⟨hst, hne⟩, if_pos ⟨hst, hne⟩, (congrArg some (if_pos ⟨hst, hne⟩)).trans ?_⟩
    rw [List.getLast?_eq_some_getLast hne]
    rfl
  · rw [scanTrace, afterWrites_append]
    exact scanned_scanStart_env s probes reads

/-! ### Faults in the scan loop (R166, R201, R202, R208) -/

theorem outputs_retries (cfg : Cfg) (n : Nat) :
    outputs (List.replicate n (retryTrace cfg)).flatten = [] := by
  induction n with
  | zero => rfl
  | succ n ih => exact ih

theorem outputs_sampleTrace (cfg : Cfg) (r : Sample) : outputs (sampleTrace cfg r) = [] := by
  rw [sampleTrace, outputs_append, outputs_retries]
  rfl

theorem outputs_failedTrace (cfg : Cfg) : outputs (failedTrace cfg) = [] := by
  rw [failedTrace, outputs_append, outputs_retries]
  rfl

theorem outputs_probesTrace (cfg : Cfg) (i : Nat) (probes : List Sample) :
    outputs (probesTrace cfg i probes) = [] := by
  induction probes generalizing i with
  | nil => rfl
  | cons r probes ih => rw [probesTrace, outputs_append, outputs_append, outputs_sampleTrace, ih]; rfl

theorem outputs_fastTrace (cfg : Cfg) (last : Option Byte) (samples : List Sample) :
    outputs (fastTrace cfg last samples) = [] := by
  induction samples generalizing last with
  | nil => rfl
  | cons r samples ih =>
    have hdelay : outputs (romDelay last r.byte) = [] := by
      unfold romDelay
      split <;> rfl
    rw [fastTrace_cons, outputs_append, outputs_append, outputs_sampleTrace, hdelay, ih]
    rfl

theorem outputs_fetchTrace (cfg : Cfg) (samples : List Sample) : outputs (fetchTrace cfg samples) = [] := by
  unfold fetchTrace
  split
  · exact outputs_fastTrace cfg none samples
  · induction samples with
    | nil => rfl
    | cons r samples ih => rw [List.flatMap_cons, outputs_append, outputs_sampleTrace, ih]; rfl

theorem outputs_targetTrace (cfg : Cfg) (x : Nat) : outputs (targetTrace cfg x) = [] := by
  have hpulse : outputs (pulseTrace cfg (effectiveMethod cfg) (x + romOffset)) = [] := by
    unfold pulseTrace
    split <;> rfl
  rw [targetTrace, outputs_append, outputs_append, hpulse]
  rfl

theorem outputs_bytesTrace (cfg : Cfg) (x : Nat) (reads : List (List Sample)) :
    outputs (bytesTrace cfg x reads) = [] := by
  induction reads generalizing x with
  | nil => rfl
  | cons samples reads ih =>
    rw [bytesTrace, outputs_append, outputs_append, outputs_append, outputs_targetTrace,
      outputs_fetchTrace, ih]
    rfl

theorem outputs_loopTrace (cfg : Cfg) (probes : List Sample) (reads : List (List Sample)) :
    outputs (loopTrace cfg probes reads) = [] := by
  rw [loopTrace, outputs_append, outputs_append, outputs_probesTrace, outputs_bytesTrace]
  rfl

/-- A run aborted after events none of which is an OUT flushed nothing (R208). -/
theorem EndsAborted.outputs_eq {s t : State} {r : Report} {events : List Event} {x : Nat}
    {buf : List Byte} (h : EndsAborted s t r events x buf) (hevents : outputs events = []) :
    outputs t.tr = outputs s.tr := by
  obtain ⟨_, _, _, _, _, _, htr⟩ := h
  rw [htr, outputs_append, outputs_append, hevents, List.append_nil]
  exact List.append_nil _

/-- The state of a scan at the read of an offset (R166). -/
def State.targeted (s : State) (probes : List Sample) (reads : List (List Sample)) : State :=
  ((s.scanStart probes).scanned reads).after (targetTrace s.cfg reads.length)

/-- A scan comes to the read of an offset after any reads that return. -/
theorem proceed_scanPlan_fetch {s : State} {probes : List Sample} {reads : List (List Sample)}
    {replies : List Reply} (hpasses : Passes s.cfg probes) (hlength : reads.length < s.cfg.romSize)
    (hfetches : ∀ samples ∈ reads, Fetches s.cfg samples)
    (hanswers : answers (loopTrace s.cfg probes reads ++ targetTrace s.cfg reads.length) replies = true)
    (more : List Reply) :
    proceed scanPlan (replies ++ more) s =
      proceed (fetchPlan s.cfg ++ [.act .storeByte, .act .scanLoop]) more
        (s.targeted probes reads) := by
  obtain ⟨used, used', rfl, hused, hused'⟩ := (answers_append_iff _ _ _).mp hanswers
  obtain ⟨plan, hplan, hloop⟩ :=
    proceed_scanLoop_of_lt (s := (s.scanStart probes).scanned reads) hpasses.consistent hlength
  rw [List.append_assoc, proceed_scanPlan_loop hpasses hlength.le hfetches hused, hloop,
    proceed_records hplan hused']
  rfl

/-- The trace of a scan at the read of an offset, after some samples of it. -/
theorem targeted_fetched_tr (s : State) (probes : List Sample) (reads : List (List Sample))
    (samples : List Sample) :
    ((s.targeted probes reads).fetched samples).tr =
      s.tr ++ (loopTrace s.cfg probes reads ++ targetTrace s.cfg reads.length ++
        fetchTrace s.cfg samples) := by
  simp only [State.targeted, State.fetched, State.after, scanned_scanStart_tr, List.append_assoc]
  rfl

/-- A run that left `done` in the trace up to `u` and was aborted by a write that faulted. -/
theorem EndsAborted.of_writeAborted {s u : State} {done : List Event} (htr : u.tr = s.tr ++ done)
    (before : List Event) (chip reg val : Byte) (landed : Bool) (more : List Reply) :
    EndsAborted s { u.writeAborted before chip reg val landed with replies := more }
      (.fatalTransport .write) (done ++ (before ++ [.wr chip reg val .ioFault])) u.x u.buf :=
  .of_abortedBy htr rfl

/-- A run that left `done` in the trace up to `u` and was aborted by a read that failed. -/
theorem EndsAborted.of_readFailed {s u : State} {done : List Event} (htr : u.tr = s.tr ++ done)
    (more : List Reply) :
    EndsAborted s { u.readFailed with replies := more } (.fatalTransport .read)
      (done ++ failedTrace u.cfg) u.x u.buf :=
  .of_abortedBy htr rfl

/-- A run that left `done` in the trace up to `u` and was aborted by StabilizationTimeout. -/
theorem EndsAborted.of_timeout {s u : State} {done : List Event} (htr : u.tr = s.tr ++ done)
    (more : List Reply) :
    EndsAborted s { u.abortedBy .stabilizationTimeout [] with replies := more } .stabilizationTimeout done
      u.x u.buf := by
  rw [← List.append_nil done]
  exact .of_abortedBy htr rfl

/-- The scan loop is aborted by a faulted write of the pulse or of the target address (R202). -/
theorem exec_scan_of_write_fault {s : State} {probes : List Sample} {reads : List (List Sample)}
    {before after : List Event} {chip reg val : Byte} {landed : Bool} {replies more : List Reply}
    (hs : Accepting s) (hpasses : Passes s.cfg probes) (hlength : reads.length < s.cfg.romSize)
    (hfetches : ∀ samples ∈ reads, Fetches s.cfg samples)
    (hcut : targetTrace s.cfg reads.length = before ++ .wr chip reg val .ok :: after)
    (hanswers : answers (loopTrace s.cfg probes reads ++ before) replies = true)
    (hreplies : s.replies = replies ++ .ioFault landed :: more) :
    exec .scan s = .next { ((s.scanStart probes).scanned reads).writeAborted before chip reg val landed with
      replies := more } := by
  obtain ⟨used, used', rfl, hused, hused'⟩ := (answers_append_iff _ _ _).mp hanswers
  obtain ⟨plan, hplan, hloop⟩ :=
    proceed_scanLoop_of_lt (s := (s.scanStart probes).scanned reads) hpasses.consistent hlength
  rw [exec_scan hs hreplies, List.append_assoc,
    proceed_scanPlan_loop hpasses hlength.le hfetches hused, hloop]
  exact proceed_records_fault hplan hcut hused' _ landed more

/-- The scan loop is aborted by a read whose attempts all fault (R201). -/
theorem exec_scan_of_read_fault {s : State} {probes : List Sample} {reads : List (List Sample)}
    {samples : List Sample} {replies more : List Reply}
    (hs : Accepting s) (hpasses : Passes s.cfg probes) (hlength : reads.length < s.cfg.romSize)
    (hfetches : ∀ samples ∈ reads, Fetches s.cfg samples) (hsamples : Unfinished s.cfg samples)
    (hanswers : answers (loopTrace s.cfg probes reads ++ targetTrace s.cfg reads.length ++
      (fetchTrace s.cfg samples ++ failedTrace s.cfg)) replies = true)
    (hreplies : s.replies = replies ++ more) :
    exec .scan s = .next { ((s.targeted probes reads).fetched samples).readFailed with replies := more } := by
  obtain ⟨used, used', rfl, hused, hused'⟩ := (answers_append_iff _ _ _).mp hanswers
  rw [exec_scan hs hreplies, List.append_assoc, proceed_scanPlan_fetch hpasses hlength hfetches hused]
  exact proceed_fetch_failed (s := s.targeted probes reads) hsamples hused' _ more

/-- The scan loop is aborted by StabilizationTimeout (R134, R166). -/
theorem exec_scan_of_timeout {s : State} {probes : List Sample} {reads : List (List Sample)}
    {samples : List Sample} {replies more : List Reply}
    (hs : Accepting s) (hpasses : Passes s.cfg probes) (hlength : reads.length < s.cfg.romSize)
    (hfetches : ∀ samples ∈ reads, Fetches s.cfg samples) (hrecovers : recovers s.cfg samples = true)
    (hst : s.cfg.stabilize = true) (hstable : ¬ HasStableRun (bytesOf samples))
    (hceiling : s.cfg.stabilizeCeiling = some samples.length)
    (hanswers : answers (loopTrace s.cfg probes reads ++ targetTrace s.cfg reads.length ++
      fetchTrace s.cfg samples) replies = true)
    (hreplies : s.replies = replies ++ more) :
    exec .scan s =
      .next { ((s.targeted probes reads).fetched samples).abortedBy .stabilizationTimeout [] with
        replies := more } := by
  obtain ⟨used, used', rfl, hused, hused'⟩ := (answers_append_iff _ _ _).mp hanswers
  rw [exec_scan hs hreplies, List.append_assoc, proceed_scanPlan_fetch hpasses hlength hfetches hused]
  exact proceed_fetch_timeout (s := s.targeted probes reads) hrecovers hst hstable hceiling hused' _ more

/-- Settles O57: at the loop test after the reads the scan performs the writes of the offset, one of which
faults, or comes to its read, which fails or times out. -/
theorem faultInTheScanLoopKeepsTheBytesBefore : Obligations.FaultInTheScanLoopKeepsTheBytesBefore := by
  intro s probes reads replies more hs hconsistent hprobes hrecovers hchecks hlength hfetches x start
  have hpasses : Passes s.cfg probes := ⟨hconsistent, hprobes, hrecovers, hchecks⟩
  refine ⟨fun before after chip reg val landed hcut hanswers hreplies => ?_,
    fun samples hsamples hunfinished => ?_, fun samples hsamples hst hstable hceiling => ?_⟩
  · have hends : EndsAborted s
        { ((s.scanStart probes).scanned reads).writeAborted before chip reg val landed with
          replies := more }
        (.fatalTransport .write) (start ++ (before ++ [.wr chip reg val .ioFault])) x (imageOf reads) :=
      .of_writeAborted (scanned_scanStart_tr s probes reads) before chip reg val landed more
    have hbefore : outputs before = [] := by
      have htarget := outputs_targetTrace s.cfg x
      rw [hcut, outputs_append] at htarget
      exact (List.append_eq_nil_iff.mp htarget).1
    have hquiet : outputs (start ++ (before ++ [.wr chip reg val .ioFault])) = [] := by
      rw [outputs_append, outputs_append, outputs_loopTrace, hbefore]
      rfl
    rw [List.append_assoc start]
    exact ⟨_, exec_scan_of_write_fault hs hpasses hlength hfetches hcut hanswers hreplies, rfl,
      hends.outputs_eq hquiet, hends⟩
  · intro events hanswers hreplies
    have hassoc : events = start ++ targetTrace s.cfg x ++ (fetchTrace s.cfg samples ++ failedTrace s.cfg) :=
      List.append_assoc ..
    have hends : EndsAborted s { ((s.targeted probes reads).fetched samples).readFailed with replies := more }
        (.fatalTransport .read) events x (imageOf reads) :=
      .of_readFailed (targeted_fetched_tr s probes reads samples) more
    have hquiet : outputs events = [] := by
      simp only [events, start, outputs_append, outputs_loopTrace, outputs_targetTrace,
        outputs_fetchTrace, outputs_failedTrace, List.append_nil]
    exact ⟨_, exec_scan_of_read_fault hs hpasses hlength hfetches ⟨hsamples, hunfinished⟩
      (hassoc ▸ hanswers) hreplies, rfl, hends.outputs_eq hquiet, rfl, hends⟩
  · intro events hanswers hreplies
    have hends : EndsAborted s
        { ((s.targeted probes reads).fetched samples).abortedBy .stabilizationTimeout [] with replies := more }
        .stabilizationTimeout events x (imageOf reads) :=
      .of_timeout (targeted_fetched_tr s probes reads samples) more
    have hquiet : outputs events = [] := by
      simp only [events, start, outputs_append, outputs_loopTrace, outputs_targetTrace,
        outputs_fetchTrace, List.append_nil]
    exact ⟨_, exec_scan_of_timeout hs hpasses hlength hfetches hsamples hst hstable hceiling hanswers
      hreplies, rfl, hends.outputs_eq hquiet, if_pos hst, hends⟩

/-! ### The pulses of a scan (R113, R172) -/

theorem countP_or_of_disjoint {α : Type} {p q : α → Bool} {l : List α}
    (h : ∀ x ∈ l, p x = true → q x = false) :
    l.countP (fun x => p x || q x) = l.countP p + l.countP q := by
  induction l with
  | nil => rfl
  | cons x l ih =>
    have hx := h x List.mem_cons_self
    have hl := ih fun y hy => h y (List.mem_cons_of_mem x hy)
    simp only [List.countP_cons, hl]
    cases hp : p x with
    | false => rw [Bool.false_or, if_neg Bool.false_ne_true, Nat.add_zero, Nat.add_assoc]
    | true =>
      rw [hx hp, Bool.true_or, if_pos rfl, if_neg Bool.false_ne_true]
      omega

/-- Each residue is met once in each window. -/
theorem countP_range_mod_eq {w a : Nat} (k : Nat) (h : a < w) :
    (List.range (w * k)).countP (fun x => x % w == a) = k := by
  induction k with
  | zero => rfl
  | succ k ih =>
    have hwindow : (List.range w).countP ((fun x => x % w == a) ∘ (w * k + ·)) = 1 := by
      calc (List.range w).countP ((fun x => x % w == a) ∘ (w * k + ·))
          = (List.range w).count a := List.countP_congr fun x hx => by
            have hlt : x < w := List.mem_range.mp hx
            simp [Nat.mod_eq_of_lt hlt]
        _ = 1 := List.count_eq_one_of_mem List.nodup_range (List.mem_range.mpr h)
    rw [Nat.mul_succ, List.range_add, List.countP_append, ih, List.countP_map, hwindow]

/-- Each of some residues is met once in each window. -/
theorem countP_range_mod_mem {w : Nat} (k : Nat) {residues : List Nat} (hnodup : residues.Nodup)
    (hlt : ∀ a ∈ residues, a < w) :
    (List.range (w * k)).countP (fun x => residues.contains (x % w)) = residues.length * k := by
  induction residues with
  | nil => simp
  | cons a residues ih =>
    obtain ⟨hnotMem, hnodup⟩ := List.nodup_cons.mp hnodup
    have hrest := ih hnodup fun b hb => hlt b (List.mem_cons_of_mem a hb)
    have hdisjoint : ∀ x ∈ List.range (w * k), (x % w == a) = true →
        residues.contains (x % w) = false := by
      intro x _ hx
      rw [beq_iff_eq.mp hx]
      simpa using hnotMem
    simp only [List.contains_cons]
    rw [countP_or_of_disjoint hdisjoint, countP_range_mod_eq k (hlt a List.mem_cons_self), hrest,
      List.length_cons, Nat.succ_mul, Nat.add_comm]

/-- A scan with F8 triggers at three offsets of a bank, those whose addresses R113 lists. -/
theorem trigger_scan_f8 (x : Nat) :
    trigger (x + romOffset) .f8 (Nat.le_add_left romOffset x) =
      [0x000, 0xFF9, 0xFFA].contains (x % 4096) := by
  rw [Bool.eq_iff_iff, trigger_f8_iff, realAddress_add_romOffset, List.contains_iff_mem]
  simp only [romOffset, bankWindow, List.mem_cons, List.not_mem_nil, or_false]
  omega

/-- A scan with F6 triggers at five offsets of a bank, those whose addresses R113 lists. -/
theorem trigger_scan_f6 (x : Nat) :
    trigger (x + romOffset) .f6 (Nat.le_add_left romOffset x) =
      [0x000, 0xFF7, 0xFF8, 0xFF9, 0xFFA].contains (x % 4096) := by
  rw [Bool.eq_iff_iff, trigger_f6_iff, realAddress_add_romOffset, List.contains_iff_mem]
  simp only [romOffset, bankWindow, List.mem_cons, List.not_mem_nil, or_false]
  omega

theorem triggerCount_none (n : Nat) : triggerCount .none n = 0 :=
  List.countP_eq_zero.mpr fun _ _ => Bool.false_ne_true

theorem triggerCount_f8 (k : Nat) : triggerCount .f8 (4096 * k) = 3 * k := by
  simp only [triggerCount, trigger_scan_f8]
  exact countP_range_mod_mem k (by decide) (by decide)

theorem triggerCount_f6 (k : Nat) : triggerCount .f6 (4096 * k) = 5 * k := by
  simp only [triggerCount, trigger_scan_f6]
  exact countP_range_mod_mem k (by decide) (by decide)

theorem triggerCount_succ (m : BankSwitchMethod) (n : Nat) :
    triggerCount m (n + 1) = triggerCount m n +
      if trigger (n + romOffset) m (Nat.le_add_left romOffset n) then 1 else 0 := by
  rw [triggerCount, List.range_succ, List.countP_append, List.countP_singleton]
  rfl

/-- An offset of a consistent scan that triggers is pulsed, because its bank has a hotspot (R112). -/
theorem isSome_pulsed {size x : Nat} {m : BankSwitchMethod} (hconsistent : consistent size m = true)
    (hx : x < size) :
    (pulsed m (x + romOffset)).isSome = trigger (x + romOffset) m (Nat.le_add_left romOffset x) := by
  cases htrigger : trigger (x + romOffset) m (Nat.le_add_left romOffset x) with
  | false => rw [pulsed_of_not_trigger htrigger]; rfl
  | true =>
    rw [pulsed_of_trigger htrigger, Option.isSome_iff_ne_none, ne_eq, List.getElem?_eq_none_iff]
    intro hbank
    have hm : m ≠ .none := by
      rintro rfl
      cases htrigger
    obtain ⟨pulse, hpulse⟩ := consistentScanNeverLacksAHotspot size x m hconsistent hx
    rw [bankSwitch_of_no_bank hm htrigger hbank] at hpulse
    cases hpulse

/-! ### The events of a scan without faults and noise (R172) -/

/-- The numbers of a trace's writes, reads and delays, in the order Addr, Retry, Rom (R172). -/
def tally (events : List Event) : Nat × Nat × Nat × Nat × Nat :=
  (writeCount events, readCount events, delayCount .addr events, delayCount .retry events,
    delayCount .rom events)

theorem tally_append (before after : List Event) :
    tally (before ++ after) = tally before + tally after := by
  simp [tally, writeCount, readCount_append, delayCount_append]

theorem tally_settle (cfg : Cfg) (p : Half) :
    tally (setAddressTrace cfg p ++ [.delay .addr]) = (2, 0, 1, 0, 0) := by
  simp [tally, writeCount, readCount, delayCount, setAddressTrace]

theorem tally_sampleTrace (cfg : Cfg) (v : Byte) : tally (sampleTrace cfg ⟨0, v⟩) = (0, 1, 0, 0, 0) := by
  simp [tally, writeCount, readCount, delayCount, sampleTrace, readTrace]

theorem tally_probesTrace (cfg : Cfg) (i : Nat) (sample : List Byte) :
    tally (probesTrace cfg i (sample.map (Sample.mk 0))) = sample.length • (2, 1, 1, 0, 0) := by
  induction sample generalizing i with
  | nil => rfl
  | cons v sample ih =>
    rw [List.map_cons, probesTrace, tally_append, tally_append, tally_settle, tally_sampleTrace, ih,
      List.length_cons, succ_nsmul, add_comm]
    rfl

theorem tally_fastTrace (cfg : Cfg) {last : Option Byte} {v : Byte} (h : romDelay last v = []) (n : Nat) :
    tally (fastTrace cfg last (List.replicate n ⟨0, v⟩)) = (0, n, 0, 0, 0) := by
  induction n generalizing last with
  | zero => rfl
  | succ n ih =>
    have hsame : romDelay (some v) v = [] := by simp [romDelay]
    rw [List.replicate_succ, fastTrace_cons, h, List.append_nil, tally_append, tally_sampleTrace, ih hsame]
    simp [Nat.add_comm]

/-- The reads of one offset, with each reader. -/
theorem tally_fetchTrace (cfg : Cfg) (v : Byte) :
    tally (fetchTrace cfg (quietSamples cfg v)) = (0, if cfg.stabilize then 11 else 1, 0, 0, 0) := by
  cases hst : cfg.stabilize with
  | true =>
    simp only [fetchTrace, quietSamples, hst, if_true]
    exact tally_fastTrace cfg rfl 11
  | false =>
    simp only [fetchTrace, quietSamples, hst, Bool.false_eq_true, if_false, List.flatMap_singleton]
    exact tally_sampleTrace cfg v

theorem tally_targetTrace {cfg : Cfg} {x : Nat}
    (hconsistent : consistent cfg.romSize (effectiveMethod cfg) = true) (hx : x < cfg.romSize) :
    tally (targetTrace cfg x) = (2, 0, 1, 0, 0) +
      (if trigger (x + romOffset) (effectiveMethod cfg) (Nat.le_add_left romOffset x) then 1 else 0) •
        (2, 0, 1, 0, 0) := by
  rw [targetTrace, List.append_assoc, tally_append, tally_settle, ← isSome_pulsed hconsistent hx, pulseTrace,
    add_comm]
  cases pulsed (effectiveMethod cfg) (x + romOffset) with
  | none => rfl
  | some hotspot =>
    simp only [tally_settle]
    rfl

/-- The offsets of a quiet scan: their own writes, delays and reads, and those of the pulses. -/
theorem tally_bytesTrace {cfg : Cfg} {bytes : List Byte}
    (hconsistent : consistent cfg.romSize (effectiveMethod cfg) = true)
    (hlength : bytes.length ≤ cfg.romSize) :
    tally (bytesTrace cfg 0 (bytes.map (quietSamples cfg))) =
      bytes.length • (2, if cfg.stabilize then 11 else 1, 1, 0, 0) +
        triggerCount (effectiveMethod cfg) bytes.length • (2, 0, 1, 0, 0) := by
  induction bytes using List.reverseRecOn with
  | nil =>
    rw [List.length_nil, zero_nsmul, triggerCount, List.range_zero, List.countP_nil, zero_nsmul]
    rfl
  | append_singleton bytes v ih =>
    rw [List.length_append, List.length_singleton] at hlength
    have hprogress : tally [.progress bytes.length] = 0 := rfl
    rw [List.map_append, List.map_singleton, bytesTrace_concat, tally_append, ih (Nat.le_of_lt hlength),
      tally_append, tally_append, List.length_map, Nat.zero_add, tally_targetTrace hconsistent hlength,
      tally_fetchTrace, hprogress, List.length_append, List.length_singleton, triggerCount_succ, succ_nsmul,
      add_nsmul]
    simp only [Prod.mk_add_mk, Prod.smul_mk, add_zero, smul_eq_mul, Prod.mk.injEq]
    omega

theorem waitedTime_eq (cfg : Cfg) (events : List Event) :
    waitedTime cfg events = delayCount .addr events * cfg.addrDelay +
      delayCount .retry events * cfg.retryDelay + delayCount .rom events * cfg.romDelay := by
  induction events with
  | nil => simp [waitedTime, delayCount]
  | cons e events ih =>
    cases e with
    | delay k =>
      rw [waitedTime, ih]
      cases k <;> simp [delayCount, durationOf] <;> ring
    | _ => simpa [waitedTime, delayCount, List.count_cons] using ih

/-- The events of a whole quiet scan (R172). -/
theorem tally_scanTrace {cfg : Cfg} {sample bytes : List Byte}
    (hconsistent : consistent cfg.romSize (effectiveMethod cfg) = true) (hsample : sample.length = 16)
    (hlength : bytes.length = cfg.romSize) :
    tally (scanTrace cfg (sample.map (Sample.mk 0)) (bytes.map (quietSamples cfg))) =
      (3, 0, 0, 0, 0) + 16 • (2, 1, 1, 0, 0) +
        (cfg.romSize • (2, if cfg.stabilize then 11 else 1, 1, 0, 0) +
          triggerCount (effectiveMethod cfg) cfg.romSize • (2, 0, 1, 0, 0)) := by
  have hconfig : tally (configTrace cfg) = (3, 0, 0, 0, 0) := by
    simp [tally, writeCount, readCount, delayCount, configTrace]
  have hend (image : List Byte) : tally [.out image, .rel] = 0 := by
    simp [tally, writeCount, readCount, delayCount]
  rw [scanTrace, loopTrace, tally_append, tally_append, tally_append, hconfig, hend, tally_probesTrace,
    tally_bytesTrace hconsistent hlength.le, hsample, hlength, add_zero]

theorem bytesOf_replicate (n : Nat) (v : Byte) :
    bytesOf (List.replicate n ⟨0, v⟩) = List.replicate n v := by
  simp [bytesOf]

/-- Fewer than eleven samples are no stable run (R132). -/
theorem not_hasStableRun_of_length {bytes : List Byte} (h : bytes.length ≤ stableCount) :
    ¬ HasStableRun bytes := by
  rintro ⟨before, v, after, rfl⟩
  simp at h
  omega

/-- A quiet read returns, below a ceiling of eleven samples or more. -/
theorem fetches_quietSamples {cfg : Cfg}
    (hceiling : cfg.stabilize = true → ∀ c, cfg.stabilizeCeiling = some c → 11 ≤ c) (v : Byte) :
    Fetches cfg (quietSamples cfg v) := by
  cases hst : cfg.stabilize with
  | true =>
    simp only [Fetches, quietSamples, hst, if_true, bytesOf_replicate]
    refine ⟨by simp [recovers], ⟨⟨[], v, [], by simp⟩, ?_⟩, fun c hc => ?_⟩
    · exact not_hasStableRun_of_length (by simp)
    · simpa [stableCount] using hceiling hst c hc
  | false => simp [Fetches, quietSamples, hst, recovers]

theorem passes_of_quiet {cfg : Cfg} {sample : List Byte}
    (hconsistent : consistent cfg.romSize (effectiveMethod cfg) = true) (hlength : sample.length = 16)
    (hchecks : checks cfg.checkAllOnes sample = none) : Passes cfg (sample.map (Sample.mk 0)) where
  consistent := hconsistent
  length := by simpa using hlength
  recovers := by simp [recovers]
  checks := by
    have hbytes : bytesOf (sample.map (Sample.mk 0)) = sample := by simp [bytesOf, Function.comp_def]
    rw [hbytes, hchecks]

/-- Settles O58: the trace of the scan is tallied, and the triggers are counted bank by bank. -/
theorem quietScanCounts : Obligations.QuietScanCounts := by
  refine ⟨?_, fun k => ⟨triggerCount_none k, triggerCount_f8 k, triggerCount_f6 k⟩⟩
  intro s sample bytes replies more hs hconsistent hceiling hsample hlength hchecks hanswers hreplies n k
  have hpasses := passes_of_quiet hconsistent hsample hchecks
  have hfetches : ∀ samples ∈ bytes.map (quietSamples s.cfg), Fetches s.cfg samples := by
    intro samples hmem
    obtain ⟨v, _, rfl⟩ := List.mem_map.mp hmem
    exact fetches_quietSamples hceiling v
  have hdone := proceed_scanPlan_done hpasses (by simpa using hlength) hfetches hanswers more
  have htally := tally_scanTrace hconsistent hsample hlength
  simp only [tally, Prod.mk_add_mk, Prod.smul_mk, Prod.mk.injEq, smul_eq_mul] at htally
  obtain ⟨hwrites, hreads, haddr, hretry, hrom⟩ := htally
  refine ⟨_, _, (exec_scan hs hreplies).trans hdone, rfl, finalize_scanned_tr s _ _, ?_, ?_, ?_, ?_, ?_, ?_⟩
  · rw [hwrites]
    simp only [n, k]
    omega
  · rw [haddr]
    simp only [n, k]
    omega
  · rw [hreads]
    split <;> simp only [n] <;> omega
  · simp [hretry]
  · simp [hrom]
  · rw [waitedTime_eq, haddr, hretry, hrom]
    simp only [n, k]
    ring

/-! ### One answer a step (R47, assumptions 2 and 22) -/

/-- The events of an action are no transactions, so they take no answer. -/
theorem answers_append_of_internal {events : List Event} (h : events.all Event.internal = true)
    (rest : List Event) (replies : List Reply) :
    answers (events ++ rest) replies = answers rest replies := by
  induction events with
  | nil => rfl
  | cons e events ih =>
    rw [List.all_cons, Bool.and_eq_true] at h
    cases e with
    | wr _ _ _ _ | rd _ _ _ => cases h.1
    | delay _ | progress _ | report _ | out _ | rel => exact ih h.2

theorem Progress.All.and {P Q : State → Prop} {p : Progress} (hp : p.All P) (hq : p.All Q) :
    p.All fun s => P s ∧ Q s := by
  cases p with
  | go s | wait _ s | stop s => exact ⟨hp, hq⟩
  | noValue _ => trivial

/-- `s'` has the configuration and the environment of `s`, and its trace is that of `s` with events appended
that are no transactions. -/
def State.ActedTo (s s' : State) : Prop :=
  s'.cfg = s.cfg ∧ s'.env = s.env ∧
    ∃ events, s'.tr = s.tr ++ events ∧ events.all Event.internal = true

theorem advance_actedTo {tasks : List Task} {s t : State} (h : advance tasks s = .next t) : s.ActedTo t := by
  have hkept : KeptByActions fun _ u => s.ActedTo u := by
    refine keptByActions_of_all fun a u hu => ?_
    obtain ⟨hcfg, henv, events, htr, hall⟩ := hu
    refine (((perform_extends a u).and (perform_env a u)).and (perform_led a u)).imp fun u' hu' => ?_
    obtain ⟨⟨⟨hcfg', _⟩, henv'⟩, events', htr', hall', _⟩ := hu'
    exact ⟨hcfg'.trans hcfg, henv'.trans henv, events ++ events', by rw [htr', htr, List.append_assoc],
      by rw [List.all_append, hall, hall']; rfl⟩
  exact advance_keeps (P := fun _ u => s.ActedTo u) (fun _ _ _ _ _ hp => hp) hkept
    ⟨rfl, rfl, [], by simp, rfl⟩ h

theorem advance_inputs {tasks : List Task} {s t : State} (h : advance tasks s = .next t) :
    t.inputs = s.inputs := by
  have hsame : advance tasks s = outcomeWithInputs s.inputs (advance tasks s) :=
    advance_withInputs tasks s s.inputs
  rw [h, outcomeWithInputs, andThen_next] at hsame
  injection hsame with hsame
  rw [hsame]

theorem answer_inputs (s : State) (t : Transaction) (rest : List Task) (reply : Reply) :
    (s.answer t rest reply).inputs = s.inputs := by
  have hsame : s.answer t rest reply = { s.answer t rest reply with inputs := s.inputs } :=
    answer_withInputs s t rest reply s.inputs
  rw [hsame]

theorem proceed_extends {tasks : List Task} {replies : List Reply} {s t : State}
    (h : proceed tasks replies s = .next t) : s.Extends t := by
  obtain ⟨s', hnext, hrun⟩ := andThen_eq_next h
  have hsteady : Steady fun _ u => s.Extends u := fun _ _ _ _ _ hp => hp
  have hactions := extends_keptByActions s
  exact run_keeps hsteady hactions
    (fun u rest s' reply hp => State.Extends.trans hp (answer_extends s' u rest reply))
    (advance_keeps hsteady hactions (tasks := tasks) (s := s) (.of_same rfl rfl) hnext) hrun

theorem drive_eq_proceed (s : State) : drive s = proceed s.work s.replies s := by
  rw [drive, proceed]
  cases h : advance s.work s with
  | next t => rw [andThen_next, andThen_next, advance_replies h]
  | fault _ => rfl
  | refused _ => rfl

theorem answer_replies (s : State) (t : Transaction) (rest : List Task) (reply : Reply)
    (replies : List Reply) :
    State.answer { s with replies := replies } t rest reply =
      { s.answer t rest reply with replies := replies } := by
  cases t with
  | direction _ | addrLow _ | addrHigh _ => cases reply <;> rfl
  | read =>
    cases reply with
    | ok v => rfl
    | ioFault landed =>
      simp only [State.answer, Transaction.value?, State.finishRead]
      split_ifs <;> rfl

/-- Without answers to come it does not matter which ones stand in the state. -/
theorem proceed_nil_replies (tasks : List Task) (s : State) (replies : List Reply) :
    proceed tasks [] { s with replies := replies } = proceed tasks [] s := by
  have hadvance : advance tasks { s with replies := replies } =
      andThen (advance tasks s) fun t => .next { t with replies := replies } :=
    advance_withOwn tasks s s.work replies
  rw [proceed, hadvance, proceed]
  cases advance tasks s <;> rfl

/-- A step in which the bus answers the transaction the block waits for. -/
theorem step_of_answer {s : State} {t : Transaction} {rest : List Task} (hwork : s.work = .bus t :: rest)
    (hr : ¬ ResetComes s) (reply : Reply) :
    step { s with replies := [reply] } =
      proceed (s.answer t rest reply).work [] (s.answer t rest reply) := by
  have hne : s.work ≠ [] := by
    rw [hwork]
    nofun
  calc step { s with replies := [reply] }
      = drive (State.withBusAnswer { s with replies := [reply] }) :=
        step_of_work (s := { s with replies := [reply] }) hne hr
    _ = drive { s with replies := [reply] } := rfl
    _ = proceed (.bus t :: rest) [reply] { s with replies := [reply] } := by
        rw [drive_eq_proceed, ← hwork]
    _ = proceed (s.answer t rest reply).work [] { s.answer t rest reply with replies := [reply] } := by
        rw [proceed_bus, answer_replies]
    _ = proceed (s.answer t rest reply).work [] (s.answer t rest reply) := proceed_nil_replies ..

/-! ### What the mock bus answers (R171) -/

/-- The low byte of the address on the lines. -/
def mockByteOn (cfg : Cfg) (e : Env) : Byte :=
  match addressLines cfg e.regs with
  | some address => address.extractLsb' 0 8
  | none => 0x00#8

theorem mockByte_eq (s : State) : mockByte s = mockByteOn s.cfg s.env := rfl

/-- The events are those of transactions the mock bus answered, from an environment on. -/
def Mocked (cfg : Cfg) : Env → List Event → Prop
  | _, [] => True
  | e, .wr chip reg val .ok :: rest => Mocked cfg (e.write cfg (location chip reg) val) rest
  | _, .wr _ _ _ .ioFault :: _ => False
  | e, .rd _ _ (.ok v) :: rest => v = mockByteOn cfg e ∧ Mocked cfg e rest
  | _, .rd _ _ .ioFault :: _ => False
  | e, _ :: rest => Mocked cfg e rest

theorem mocked_append_iff (cfg : Cfg) (e : Env) (before after : List Event) :
    Mocked cfg e (before ++ after) ↔
      Mocked cfg e before ∧ Mocked cfg (e.afterWrites cfg before) after := by
  induction before generalizing e with
  | nil => exact (and_iff_right trivial).symm
  | cons event before ih =>
    cases event with
    | delay _ | progress _ | report _ | out _ | rel => exact ih e
    | wr chip reg val res =>
      cases res with
      | ok => exact ih _
      | ioFault => simp [Mocked]
    | rd chip reg res =>
      cases res with
      | ok v => exact (and_congr_right fun _ => ih e).trans and_assoc.symm
      | ioFault => simp [Mocked]

theorem mocked_append_of_internal {cfg : Cfg} {e : Env} {events : List Event}
    (h : events.all Event.internal = true) (rest : List Event) :
    Mocked cfg e (events ++ rest) ↔ Mocked cfg e rest := by
  induction events with
  | nil => exact Iff.rfl
  | cons event events ih =>
    rw [List.all_cons, Bool.and_eq_true] at h
    cases event with
    | wr _ _ _ _ | rd _ _ _ => cases h.1
    | delay _ | progress _ | report _ | out _ | rel => exact ih h.2

/-- The mock bus gives a trace's transactions their answers. -/
theorem exists_answers_of_mocked {cfg : Cfg} {e : Env} {events : List Event} (h : Mocked cfg e events) :
    ∃ replies, answers events replies = true := by
  induction events generalizing e with
  | nil => exact ⟨[], rfl⟩
  | cons event events ih =>
    cases event with
    | delay _ | progress _ | report _ | out _ | rel => exact ih (e := e) h
    | wr chip reg val res =>
      cases res with
      | ok =>
        obtain ⟨replies, hanswers⟩ := ih (e := e.write cfg (location chip reg) val) h
        exact ⟨.ok 0x00#8 :: replies, hanswers⟩
      | ioFault => exact h.elim
    | rd chip reg res =>
      cases res with
      | ok v =>
        obtain ⟨replies, hanswers⟩ := ih (e := e) h.2
        exact ⟨.ok v :: replies, (answers_rd_ok_iff _ _ _ _ _).mpr ⟨replies, rfl, hanswers⟩⟩
      | ioFault => exact h.elim

/-- What an answered transaction appends begins with its own event. If the mock bus answered it, the mock
bus's next answer leads to the same state, and the events that follow are answered by the mock bus too. -/
theorem answer_of_mocked {s : State} {t : Transaction} {rest : List Task} {reply : Reply}
    {events later : List Event} {replies : List Reply}
    (htr : (s.answer t rest reply).tr ++ later = s.tr ++ events)
    (hanswers : answers events (reply :: replies) = true) (hmocked : Mocked s.cfg s.env events) :
    s.answer t rest (.ok (mockByte s)) = s.answer t rest reply ∧ answers later replies = true ∧
      Mocked (s.answer t rest reply).cfg (s.answer t rest reply).env later := by
  rcases answer_cases s t rest reply with ⟨val, b, hval, rfl, h⟩ | ⟨val, _, _, rfl, h⟩ | ⟨v, rfl, rfl, h⟩ |
    ⟨_, rfl, rfl, _, h⟩ | ⟨_, rfl, rfl, _, h⟩ <;> rw [h] at htr ⊢
  · simp only [State.writeRegister_tr, List.append_assoc, List.append_cancel_left_eq,
      List.singleton_append] at htr
    subst htr
    obtain ⟨_, _, hcons, _, hlater⟩ := (answers_wr_iff _ _ _ _ _ _).mp hanswers
    cases hcons
    refine ⟨?_, hlater, hmocked⟩
    cases t with
    | read => cases hval
    | _ => cases hval; rfl
  · simp only [State.raise_tr, State.writeRegister_tr, List.append_assoc, List.append_cancel_left_eq,
      List.singleton_append] at htr
    subst htr
    exact hmocked.elim
  · simp only [State.emit_tr, List.append_assoc, List.append_cancel_left_eq, List.singleton_append] at htr
    subst htr
    obtain ⟨_, hcons, hlater⟩ := (answers_rd_ok_iff _ _ _ _ _).mp hanswers
    cases hcons
    obtain ⟨hbyte, hmocked⟩ := hmocked
    exact ⟨by rw [mockByte_eq, ← hbyte, h], hlater, hmocked⟩
  · simp only [State.delay_tr, State.emit_tr, List.append_assoc, List.append_cancel_left_eq,
      List.singleton_append] at htr
    subst htr
    exact hmocked.elim
  · simp only [State.raise_tr, State.emit_tr, List.append_assoc, List.append_cancel_left_eq,
      List.singleton_append] at htr
    subst htr
    exact hmocked.elim

/-- An operation whose trace is one the mock bus answers is performed in steps of the mock bus. -/
theorem exists_mockRun {tasks : List Task} {replies : List Reply} {s t : State} {events : List Event}
    (hr : ¬ ResetComes s) (h : proceed tasks replies s = .next t) (htr : t.tr = s.tr ++ events)
    (hanswers : answers events replies = true) (hmocked : Mocked s.cfg s.env events) :
    ∃ n, andThen (proceed tasks [] s) (mockRun n) = .next { t with replies := [] } := by
  induction replies generalizing tasks s events with
  | nil =>
    obtain ⟨s', hnext, hrun⟩ := andThen_eq_next h
    cases hrun
    exact ⟨0, by rw [h]; rfl⟩
  | cons reply replies ih =>
    obtain ⟨s', hnext, hrun⟩ := andThen_eq_next h
    obtain ⟨hcfg, henv, acted, htr', hacted⟩ := advance_actedTo hnext
    have hinputs : s'.inputs = s.inputs := advance_inputs hnext
    rcases advance_head hnext with hdone | ⟨u, rest, hwork⟩
    · rw [run_done _ hdone] at hrun
      cases hrun
      obtain rfl : acted = events := List.append_cancel_left (htr'.symm.trans htr)
      rw [← List.append_nil acted, answers_append_of_internal hacted] at hanswers
      cases hanswers
    · rw [run_bus reply replies hwork] at hrun
      obtain ⟨_, later, hlater, _⟩ := proceed_extends hrun
      obtain ⟨events, rfl⟩ : ∃ events', events = acted ++ events' := by
        obtain ⟨_, answered, hanswered, _⟩ := answer_extends s' u rest reply
        rw [hlater, hanswered, htr', List.append_assoc, List.append_assoc] at htr
        exact ⟨_, (List.append_cancel_left htr).symm⟩
      rw [answers_append_of_internal hacted] at hanswers
      rw [mocked_append_of_internal hacted, ← hcfg, ← henv] at hmocked
      have hrest : (s'.answer u rest reply).tr ++ later = s'.tr ++ events := by
        rw [← hlater, htr, htr', List.append_assoc]
      obtain ⟨hsame, hanswers, hmocked⟩ := answer_of_mocked hrest hanswers hmocked
      have hr' : ¬ ResetComes { s' with replies := [] } := by rwa [ResetComes, hinputs]
      have hr'' : ¬ ResetComes (s'.answer u rest reply) := by rwa [ResetComes, answer_inputs, hinputs]
      obtain ⟨n, hn⟩ := ih hr'' hrun hlater hanswers hmocked
      refine ⟨n + 1, ?_⟩
      have hstep : step { s' with replies := [.ok (mockByte s')] } =
          proceed (s'.answer u rest reply).work [] (s'.answer u rest reply) := by
        rw [← hsame]
        exact step_of_answer hwork hr' (.ok (mockByte s'))
      rw [proceed, hnext, andThen_next, run_nil, andThen_next, mockRun, ← hn, ← hstep]
      rfl

/-! ### The image of the mock bus (R171) -/

/-- Both write ports are outputs (R231). -/
def Wired (cfg : Cfg) (e : Env) : Prop :=
  Memory.read e.regs (iodirReg cfg.portWL) = some 0x00#8 ∧
    Memory.read e.regs (iodirReg cfg.portWH) = some 0x00#8

/-- The mock bus answered these events, after which both write ports are outputs. -/
def Serves (cfg : Cfg) (e : Env) (events : List Event) : Prop :=
  Mocked cfg e events ∧ Wired cfg (e.afterWrites cfg events)

theorem Serves.append {cfg : Cfg} {e : Env} {before after : List Event} (h : Serves cfg e before)
    (h' : ∀ e', Wired cfg e' → Serves cfg e' after) : Serves cfg e (before ++ after) := by
  obtain ⟨hmocked, hwired⟩ := h
  obtain ⟨hmocked', hwired'⟩ := h' _ hwired
  exact ⟨(mocked_append_iff ..).mpr ⟨hmocked, hmocked'⟩, by rwa [afterWrites_append]⟩

/-- CONFIG makes both write ports outputs, where the read port shares no direction register with them. -/
theorem serves_configTrace {cfg : Cfg} (e : Env) (hlow : iodirReg cfg.portRD ≠ iodirReg cfg.portWL)
    (hhigh : iodirReg cfg.portRD ≠ iodirReg cfg.portWH) : Serves cfg e (configTrace cfg) := by
  refine ⟨trivial, ?_, ?_⟩
  · have hself : iodirReg cfg.portWL = iodirReg cfg.portWL := rfl
    rw [afterWrites_configTrace, read_configured, if_neg hlow.symm, if_pos hself, ite_self]
  · rw [afterWrites_configTrace, read_configured, if_neg hhigh.symm, if_pos rfl]

theorem extractLsb'_setWidth (p : Half) : (p.setWidth 13).extractLsb' 0 8 = lowByte p := by
  apply BitVec.eq_of_toNat_eq
  simp [lowByte]

/-- A settled address puts its low byte before the mock bus, and leaves the write ports outputs. -/
theorem settled_wired {cfg : Cfg} {e : Env} (p : Half) (hports : cfg.portWL ≠ cfg.portWH)
    (hwired : Wired cfg e) :
    let e' := e.afterWrites cfg (setAddressTrace cfg p ++ [.delay .addr])
    Wired cfg e' ∧ mockByteOn cfg e' = lowByte p := by
  intro e'
  obtain ⟨hlow, hhigh⟩ := hwired
  have hlines : addressLines cfg e'.regs = some (p.setWidth 13) :=
    addressLines_addressed (s := { State.reset with cfg := cfg, env := e }) p hports hlow hhigh
  exact ⟨outputs_of_addressLines hlines, by rw [mockByteOn, hlines, ← extractLsb'_setWidth]⟩

/-- A settled address and reads of its low byte, on the mock bus. -/
theorem serves_settled {cfg : Cfg} {e : Env} {p : Half} {reads : List Event}
    (hports : cfg.portWL ≠ cfg.portWH) (hwired : Wired cfg e)
    (hreads : ∀ e', mockByteOn cfg e' = lowByte p → Mocked cfg e' reads)
    (hquiet : ∀ e', Env.afterWrites cfg e' reads = e') :
    Serves cfg e (setAddressTrace cfg p ++ [.delay .addr] ++ reads) := by
  obtain ⟨hwired', hbyte⟩ := settled_wired p hports hwired
  refine ⟨(mocked_append_iff ..).mpr ⟨trivial, hreads _ hbyte⟩, ?_⟩
  rwa [afterWrites_append, hquiet]

theorem mocked_sampleTrace {cfg : Cfg} {e : Env} {v : Byte} (h : mockByteOn cfg e = v) :
    Mocked cfg e (sampleTrace cfg ⟨0, v⟩) :=
  ⟨h.symm, trivial⟩

theorem internal_romDelay (last : Option Byte) (v : Byte) :
    (romDelay last v).all Event.internal = true := by
  unfold romDelay
  split <;> rfl

theorem mocked_fastTrace {cfg : Cfg} {e : Env} {v : Byte} (h : mockByteOn cfg e = v)
    (last : Option Byte) (n : Nat) : Mocked cfg e (fastTrace cfg last (List.replicate n ⟨0, v⟩)) := by
  induction n generalizing last with
  | zero => trivial
  | succ n ih =>
    rw [List.replicate_succ, fastTrace_cons, List.append_assoc, mocked_append_iff,
      afterWrites_sampleTrace, mocked_append_of_internal (internal_romDelay last v)]
    exact ⟨mocked_sampleTrace h, ih (some v)⟩

/-- The reads of one offset of a quiet scan, with either reader. -/
theorem mocked_fetchTrace {cfg : Cfg} {e : Env} {v : Byte} (h : mockByteOn cfg e = v) :
    Mocked cfg e (fetchTrace cfg (quietSamples cfg v)) := by
  cases hst : cfg.stabilize with
  | true =>
    simp only [fetchTrace, quietSamples, hst, if_true]
    exact mocked_fastTrace h none (stableCount + 1)
  | false =>
    simp only [fetchTrace, quietSamples, hst, Bool.false_eq_true, if_false, List.flatMap_singleton]
    exact mocked_sampleTrace h

/-- The bytes of the mock bus at consecutive offsets. -/
def mockBytes (x n : Nat) : List Byte := (List.range' x n).map (BitVec.ofNat 8)

theorem mockBytes_succ (x n : Nat) : mockBytes x (n + 1) = BitVec.ofNat 8 x :: mockBytes (x + 1) n := by
  simp [mockBytes, List.range'_succ]

theorem lowByte_ofNat (a : Nat) : lowByte (BitVec.ofNat 16 a) = BitVec.ofNat 8 a := by
  apply BitVec.eq_of_toNat_eq
  simp [lowByte]

/-- The window begins at a multiple of 256, so an address in it has the low byte of its offset. -/
theorem lowByte_add_romOffset (x : Nat) :
    lowByte (BitVec.ofNat 16 (romOffset + x % bankWindow)) = BitVec.ofNat 8 x := by
  rw [lowByte_ofNat]
  apply BitVec.eq_of_toNat_eq
  simp only [BitVec.toNat_ofNat, romOffset, bankWindow]
  omega

theorem serves_probesTrace {cfg : Cfg} (hports : cfg.portWL ≠ cfg.portWH) (n : Nat) {i : Nat} {e : Env}
    (hi : i + n ≤ bankWindow) (hwired : Wired cfg e) :
    Serves cfg e (probesTrace cfg i ((mockBytes i n).map (Sample.mk 0))) := by
  induction n generalizing i e with
  | zero => exact ⟨trivial, hwired⟩
  | succ n ih =>
    have hlow : lowByte (BitVec.ofNat 16 (romOffset + i)) = BitVec.ofNat 8 i := by
      have hmod : i % bankWindow = i := Nat.mod_eq_of_lt (by omega)
      rw [← lowByte_add_romOffset i, hmod]
    rw [mockBytes_succ, List.map_cons, probesTrace]
    refine (serves_settled hports hwired (fun e' he' => ?_) fun e' => ?_).append fun e' hwired' =>
      ih (by omega) hwired'
    · exact mocked_sampleTrace (he'.trans hlow)
    · exact afterWrites_sampleTrace cfg e' _

/-- The target of an offset is settled without a pulse where the method is `None`. -/
theorem targetTrace_of_none {cfg : Cfg} (hmethod : effectiveMethod cfg = .none) (x : Nat) :
    targetTrace cfg x =
      setAddressTrace cfg (BitVec.ofNat 16 (romOffset + x % bankWindow)) ++ [.delay .addr] := by
  have hpulse : pulseTrace cfg .none (x + romOffset) = [] := by
    rw [pulseTrace, pulsed_of_not_trigger (h := Nat.le_add_left romOffset x) rfl]
  rw [targetTrace, hmethod, hpulse, realAddress_add_romOffset, List.nil_append]

theorem serves_bytesTrace {cfg : Cfg} (hports : cfg.portWL ≠ cfg.portWH)
    (hmethod : effectiveMethod cfg = .none) (n : Nat) {x : Nat} {e : Env} (hwired : Wired cfg e) :
    Serves cfg e (bytesTrace cfg x ((mockBytes x n).map (quietSamples cfg))) := by
  induction n generalizing x e with
  | zero => exact ⟨trivial, hwired⟩
  | succ n ih =>
    rw [mockBytes_succ, List.map_cons, bytesTrace, targetTrace_of_none hmethod, List.append_assoc _ _ [_]]
    refine (serves_settled hports hwired (fun e' he' => ?_) fun e' => ?_).append fun e' hwired' =>
      ih hwired'
    · exact (mocked_append_iff ..).mpr
        ⟨mocked_fetchTrace (he'.trans (lowByte_add_romOffset x)), trivial⟩
    · rw [afterWrites_append, afterWrites_fetchTrace]
      rfl

/-- The whole trace of a quiet scan of the mock bus's bytes is one the mock bus answers. -/
theorem mocked_scanTrace {cfg : Cfg} (e : Env) (hports : cfg.portWL ≠ cfg.portWH)
    (hlow : iodirReg cfg.portRD ≠ iodirReg cfg.portWL) (hhigh : iodirReg cfg.portRD ≠ iodirReg cfg.portWH)
    (hmethod : effectiveMethod cfg = .none) (n : Nat) :
    Mocked cfg e (scanTrace cfg ((mockBytes 0 16).map (Sample.mk 0))
      ((mockBytes 0 n).map (quietSamples cfg))) := by
  have hloop : Serves cfg e (loopTrace cfg ((mockBytes 0 16).map (Sample.mk 0))
      ((mockBytes 0 n).map (quietSamples cfg))) := by
    rw [loopTrace, List.append_assoc]
    exact (serves_configTrace e hlow hhigh).append fun e' hwired =>
      (serves_probesTrace hports 16 (by decide) hwired).append fun e'' hwired' =>
        serves_bytesTrace hports hmethod n hwired'
  exact (mocked_append_iff ..).mpr ⟨hloop.1, trivial⟩

/-- The last of the samples of a quiet read is the byte. -/
theorem imageOf_quietSamples (cfg : Cfg) (bytes : List Byte) :
    imageOf (bytes.map (quietSamples cfg)) = bytes := by
  have hlast (v : Byte) : (quietSamples cfg v).getLast?.map Sample.byte = some v := by
    unfold quietSamples
    split
    · simp [List.replicate_succ']
    · rfl
  rw [imageOf, List.filterMap_map]
  simp only [Function.comp_def, hlast]
  exact List.filterMap_some

theorem getElem?_mockBytes {n i : Nat} (h : i < n) :
    (mockBytes 0 n)[i]? = some (BitVec.ofNat 8 (i % 256)) := by
  have hbyte : BitVec.ofNat 8 i = BitVec.ofNat 8 (i % 256) := by
    apply BitVec.eq_of_toNat_eq
    simp
  simp [mockBytes, h, hbyte]

/-- Settles O59: the trace of the scan of the bytes `i mod 256` is one the mock bus answers, so that scan is
performed in its steps. -/
theorem mockBusImage : Obligations.MockBusImage := by
  intro s hs hr hreplies hsize hoverride hceiling hports hlow hhigh
  have hmethod : effectiveMethod s.cfg = .none := by
    simp [effectiveMethod, resolveMethod, hoverride, hsize]
  have hconsistent : consistent s.cfg.romSize (effectiveMethod s.cfg) = true := by
    simp [consistent, hmethod]
  have hchecks : checks s.cfg.checkAllOnes (mockBytes 0 16) = none := by
    rw [checks_eq]
    decide
  have hpasses := passes_of_quiet hconsistent rfl hchecks
  have hlength : ((mockBytes 0 s.cfg.romSize).map (quietSamples s.cfg)).length = s.cfg.romSize := by
    simp [mockBytes]
  have hfetches : ∀ samples ∈ (mockBytes 0 s.cfg.romSize).map (quietSamples s.cfg),
      Fetches s.cfg samples := by
    intro samples hmem
    obtain ⟨v, _, rfl⟩ := List.mem_map.mp hmem
    exact fetches_quietSamples (fun _ => hceiling) v
  have hmocked := mocked_scanTrace s.env hports hlow hhigh hmethod s.cfg.romSize
  obtain ⟨replies, hanswers⟩ := exists_answers_of_mocked hmocked
  have hscan := proceed_scanPlan_done hpasses hlength hfetches hanswers []
  rw [List.append_nil] at hscan
  obtain ⟨n, hn⟩ := exists_mockRun hr hscan (finalize_scanned_tr s _ _) hanswers hmocked
  obtain ⟨started, hstarted, hrun⟩ := andThen_eq_next hn
  refine ⟨started, n, _, mockBytes 0 s.cfg.romSize, (exec_scan hs hreplies).trans hstarted, hrun, rfl, rfl,
    ?_, ?_, by simp [mockBytes, hsize], fun i hi => getElem?_mockBytes (hi.trans_eq hsize.symm)⟩
  · simp
  · simp [State.scanned, imageOf_quietSamples, List.dropLast_append_of_ne_nil]

end Sys2Proof.Machine

/-! ## Proofs of the family "exceptions": fault entry (R207). -/

namespace Sys2Proof.Machine

open Sys2Proof

/-- Settles O60: fault entry reports every fault but a ValidationFault, which CHKROM has reported already
(R206), so there only the release is appended. -/
theorem faultEntry : Obligations.FaultEntry := by
  intro s r
  cases r with
  | validation _ =>
    rw [List.append_nil]
    rfl
  | configuration _ => rfl
  | fatalTransport _ => rfl
  | stabilizationTimeout => rfl

end Sys2Proof.Machine

/-! ## Proofs of the family "reset and hazards": the reset (R230), the ends of a run (R241), what the lines
hold between two writes (R236), the hotspots a scan reads (R237), and the settling of the lines (R234). -/

namespace Sys2Proof.Machine

open Sys2Proof

/-! ### The reset and the ends of a run (R230, R241) -/

/-- Settles O14: a reset as the next input is taken before anything else is looked at. -/
theorem resetIsTakenInEveryState : Obligations.ResetIsTakenInEveryState :=
  fun _ _ _ h => step_of_reset h

theorem goodEnd_of_inv {s : State} (h : InvWith s.work s) (hst : s.st = .finalized) :
    goodEnd s = true := by
  obtain ⟨hbuf, hx⟩ := h.finalized hst
  have hfc : s.fc = .none := by simpa [hst] using h.fault
  have hown : s.own = false := by simpa [hst, SeqState.terminal] using h.owned
  simp [goodEnd, hst, hown, hfc, hbuf, hx]

theorem badEnd_of_inv {s : State} (h : InvWith s.work s) (hst : s.st = .aborted) :
    badEnd s = true := by
  have hfc : s.fc ≠ .none := h.fault.mpr hst
  have hown : s.own = false := by simpa [hst, SeqState.terminal] using h.owned
  simp [badEnd, hst, hown, hfc]

/-- Settles O22: the invariant, which the step keeps, makes `Finalized` a good end and `Aborted` a bad one. -/
theorem runsEndGoodOrBad : Obligations.RunsEndGoodOrBad := by
  intro s t hs hstep hterminal
  have ht : InvWith t.work t := (machineInv_iff t).mp (stepKeepsInvariant s t hs hstep)
  cases hst : t.st with
  | finalized => exact .inl ⟨rfl, goodEnd_of_inv ht hst⟩
  | aborted => exact .inr ⟨rfl, badEnd_of_inv ht hst⟩
  | idle | configuring | validating | scanning =>
    rw [hst] at hterminal
    cases hterminal

/-! ### The lines between the two writes of SETADDR (R236) -/

/-- Known lines are those of two known data registers. -/
theorem exists_bytes_of_addressLines {cfg : Cfg} {regs : Memory} {address : Lines}
    (h : addressLines cfg regs = some address) :
    ∃ high low, Memory.read regs (gpioReg cfg.portWH) = some high ∧
      Memory.read regs (gpioReg cfg.portWL) = some low ∧ address = high.extractLsb' 0 5 ++ low := by
  unfold addressLines at h
  split at h
  · split at h
    · next high low hhigh hlow =>
      cases h
      exact ⟨high, low, hhigh, hlow, rfl⟩
    · cases h
  · cases h

/-- After the first write of a SETADDR to two distinct ports the low lines are new and the others old. -/
theorem addressLines_lowWritten {s : State} (p : Half) {old : Lines}
    (hports : s.cfg.portWL ≠ s.cfg.portWH) (hold : addressLines s.cfg s.env.regs = some old) :
    addressLines s.cfg (s.lowWritten p).env.regs = some (old.extractLsb' 8 5 ++ lowByte p) := by
  obtain ⟨hdirLow, hdirHigh⟩ := outputs_of_addressLines hold
  obtain ⟨high, low, hhigh, _, rfl⟩ := exists_bytes_of_addressLines hold
  rw [BitVec.extractLsb'_append_eq_left]
  apply addressLines_of_outputs <;> simp only [State.lowWritten, Env.write_regs]
  · exact (Memory.read_iodirReg_write_gpioReg ..).trans hdirLow
  · exact (Memory.read_iodirReg_write_gpioReg ..).trans hdirHigh
  · exact Memory.read_write_same ..
  · exact (Memory.read_gpioReg_write_gpioReg _ _ hports.symm).trans hhigh

/-- SETADDR with one Ok answer and no other waits for the answer to its second write. -/
theorem exec_setaddr_of_one_ok {s : State} (p : Half) {a : Byte} (hs : Accepting s)
    (h : s.replies = [.ok a]) :
    exec (.setaddr p) s =
      .next { s.lowWritten p with work := [.bus (.addrHigh p)], replies := [] } := by
  rw [exec_setaddr_eq_run p hs, h, run_bus (rest := [.bus (.addrHigh p)]) _ _ rfl, answer_addrLow]
  rfl

/-- Settles O29: SETADDR waits after its low write, which moves the low lines alone. -/
theorem linesBetweenTheTwoWrites : Obligations.LinesBetweenTheTwoWrites := by
  intro s p a old hs hreplies hports hold
  exact ⟨_, exec_setaddr_of_one_ok p hs hreplies, rfl, addressLines_lowWritten p hports hold⟩

/-! ### Hotspots among the targets of a scan (R237) -/

/-- Where the hotspots of a scheme are consecutive addresses, the bank selected is the distance from the first
one (R29, R111). -/
theorem bankSelectedBy_iff_of_consecutive {m : BankSwitchMethod} {first : Nat}
    (hget : ∀ bank < (hotspots m).length, (hotspots m)[bank]? = some (first + bank))
    (address bank : Nat) :
    bankSelectedBy m address = some bank ↔ bank < (hotspots m).length ∧ address = first + bank := by
  constructor
  · intro h
    have hbank := bankSelectedBy_eq_some h
    obtain ⟨hlt, _⟩ := List.getElem?_eq_some_iff.mp hbank
    exact ⟨hlt, Option.some.inj (hbank.symm.trans (hget bank hlt))⟩
  · rintro ⟨hlt, rfl⟩
    have hval (i : Nat) (hi : i < (hotspots m).length) : (hotspots m)[i] = first + i :=
      (List.getElem?_eq_some_iff.mp (hget i hi)).2
    refine List.idxOf?_eq_some_iff.mpr ⟨hlt, hval bank hlt, fun i hi => ?_⟩
    rw [hval i (hi.trans hlt)]
    omega

theorem bankSelectedBy_f8_iff (address bank : Nat) :
    bankSelectedBy .f8 address = some bank ↔ bank < 2 ∧ address = 0x1FF8 + bank :=
  bankSelectedBy_iff_of_consecutive (fun _ => getElem?_hotspots_f8) address bank

theorem bankSelectedBy_f6_iff (address bank : Nat) :
    bankSelectedBy .f6 address = some bank ↔ bank < 4 ∧ address = 0x1FF6 + bank :=
  bankSelectedBy_iff_of_consecutive (fun _ => getElem?_hotspots_f6) address bank

/-- Settles O42: a target is a hotspot where its offset in the bank is one, and the bank it selects is that
offset's distance from the first hotspot. -/
theorem hotspotTargetsSelectTheirOwnBank : Obligations.HotspotTargetsSelectTheirOwnBank := by
  intro x target
  have htarget : target = 0x1000 + x % 4096 := realAddress_add_romOffset x _
  refine ⟨fun hx => ?_, fun hx => ?_⟩
  · simp only [bankSelectedBy_f8_iff, htarget]
    constructor
    · rintro ⟨j, ⟨hj, hoffset⟩, hne⟩
      omega
    · rintro (rfl | rfl)
      · exact ⟨1, by decide⟩
      · exact ⟨0, by decide⟩
  · simp only [bankSelectedBy_f6_iff, htarget]
    constructor
    · rintro ⟨j, ⟨hj, hoffset⟩, hne⟩
      exact ⟨x / 4096, j, by omega, hj, hne, by omega⟩
    · rintro ⟨k, j, hk, hj, hne, rfl⟩
      exact ⟨j, ⟨hj, by omega⟩, by omega⟩

/-! ### The settling of the lines along a trace (R234) -/

theorem settles_append (cfg : Cfg) (u : Bool) (before after : List Event) :
    settles cfg u (before ++ after) =
      (settles cfg u before && settles cfg (unsettledAfter cfg u before) after) := by
  induction before generalizing u with
  | nil => rfl
  | cons e before ih =>
    cases e with
    | wr chip reg _ _ => exact ih _
    | rd _ _ _ => exact (congrArg (!u && ·) (ih u)).trans (Bool.and_assoc ..).symm
    | delay k => cases k <;> exact ih _
    | progress _ | report _ | out _ | rel => exact ih u

theorem unsettledAfter_append (cfg : Cfg) (u : Bool) (before after : List Event) :
    unsettledAfter cfg u (before ++ after) =
      unsettledAfter cfg (unsettledAfter cfg u before) after := by
  induction before generalizing u with
  | nil => rfl
  | cons e before ih =>
    cases e with
    | delay k => cases k <;> exact ih _
    | wr _ _ _ _ | rd _ _ _ | progress _ | report _ | out _ | rel => exact ih _

/-- Events that are no transactions read nothing, and none of them unsettles the lines. -/
theorem settles_of_internal (cfg : Cfg) (u : Bool) {events : List Event}
    (h : events.all Event.internal = true) :
    settles cfg u events = true ∧ (unsettledAfter cfg u events = true → u = true) := by
  induction events generalizing u with
  | nil => exact ⟨rfl, id⟩
  | cons e events ih =>
    rw [List.all_cons, Bool.and_eq_true] at h
    obtain ⟨he, hevents⟩ := h
    cases e with
    | wr _ _ _ _ | rd _ _ _ => cases he
    | delay k =>
      cases k with
      | addr => exact ⟨(ih false hevents).1, fun hu => nomatch (ih false hevents).2 hu⟩
      | retry | rom => exact ih u hevents
    | progress _ | report _ | out _ | rel => exact ih u hevents

theorem internal_events (r : Report) : r.events.all Event.internal = true := by
  cases r <;> rfl

/-! ### The settling of the lines by the tasks (R234) -/

theorem tasksSettle_false_of_true {tasks : List Task} (h : tasksSettle true tasks = true) :
    tasksSettle false tasks = true := by
  induction tasks with
  | nil => rfl
  | cons task rest ih =>
    rcases task with t | a
    · cases t with
      | addrLow _ | addrHigh _ => exact h
      | direction _ => exact ih h
      | read => cases h
    · cases a with
      | delay k =>
        cases k with
        | addr => exact h
        | retry | rom => exact ih h
      | fastLoop => cases h
      | _ => exact ih h

/-- Tasks that settle after lines that may have moved do so after lines that have not. -/
theorem tasksSettle_of_imp {u v : Bool} (huv : u = true → v = true) {tasks : List Task}
    (h : tasksSettle v tasks = true) : tasksSettle u tasks = true := by
  cases u with
  | true => rwa [huv rfl] at h
  | false =>
    cases v with
    | true => exact tasksSettle_false_of_true h
    | false => exact h

theorem tasksSettle_of_settled {u : Bool} {tasks : List Task} (h : tasksSettle u tasks = true) :
    tasksSettle false tasks = true :=
  tasksSettle_of_imp (u := false) (v := u) nofun h

/-- A SETADDR with its SETTLE leaves the lines settled, so what follows may read. -/
theorem tasksSettle_settled (u : Bool) (p : Half) (rest : List Task) :
    tasksSettle u (setAddressPlan p ++ settlePlan ++ rest) = tasksSettle false rest := rfl

theorem tasksSettle_pulse {m : BankSwitchMethod} {a : Nat} {pulse : List Task} (u : Bool)
    {rest : List Task} (h : bankSwitch m a = .ok pulse) (hrest : tasksSettle u rest = true) :
    tasksSettle u (pulse ++ rest) = true := by
  rcases pulse_cases h with rfl | ⟨p, rfl⟩
  · exact hrest
  · rw [tasksSettle_settled]
    exact tasksSettle_of_settled hrest

/-- One offset of the scan settles its target before it reads. -/
theorem tasksSettle_targetPlan (u : Bool) (cfg : Cfg) (x : Nat) {rest : List Task}
    (hrest : tasksSettle u rest = true) :
    tasksSettle u (targetPlan cfg x ++ .act .scanLoop :: rest) = true := by
  have hsettled : tasksSettle false rest = true := tasksSettle_of_settled hrest
  rw [targetPlan, List.append_assoc, List.append_assoc, tasksSettle_settled, fetchPlan]
  cases cfg.stabilize <;> exact hsettled

/-- What follows an action other than `Delay(Addr)` settles wherever the action's plan did. -/
theorem tasksSettle_tail {a : Action} (ha : a ≠ .delay .addr) {u : Bool} {rest : List Task}
    (h : tasksSettle u (.act a :: rest) = true) : tasksSettle u rest = true := by
  cases a with
  | delay k =>
    cases k with
    | addr => exact absurd rfl ha
    | retry | rom => exact h
  | fastLoop => exact (Bool.and_eq_true_iff.mp h).2
  | _ => exact h

/-- The tasks an action asks for before the rest of a plan: BANKSW's pulse, RDFAST's next sample, or the next
offset of the scan. -/
theorem perform_wait_cases {a : Action} {s s' : State} {tasks : List Task}
    (h : perform a s = .wait tasks s') :
    (∃ m operand, a = .bankSwitch m operand ∧ bankSwitch m operand = .ok tasks) ∨
    (a = .fastLoop ∧ tasks = [.bus .read, .act .fastJudge, .act .fastLoop]) ∨
    (∃ m operand pulse, a = .scanLoop ∧ bankSwitch m operand = .ok pulse ∧
      tasks = pulse ++ targetPlan s.cfg s.x ++ [.act .scanLoop]) := by
  cases a with
  | delay _ | beginRead | beginFast | beginValidating | beginScanning => cases h
  | bankSwitch m operand =>
    simp only [perform] at h
    split at h <;> cases h
    next hpulse => exact .inl ⟨m, operand, rfl, hpulse⟩
  | fastLoop =>
    rcases performFastLoop_cases s with ⟨_, hp⟩ | ⟨_, _, hp⟩ | ⟨_, _, hp⟩ <;>
      cases hp.symm.trans h
    exact .inr (.inl ⟨rfl, rfl⟩)
  | fastJudge =>
    rcases performFastJudge_cases s with ⟨_, hp⟩ | ⟨_, _, _, hp⟩ | ⟨_, _, _, hp⟩ |
      ⟨_, _, _, _, _, hp⟩ <;> cases hp.symm.trans h
  | storeSample i =>
    rcases performStoreSample_cases i s with ⟨_, hp⟩ | ⟨_, _, hp⟩ <;> cases hp.symm.trans h
  | runChecks =>
    rcases performChecks_cases s with ⟨_, hp⟩ | ⟨_, _, _, hp⟩ | ⟨_, _, _, _, hp⟩ <;>
      cases hp.symm.trans h
  | beginScan =>
    rcases performBeginScan_cases s with ⟨_, hp⟩ | ⟨_, hp⟩ <;> cases hp.symm.trans h
  | verdict =>
    rcases performVerdict_cases s with ⟨_, hp⟩ | ⟨_, _, _, hp⟩ | ⟨_, hp⟩ <;>
      cases hp.symm.trans h
  | scanLoop =>
    rcases performScanLoop_cases s with ⟨_, hp⟩ | ⟨pulse, _, hpulse, hp⟩ | ⟨_, _, _, hp⟩ <;>
      cases hp.symm.trans h
    exact .inr (.inr ⟨_, _, pulse, rfl, hpulse, rfl⟩)
  | storeByte =>
    rcases performStoreByte_cases s with ⟨_, hp⟩ | ⟨_, _, hp⟩ <;> cases hp.symm.trans h

/-- The tasks an action asks for settle before their reads, and so does what follows them. -/
theorem tasksSettle_wait {a : Action} {s s' : State} {tasks rest : List Task} {u : Bool}
    (hp : perform a s = .wait tasks s') (h : tasksSettle u (.act a :: rest) = true) :
    tasksSettle u (tasks ++ rest) = true := by
  rcases perform_wait_cases hp with ⟨m, operand, rfl, hpulse⟩ | ⟨rfl, rfl⟩ |
    ⟨m, operand, pulse, rfl, hpulse, rfl⟩
  · exact tasksSettle_pulse u hpulse h
  · obtain ⟨hu, -⟩ := Bool.and_eq_true_iff.mp h
    exact Bool.and_eq_true_iff.mpr ⟨hu, h⟩
  · rw [List.append_assoc, List.append_assoc]
    exact tasksSettle_pulse u hpulse (tasksSettle_targetPlan u s.cfg s.x h)

/-- A direction write moves no line: no direction register is a data register (R44). -/
theorem isAddressWrite_direction (cfg : Cfg) (P : PortName) :
    isAddressWrite cfg (Transaction.chip cfg (.direction P)) (Transaction.reg cfg (.direction P)) =
      false := by
  have hne (Q : Port) : location (Transaction.chip cfg (.direction P))
      (Transaction.reg cfg (.direction P)) ≠ gpioReg Q := iodirReg_ne_gpioReg (portOf cfg P) Q
  simp [isAddressWrite, hne]

/-- After a write the plan settles as if the lines had moved wherever the write is an address write. -/
theorem tasksSettle_write (cfg : Cfg) {t : Transaction} {val : Byte} (hval : t.value? = some val) {u : Bool}
    {rest : List Task} (h : tasksSettle u (.bus t :: rest) = true) :
    tasksSettle (u || isAddressWrite cfg (t.chip cfg) (t.reg cfg)) rest = true := by
  cases t with
  | direction P =>
    rw [isAddressWrite_direction, Bool.or_false]
    exact h
  | addrLow _ | addrHigh _ => exact tasksSettle_of_imp (fun _ => rfl) h
  | read => cases hval

/-! ### What every action and every answer keep (R234) -/

/-- `SettlesSince` with `tasks` in the place of the state's own `work`: the form that every action and every
answer of a run keeps. -/
def SettlesWith (before : List Event) (tasks : List Task) (s : State) : Prop :=
  ∃ events, s.tr = before ++ events ∧ settles s.cfg true events = true ∧
    tasksSettle (unsettledAfter s.cfg true events) tasks = true

theorem settlesSince_iff (before : List Event) (s : State) :
    SettlesSince before s ↔ SettlesWith before s.work s := .rfl

theorem steady_settlesWith (before : List Event) : Steady (SettlesWith before) :=
  fun _ _ _ _ _ h => h

/-- A command whose plan settles after lines that may have moved settles from its start. -/
theorem SettlesWith.start {tasks : List Task} (s : State) (h : tasksSettle true tasks = true) :
    SettlesWith s.tr tasks s := ⟨[], by simp, rfl, h⟩

section

variable {before : List Event} {tasks tasks' : List Task} {s s' : State}

/-- New events and new tasks that keep the obligation, whatever the lines were before them. -/
theorem SettlesWith.append {new : List Event} (h : SettlesWith before tasks s) (hcfg : s'.cfg = s.cfg)
    (htr : s'.tr = s.tr ++ new)
    (hnew : ∀ u, tasksSettle u tasks = true →
      settles s.cfg u new = true ∧ tasksSettle (unsettledAfter s.cfg u new) tasks' = true) :
    SettlesWith before tasks' s' := by
  obtain ⟨events, hevents, hsettles, htasks⟩ := h
  obtain ⟨hnewSettles, hnewTasks⟩ := hnew _ htasks
  refine ⟨events ++ new, by rw [htr, hevents, List.append_assoc], ?_, ?_⟩
  · rw [hcfg, settles_append, hsettles, hnewSettles, Bool.and_true]
  · rwa [hcfg, unsettledAfter_append]

/-- Events that are no transactions keep the obligation wherever the tasks left do. -/
theorem SettlesWith.append_internal {new : List Event} (h : SettlesWith before tasks s)
    (hcfg : s'.cfg = s.cfg) (htr : s'.tr = s.tr ++ new) (hnew : new.all Event.internal = true)
    (htasks : ∀ u, tasksSettle u tasks = true → tasksSettle u tasks' = true) :
    SettlesWith before tasks' s' :=
  h.append hcfg htr fun u hu =>
    have ⟨hsettles, hle⟩ := settles_of_internal s.cfg u hnew
    ⟨hsettles, tasksSettle_of_imp hle (htasks u hu)⟩

/-- Fault entry reads nothing and leaves no task (R207). -/
theorem SettlesWith.raise (h : SettlesWith before tasks s) (r : Report) :
    SettlesWith before [] (s.raise r) :=
  h.append_internal (by simp) (by simp) (internal_events r) fun _ _ => rfl

end

/-- An action that leads to `s'` and leaves `tasks'` keeps the obligation. -/
theorem SettlesWith.act {before : List Event} {a : Action} {rest tasks' : List Task} {s s' : State}
    (h : SettlesWith before (.act a :: rest) s)
    (hacted : s.Extends s' ∧ a.Led s s')
    (htasks : ∀ u, tasksSettle u (.act a :: rest) = true → tasksSettle u tasks' = true) :
    SettlesWith before tasks' s' := by
  obtain ⟨⟨hcfg, _⟩, events, htr, hinternal, _⟩ := hacted
  exact h.append_internal hcfg htr hinternal htasks

theorem settlesWith_keptByActions (before : List Event) : KeptByActions (SettlesWith before) := by
  have hacted (a : Action) (s : State) : (perform a s).All fun s' => s.Extends s' ∧ a.Led s s' :=
    (perform_extends a s).and (perform_led a s)
  constructor
  case go =>
    intro a rest s s' h hp
    by_cases ha : a = .delay .addr
    · subst ha
      cases hp
      exact h.append (new := [.delay .addr]) rfl rfl fun _ hu => ⟨rfl, hu⟩
    · exact h.act (by simpa only [hp, Progress.All] using hacted a s) fun _ => tasksSettle_tail ha
  case wait =>
    intro a rest tasks s s' h hp
    exact h.act (by simpa only [hp, Progress.All] using hacted a s) fun _ => tasksSettle_wait hp
  case stop =>
    intro a rest s s' h hp
    exact h.act (by simpa only [hp, Progress.All] using hacted a s) fun _ _ => rfl

theorem settlesWith_keptByAnswers (before : List Event) : KeptByAnswers (SettlesWith before) := by
  intro t rest s reply h
  have attempted (res : ReadResult) (ht : t = .read) :
      SettlesWith before (.bus .read :: rest)
        (s.emit (.rd (t.chip s.cfg) (t.reg s.cfg) res)) := by
    subst ht
    refine h.append rfl (s.emit_tr _) fun u hu => ?_
    obtain ⟨hsettled, -⟩ := Bool.and_eq_true_iff.mp hu
    exact ⟨Bool.and_eq_true_iff.mpr ⟨hsettled, rfl⟩, hu⟩
  have written {val : Byte} (hval : t.value? = some val) :
      SettlesWith before rest (s.writeRegister (t.chip s.cfg) (t.reg s.cfg) val reply) :=
    h.append rfl (s.writeRegister_tr ..) fun _ hu => ⟨rfl, tasksSettle_write s.cfg hval hu⟩
  rcases answer_cases s t rest reply with ⟨val, _, hval, _, hp⟩ | ⟨val, _, hval, _, hp⟩ |
    ⟨v, rfl, _, hp⟩ | ⟨_, rfl, _, _, hp⟩ | ⟨_, rfl, _, _, hp⟩ <;> rw [hp]
  · exact written hval
  · rw [State.raise_work]
    exact (written hval).raise _
  · exact (attempted (.ok v) rfl).append_internal (new := []) rfl (by simp) rfl
      fun _ hu => (Bool.and_eq_true_iff.mp hu).2
  · exact (attempted .ioFault rfl).append_internal (new := [.delay .retry]) rfl rfl rfl fun _ hu => hu
  · rw [State.raise_work]
    exact (attempted .ioFault rfl).raise _

theorem drive_settlesSince {before : List Event} {s t : State} (hs : SettlesSince before s)
    (h : drive s = .next t) : SettlesSince before t := by
  rw [settlesSince_iff] at hs ⊢
  exact drive_keeps (steady_settlesWith before) (settlesWith_keptByActions before)
    (settlesWith_keptByAnswers before) hs h

theorem settlesSince_withBusAnswer {before : List Event} {s : State} (h : SettlesSince before s) :
    SettlesSince before s.withBusAnswer := by
  cases hr : s.replies with
  | nil => rw [State.withBusAnswer_of_none hr]; exact h
  | cons r rest => rwa [State.withBusAnswer_of_reply hr]

/-- Every probe of CHKROM settles its address, and SCAN's CONFIG and CHKROM come before its loop. -/
theorem tasksSettle_planOf {i : Instr} (h : i = .chkrom ∨ i = .scan) :
    tasksSettle true (planOf i) = true := by
  rcases h with rfl | rfl <;> decide

/-- Settles O53: the plans of the two commands settle, and whatever drives a command on, a command just
issued or one in progress, keeps `SettlesWith`. -/
theorem validatorAndScanSettleBeforeEveryRead : Obligations.ValidatorAndScanSettleBeforeEveryRead := by
  refine ⟨fun i s t hi hexec => ?_, fun before s t hs hwork hr hstep => ?_⟩
  · rw [exec_eq_issue] at hexec
    obtain ⟨_, _, hdrive⟩ := issue_next hexec
    have hstart : SettlesSince s.tr { s with work := planOf i } :=
      SettlesWith.start { s with work := planOf i } (tasksSettle_planOf hi)
    exact drive_settlesSince hstart hdrive
  · rw [step_of_work hwork hr] at hstep
    exact drive_settlesSince (settlesSince_withBusAnswer hs) hstep

end Sys2Proof.Machine
